-- ==== Sys2Proof/Word.lean ====
section
/-! DEFINITION. The two word types of the 6502/2A03 instance (spec/00_scope.md R8: DATA_WIDTH 8, ADDR_WIDTH 16). -/

namespace Sys2Proof

/-- A memory byte, or the contents of A, X, Y, S or a pushed P (R8, `DATA_WIDTH`). -/
abbrev Byte := BitVec 8

/-- A CPU address, or the contents of PC (R8, `ADDR_WIDTH`). -/
abbrev Addr := BitVec 16

end Sys2Proof
end

