-- ==== Sys2Proof/Syntax.lean ====
section
/-! DEFINITION. The instructions of the 6502/2A03 instance as syntax (spec/30_encoding.md R100-R111, the opcode map R107).
A row of spec/opcode_table.json is one constructor of `Instr` together with one operand form: the eight rows of LDA are
`Instr.lda` with its eight forms. The 105 rows named ILLEGAL are `Instr.illegal` with the opcode byte (R108). -/

namespace Sys2Proof

/-- The addressing modes with an effective address (R103's mode table; R161-R168). -/
inductive MemMode where
  /-- ZP (R161). -/
  | zp (z : Byte)
  /-- ZPX (R162). -/
  | zpx (z : Byte)
  /-- ZPY (R163). -/
  | zpy (z : Byte)
  /-- ABS (R164). -/
  | abs (a : Addr)
  /-- ABX (R165). -/
  | abx (a : Addr)
  /-- ABY (R166). -/
  | aby (a : Addr)
  /-- IZX, "(zp,X)" (R167). -/
  | izx (z : Byte)
  /-- IZY, "(zp),Y" (R168). -/
  | izy (z : Byte)
  deriving DecidableEq, Repr

/-- The source operand of a reading instruction: IMM (R160) or memory. -/
inductive Source where
  | imm (v : Byte)
  | mem (m : MemMode)
  deriving DecidableEq, Repr

/-- The four memory forms of the read-modify-write instructions (R209, R210, R215-R218). -/
inductive RmwMode where
  | zp (z : Byte)
  | zpx (z : Byte)
  | abs (a : Addr)
  | abx (a : Addr)
  deriving DecidableEq, Repr

/-- The operand of a shift or rotate: ACC (R169) or memory. -/
inductive ShiftOperand where
  | acc
  | mem (m : RmwMode)
  deriving DecidableEq, Repr

/-- The instructions: the 56 mnemonics of R107, JMP once for each of its two modes (R240, R241), and the illegal opcodes. -/
inductive Instr where
  | lda (src : Source)
  | ldx (src : Source)
  | ldy (src : Source)
  | sta (dst : MemMode)
  | stx (dst : MemMode)
  | sty (dst : MemMode)
  | tax
  | tay
  | txa
  | tya
  | tsx
  | txs
  | pha
  | php
  | pla
  | plp
  | adc (src : Source)
  | sbc (src : Source)
  | and (src : Source)
  | ora (src : Source)
  | eor (src : Source)
  | bit (m : MemMode)
  | cmp (src : Source)
  | cpx (src : Source)
  | cpy (src : Source)
  | inc (m : RmwMode)
  | dec (m : RmwMode)
  | inx
  | iny
  | dex
  | dey
  | asl (opd : ShiftOperand)
  | lsr (opd : ShiftOperand)
  | rol (opd : ShiftOperand)
  | ror (opd : ShiftOperand)
  | jmpAbs (target : Addr)
  | jmpInd (ptr : Addr)
  | jsr (target : Addr)
  | rts
  | rti
  | brk
  | bpl (rel : Byte)
  | bmi (rel : Byte)
  | bvc (rel : Byte)
  | bvs (rel : Byte)
  | bcc (rel : Byte)
  | bcs (rel : Byte)
  | bne (rel : Byte)
  | beq (rel : Byte)
  | clc
  | sec
  | cli
  | sei
  | clv
  | cld
  | sed
  | nop
  | illegal (op : Byte)
  deriving DecidableEq, Repr

end Sys2Proof
end

