-- ==== Sys2Proof/WellFormed.lean ====
section
/-! DEFINITION. Which terms of `Instr` are instructions of the machine: the operand forms of R107's opcode map, instruction by
instruction, and the 105 illegal opcode values of R108. -/

namespace Sys2Proof

/-- The eight forms of LDA, ADC, SBC, AND, ORA, EOR and CMP: every source but ZPY (R172, R200-R205). -/
def Source.accForm : Source → Bool
  | .mem (.zpy _) => false
  | .imm _ | .mem _ => true

/-- The forms of LDX: IMM, ZP, ZPY, ABS, ABY (R173: there is no ZPX or ABX form). -/
def Source.ldxForm : Source → Bool
  | .imm _ | .mem (.zp _) | .mem (.zpy _) | .mem (.abs _) | .mem (.aby _) => true
  | .mem _ => false

/-- The forms of LDY: IMM, ZP, ZPX, ABS, ABX (R174). -/
def Source.ldyForm : Source → Bool
  | .imm _ | .mem (.zp _) | .mem (.zpx _) | .mem (.abs _) | .mem (.abx _) => true
  | .mem _ => false

/-- The forms of CPX and CPY: IMM, ZP, ABS (R206, R207). -/
def Source.indexCompareForm : Source → Bool
  | .imm _ | .mem (.zp _) | .mem (.abs _) => true
  | .mem _ => false

/-- The forms of STA: every memory mode but ZPY (R175). -/
def MemMode.staForm : MemMode → Bool
  | .zpy _ => false
  | .zp _ | .zpx _ | .abs _ | .abx _ | .aby _ | .izx _ | .izy _ => true

/-- The forms of STX: ZP, ZPY, ABS (R176). -/
def MemMode.stxForm : MemMode → Bool
  | .zp _ | .zpy _ | .abs _ => true
  | .zpx _ | .abx _ | .aby _ | .izx _ | .izy _ => false

/-- The forms of STY: ZP, ZPX, ABS (R177). -/
def MemMode.styForm : MemMode → Bool
  | .zp _ | .zpx _ | .abs _ => true
  | .zpy _ | .abx _ | .aby _ | .izx _ | .izy _ => false

/-- The forms of BIT: ZP, ABS (R208). -/
def MemMode.bitForm : MemMode → Bool
  | .zp _ | .abs _ => true
  | .zpx _ | .zpy _ | .abx _ | .aby _ | .izx _ | .izy _ => false

/-- The 105 illegal opcode values, in the order R108 lists them. -/
def illegalOpcodes : List Byte :=
  [0x02, 0x03, 0x04, 0x07, 0x0B, 0x0C, 0x0F, 0x12, 0x13, 0x14, 0x17, 0x1A, 0x1B, 0x1C, 0x1F, 0x22, 0x23, 0x27, 0x2B, 0x2F,
    0x32, 0x33, 0x34, 0x37, 0x3A, 0x3B, 0x3C, 0x3F, 0x42, 0x43, 0x44, 0x47, 0x4B, 0x4F] ++
  [0x52, 0x53, 0x54, 0x57, 0x5A, 0x5B, 0x5C, 0x5F, 0x62, 0x63, 0x64, 0x67, 0x6B, 0x6F, 0x72, 0x73, 0x74, 0x77, 0x7A, 0x7B,
    0x7C, 0x7F, 0x80, 0x82, 0x83, 0x87, 0x89, 0x8B, 0x8F, 0x92, 0x93, 0x97, 0x9B, 0x9C, 0x9E, 0x9F] ++
  [0xA3, 0xA7, 0xAB, 0xAF, 0xB2, 0xB3, 0xB7, 0xBB, 0xBF, 0xC2, 0xC3, 0xC7, 0xCB, 0xCF, 0xD2, 0xD3, 0xD4, 0xD7, 0xDA, 0xDB,
    0xDC, 0xDF, 0xE2, 0xE3, 0xE7, 0xEB, 0xEF, 0xF2, 0xF3, 0xF4, 0xF7, 0xFA, 0xFB, 0xFC, 0xFF]

/-- Whether a term is an instruction of the machine: its operand form is one that R107's map gives its mnemonic, or its opcode
is one of R108's list. Every operand VALUE is legal (R110). -/
def Instr.wellFormed : Instr → Bool
  | .lda src => src.accForm
  | .ldx src => src.ldxForm
  | .ldy src => src.ldyForm
  | .sta dst => dst.staForm
  | .stx dst => dst.stxForm
  | .sty dst => dst.styForm
  | .adc src => src.accForm
  | .sbc src => src.accForm
  | .and src => src.accForm
  | .ora src => src.accForm
  | .eor src => src.accForm
  | .bit m => m.bitForm
  | .cmp src => src.accForm
  | .cpx src => src.indexCompareForm
  | .cpy src => src.indexCompareForm
  | .illegal op => illegalOpcodes.contains op
  | .tax | .tay | .txa | .tya | .tsx | .txs | .pha | .php | .pla | .plp => true
  | .inc _ | .dec _ | .inx | .iny | .dex | .dey | .asl _ | .lsr _ | .rol _ | .ror _ => true
  | .jmpAbs _ | .jmpInd _ | .jsr _ | .rts | .rti | .brk => true
  | .bpl _ | .bmi _ | .bvc _ | .bvs _ | .bcc _ | .bcs _ | .bne _ | .beq _ => true
  | .clc | .sec | .cli | .sei | .clv | .cld | .sed | .nop => true

end Sys2Proof
end

