-- ==== Sys2Proof/Decode.lean ====
section
/-! DEFINITION. Decoding and encoding of the 6502/2A03 instance (spec/30_encoding.md R100-R112): the opcode table as data, the
decoder that reads it, and an encoder written from the `Encoding` lines of spec/41_load_store.md, 42_arith_logic.md and
43_control_flags.md. -/

namespace Sys2Proof

/-- The addressing-mode column of the opcode table (R101-R103). -/
inductive Format where
  | imp | acc | imm | zp | zpx | zpy | izx | izy | rel | abs | abx | aby | ind
  deriving DecidableEq, Repr

/-- The `extra_cycles` column of the opcode table (R112, R136). -/
inductive ExtraCycles where
  /-- "none" -/
  | never
  /-- "+1 if page crossed" -/
  | ifCrossed
  /-- "+1 if taken, +1 more if taken and page crossed" -/
  | ifTaken
  deriving DecidableEq, Repr

/-- One documented row of the opcode table: what the opcode byte alone fixes (R100), and the instruction that its operand
bytes complete. -/
structure Row where
  opcode : Byte
  mnemonic : String
  format : Format
  length : Nat
  cycles : Nat
  extra : ExtraCycles
  make : Byte → Byte → Instr

/-- The 16-bit operand `{byte2, byte1}` of a three-byte instruction, and every other little-endian pair (R103, R79). -/
def word (lo hi : Byte) : Addr := hi ++ lo

/-- `lo(a)` of R10. -/
def loByte (a : Addr) : Byte := a.extractLsb' 0 8

/-- `hi(a)` of R10. -/
def hiByte (a : Addr) : Byte := a.extractLsb' 8 8

/-- Rows 0x and 1x of R107. -/
def opcodeRows0 : List Row :=
  [⟨0x00, "BRK", .imp, 1, 7, .never, fun _ _ => .brk⟩,
   ⟨0x01, "ORA", .izx, 2, 6, .never, fun b1 _ => .ora (.mem (.izx b1))⟩,
   ⟨0x05, "ORA", .zp, 2, 3, .never, fun b1 _ => .ora (.mem (.zp b1))⟩,
   ⟨0x06, "ASL", .zp, 2, 5, .never, fun b1 _ => .asl (.mem (.zp b1))⟩,
   ⟨0x08, "PHP", .imp, 1, 3, .never, fun _ _ => .php⟩,
   ⟨0x09, "ORA", .imm, 2, 2, .never, fun b1 _ => .ora (.imm b1)⟩,
   ⟨0x0A, "ASL", .acc, 1, 2, .never, fun _ _ => .asl .acc⟩,
   ⟨0x0D, "ORA", .abs, 3, 4, .never, fun b1 b2 => .ora (.mem (.abs (word b1 b2)))⟩,
   ⟨0x0E, "ASL", .abs, 3, 6, .never, fun b1 b2 => .asl (.mem (.abs (word b1 b2)))⟩,
   ⟨0x10, "BPL", .rel, 2, 2, .ifTaken, fun b1 _ => .bpl b1⟩,
   ⟨0x11, "ORA", .izy, 2, 5, .ifCrossed, fun b1 _ => .ora (.mem (.izy b1))⟩,
   ⟨0x15, "ORA", .zpx, 2, 4, .never, fun b1 _ => .ora (.mem (.zpx b1))⟩,
   ⟨0x16, "ASL", .zpx, 2, 6, .never, fun b1 _ => .asl (.mem (.zpx b1))⟩,
   ⟨0x18, "CLC", .imp, 1, 2, .never, fun _ _ => .clc⟩,
   ⟨0x19, "ORA", .aby, 3, 4, .ifCrossed, fun b1 b2 => .ora (.mem (.aby (word b1 b2)))⟩,
   ⟨0x1D, "ORA", .abx, 3, 4, .ifCrossed, fun b1 b2 => .ora (.mem (.abx (word b1 b2)))⟩,
   ⟨0x1E, "ASL", .abx, 3, 7, .never, fun b1 b2 => .asl (.mem (.abx (word b1 b2)))⟩]

/-- Rows 2x and 3x of R107. -/
def opcodeRows2 : List Row :=
  [⟨0x20, "JSR", .abs, 3, 6, .never, fun b1 b2 => .jsr (word b1 b2)⟩,
   ⟨0x21, "AND", .izx, 2, 6, .never, fun b1 _ => .and (.mem (.izx b1))⟩,
   ⟨0x24, "BIT", .zp, 2, 3, .never, fun b1 _ => .bit (.zp b1)⟩,
   ⟨0x25, "AND", .zp, 2, 3, .never, fun b1 _ => .and (.mem (.zp b1))⟩,
   ⟨0x26, "ROL", .zp, 2, 5, .never, fun b1 _ => .rol (.mem (.zp b1))⟩,
   ⟨0x28, "PLP", .imp, 1, 4, .never, fun _ _ => .plp⟩,
   ⟨0x29, "AND", .imm, 2, 2, .never, fun b1 _ => .and (.imm b1)⟩,
   ⟨0x2A, "ROL", .acc, 1, 2, .never, fun _ _ => .rol .acc⟩,
   ⟨0x2C, "BIT", .abs, 3, 4, .never, fun b1 b2 => .bit (.abs (word b1 b2))⟩,
   ⟨0x2D, "AND", .abs, 3, 4, .never, fun b1 b2 => .and (.mem (.abs (word b1 b2)))⟩,
   ⟨0x2E, "ROL", .abs, 3, 6, .never, fun b1 b2 => .rol (.mem (.abs (word b1 b2)))⟩,
   ⟨0x30, "BMI", .rel, 2, 2, .ifTaken, fun b1 _ => .bmi b1⟩,
   ⟨0x31, "AND", .izy, 2, 5, .ifCrossed, fun b1 _ => .and (.mem (.izy b1))⟩,
   ⟨0x35, "AND", .zpx, 2, 4, .never, fun b1 _ => .and (.mem (.zpx b1))⟩,
   ⟨0x36, "ROL", .zpx, 2, 6, .never, fun b1 _ => .rol (.mem (.zpx b1))⟩,
   ⟨0x38, "SEC", .imp, 1, 2, .never, fun _ _ => .sec⟩,
   ⟨0x39, "AND", .aby, 3, 4, .ifCrossed, fun b1 b2 => .and (.mem (.aby (word b1 b2)))⟩,
   ⟨0x3D, "AND", .abx, 3, 4, .ifCrossed, fun b1 b2 => .and (.mem (.abx (word b1 b2)))⟩,
   ⟨0x3E, "ROL", .abx, 3, 7, .never, fun b1 b2 => .rol (.mem (.abx (word b1 b2)))⟩]

/-- Rows 4x and 5x of R107. -/
def opcodeRows4 : List Row :=
  [⟨0x40, "RTI", .imp, 1, 6, .never, fun _ _ => .rti⟩,
   ⟨0x41, "EOR", .izx, 2, 6, .never, fun b1 _ => .eor (.mem (.izx b1))⟩,
   ⟨0x45, "EOR", .zp, 2, 3, .never, fun b1 _ => .eor (.mem (.zp b1))⟩,
   ⟨0x46, "LSR", .zp, 2, 5, .never, fun b1 _ => .lsr (.mem (.zp b1))⟩,
   ⟨0x48, "PHA", .imp, 1, 3, .never, fun _ _ => .pha⟩,
   ⟨0x49, "EOR", .imm, 2, 2, .never, fun b1 _ => .eor (.imm b1)⟩,
   ⟨0x4A, "LSR", .acc, 1, 2, .never, fun _ _ => .lsr .acc⟩,
   ⟨0x4C, "JMP", .abs, 3, 3, .never, fun b1 b2 => .jmpAbs (word b1 b2)⟩,
   ⟨0x4D, "EOR", .abs, 3, 4, .never, fun b1 b2 => .eor (.mem (.abs (word b1 b2)))⟩,
   ⟨0x4E, "LSR", .abs, 3, 6, .never, fun b1 b2 => .lsr (.mem (.abs (word b1 b2)))⟩,
   ⟨0x50, "BVC", .rel, 2, 2, .ifTaken, fun b1 _ => .bvc b1⟩,
   ⟨0x51, "EOR", .izy, 2, 5, .ifCrossed, fun b1 _ => .eor (.mem (.izy b1))⟩,
   ⟨0x55, "EOR", .zpx, 2, 4, .never, fun b1 _ => .eor (.mem (.zpx b1))⟩,
   ⟨0x56, "LSR", .zpx, 2, 6, .never, fun b1 _ => .lsr (.mem (.zpx b1))⟩,
   ⟨0x58, "CLI", .imp, 1, 2, .never, fun _ _ => .cli⟩,
   ⟨0x59, "EOR", .aby, 3, 4, .ifCrossed, fun b1 b2 => .eor (.mem (.aby (word b1 b2)))⟩,
   ⟨0x5D, "EOR", .abx, 3, 4, .ifCrossed, fun b1 b2 => .eor (.mem (.abx (word b1 b2)))⟩,
   ⟨0x5E, "LSR", .abx, 3, 7, .never, fun b1 b2 => .lsr (.mem (.abx (word b1 b2)))⟩]

/-- Rows 6x and 7x of R107. -/
def opcodeRows6 : List Row :=
  [⟨0x60, "RTS", .imp, 1, 6, .never, fun _ _ => .rts⟩,
   ⟨0x61, "ADC", .izx, 2, 6, .never, fun b1 _ => .adc (.mem (.izx b1))⟩,
   ⟨0x65, "ADC", .zp, 2, 3, .never, fun b1 _ => .adc (.mem (.zp b1))⟩,
   ⟨0x66, "ROR", .zp, 2, 5, .never, fun b1 _ => .ror (.mem (.zp b1))⟩,
   ⟨0x68, "PLA", .imp, 1, 4, .never, fun _ _ => .pla⟩,
   ⟨0x69, "ADC", .imm, 2, 2, .never, fun b1 _ => .adc (.imm b1)⟩,
   ⟨0x6A, "ROR", .acc, 1, 2, .never, fun _ _ => .ror .acc⟩,
   ⟨0x6C, "JMP", .ind, 3, 5, .never, fun b1 b2 => .jmpInd (word b1 b2)⟩,
   ⟨0x6D, "ADC", .abs, 3, 4, .never, fun b1 b2 => .adc (.mem (.abs (word b1 b2)))⟩,
   ⟨0x6E, "ROR", .abs, 3, 6, .never, fun b1 b2 => .ror (.mem (.abs (word b1 b2)))⟩,
   ⟨0x70, "BVS", .rel, 2, 2, .ifTaken, fun b1 _ => .bvs b1⟩,
   ⟨0x71, "ADC", .izy, 2, 5, .ifCrossed, fun b1 _ => .adc (.mem (.izy b1))⟩,
   ⟨0x75, "ADC", .zpx, 2, 4, .never, fun b1 _ => .adc (.mem (.zpx b1))⟩,
   ⟨0x76, "ROR", .zpx, 2, 6, .never, fun b1 _ => .ror (.mem (.zpx b1))⟩,
   ⟨0x78, "SEI", .imp, 1, 2, .never, fun _ _ => .sei⟩,
   ⟨0x79, "ADC", .aby, 3, 4, .ifCrossed, fun b1 b2 => .adc (.mem (.aby (word b1 b2)))⟩,
   ⟨0x7D, "ADC", .abx, 3, 4, .ifCrossed, fun b1 b2 => .adc (.mem (.abx (word b1 b2)))⟩,
   ⟨0x7E, "ROR", .abx, 3, 7, .never, fun b1 b2 => .ror (.mem (.abx (word b1 b2)))⟩]

/-- Rows 8x and 9x of R107. -/
def opcodeRows8 : List Row :=
  [⟨0x81, "STA", .izx, 2, 6, .never, fun b1 _ => .sta (.izx b1)⟩,
   ⟨0x84, "STY", .zp, 2, 3, .never, fun b1 _ => .sty (.zp b1)⟩,
   ⟨0x85, "STA", .zp, 2, 3, .never, fun b1 _ => .sta (.zp b1)⟩,
   ⟨0x86, "STX", .zp, 2, 3, .never, fun b1 _ => .stx (.zp b1)⟩,
   ⟨0x88, "DEY", .imp, 1, 2, .never, fun _ _ => .dey⟩,
   ⟨0x8A, "TXA", .imp, 1, 2, .never, fun _ _ => .txa⟩,
   ⟨0x8C, "STY", .abs, 3, 4, .never, fun b1 b2 => .sty (.abs (word b1 b2))⟩,
   ⟨0x8D, "STA", .abs, 3, 4, .never, fun b1 b2 => .sta (.abs (word b1 b2))⟩,
   ⟨0x8E, "STX", .abs, 3, 4, .never, fun b1 b2 => .stx (.abs (word b1 b2))⟩,
   ⟨0x90, "BCC", .rel, 2, 2, .ifTaken, fun b1 _ => .bcc b1⟩,
   ⟨0x91, "STA", .izy, 2, 6, .never, fun b1 _ => .sta (.izy b1)⟩,
   ⟨0x94, "STY", .zpx, 2, 4, .never, fun b1 _ => .sty (.zpx b1)⟩,
   ⟨0x95, "STA", .zpx, 2, 4, .never, fun b1 _ => .sta (.zpx b1)⟩,
   ⟨0x96, "STX", .zpy, 2, 4, .never, fun b1 _ => .stx (.zpy b1)⟩,
   ⟨0x98, "TYA", .imp, 1, 2, .never, fun _ _ => .tya⟩,
   ⟨0x99, "STA", .aby, 3, 5, .never, fun b1 b2 => .sta (.aby (word b1 b2))⟩,
   ⟨0x9A, "TXS", .imp, 1, 2, .never, fun _ _ => .txs⟩,
   ⟨0x9D, "STA", .abx, 3, 5, .never, fun b1 b2 => .sta (.abx (word b1 b2))⟩]

/-- Rows Ax and Bx of R107. -/
def opcodeRowsA : List Row :=
  [⟨0xA0, "LDY", .imm, 2, 2, .never, fun b1 _ => .ldy (.imm b1)⟩,
   ⟨0xA1, "LDA", .izx, 2, 6, .never, fun b1 _ => .lda (.mem (.izx b1))⟩,
   ⟨0xA2, "LDX", .imm, 2, 2, .never, fun b1 _ => .ldx (.imm b1)⟩,
   ⟨0xA4, "LDY", .zp, 2, 3, .never, fun b1 _ => .ldy (.mem (.zp b1))⟩,
   ⟨0xA5, "LDA", .zp, 2, 3, .never, fun b1 _ => .lda (.mem (.zp b1))⟩,
   ⟨0xA6, "LDX", .zp, 2, 3, .never, fun b1 _ => .ldx (.mem (.zp b1))⟩,
   ⟨0xA8, "TAY", .imp, 1, 2, .never, fun _ _ => .tay⟩,
   ⟨0xA9, "LDA", .imm, 2, 2, .never, fun b1 _ => .lda (.imm b1)⟩,
   ⟨0xAA, "TAX", .imp, 1, 2, .never, fun _ _ => .tax⟩,
   ⟨0xAC, "LDY", .abs, 3, 4, .never, fun b1 b2 => .ldy (.mem (.abs (word b1 b2)))⟩,
   ⟨0xAD, "LDA", .abs, 3, 4, .never, fun b1 b2 => .lda (.mem (.abs (word b1 b2)))⟩,
   ⟨0xAE, "LDX", .abs, 3, 4, .never, fun b1 b2 => .ldx (.mem (.abs (word b1 b2)))⟩,
   ⟨0xB0, "BCS", .rel, 2, 2, .ifTaken, fun b1 _ => .bcs b1⟩,
   ⟨0xB1, "LDA", .izy, 2, 5, .ifCrossed, fun b1 _ => .lda (.mem (.izy b1))⟩,
   ⟨0xB4, "LDY", .zpx, 2, 4, .never, fun b1 _ => .ldy (.mem (.zpx b1))⟩,
   ⟨0xB5, "LDA", .zpx, 2, 4, .never, fun b1 _ => .lda (.mem (.zpx b1))⟩,
   ⟨0xB6, "LDX", .zpy, 2, 4, .never, fun b1 _ => .ldx (.mem (.zpy b1))⟩,
   ⟨0xB8, "CLV", .imp, 1, 2, .never, fun _ _ => .clv⟩,
   ⟨0xB9, "LDA", .aby, 3, 4, .ifCrossed, fun b1 b2 => .lda (.mem (.aby (word b1 b2)))⟩,
   ⟨0xBA, "TSX", .imp, 1, 2, .never, fun _ _ => .tsx⟩,
   ⟨0xBC, "LDY", .abx, 3, 4, .ifCrossed, fun b1 b2 => .ldy (.mem (.abx (word b1 b2)))⟩,
   ⟨0xBD, "LDA", .abx, 3, 4, .ifCrossed, fun b1 b2 => .lda (.mem (.abx (word b1 b2)))⟩,
   ⟨0xBE, "LDX", .aby, 3, 4, .ifCrossed, fun b1 b2 => .ldx (.mem (.aby (word b1 b2)))⟩]

/-- Rows Cx and Dx of R107. -/
def opcodeRowsC : List Row :=
  [⟨0xC0, "CPY", .imm, 2, 2, .never, fun b1 _ => .cpy (.imm b1)⟩,
   ⟨0xC1, "CMP", .izx, 2, 6, .never, fun b1 _ => .cmp (.mem (.izx b1))⟩,
   ⟨0xC4, "CPY", .zp, 2, 3, .never, fun b1 _ => .cpy (.mem (.zp b1))⟩,
   ⟨0xC5, "CMP", .zp, 2, 3, .never, fun b1 _ => .cmp (.mem (.zp b1))⟩,
   ⟨0xC6, "DEC", .zp, 2, 5, .never, fun b1 _ => .dec (.zp b1)⟩,
   ⟨0xC8, "INY", .imp, 1, 2, .never, fun _ _ => .iny⟩,
   ⟨0xC9, "CMP", .imm, 2, 2, .never, fun b1 _ => .cmp (.imm b1)⟩,
   ⟨0xCA, "DEX", .imp, 1, 2, .never, fun _ _ => .dex⟩,
   ⟨0xCC, "CPY", .abs, 3, 4, .never, fun b1 b2 => .cpy (.mem (.abs (word b1 b2)))⟩,
   ⟨0xCD, "CMP", .abs, 3, 4, .never, fun b1 b2 => .cmp (.mem (.abs (word b1 b2)))⟩,
   ⟨0xCE, "DEC", .abs, 3, 6, .never, fun b1 b2 => .dec (.abs (word b1 b2))⟩,
   ⟨0xD0, "BNE", .rel, 2, 2, .ifTaken, fun b1 _ => .bne b1⟩,
   ⟨0xD1, "CMP", .izy, 2, 5, .ifCrossed, fun b1 _ => .cmp (.mem (.izy b1))⟩,
   ⟨0xD5, "CMP", .zpx, 2, 4, .never, fun b1 _ => .cmp (.mem (.zpx b1))⟩,
   ⟨0xD6, "DEC", .zpx, 2, 6, .never, fun b1 _ => .dec (.zpx b1)⟩,
   ⟨0xD8, "CLD", .imp, 1, 2, .never, fun _ _ => .cld⟩,
   ⟨0xD9, "CMP", .aby, 3, 4, .ifCrossed, fun b1 b2 => .cmp (.mem (.aby (word b1 b2)))⟩,
   ⟨0xDD, "CMP", .abx, 3, 4, .ifCrossed, fun b1 b2 => .cmp (.mem (.abx (word b1 b2)))⟩,
   ⟨0xDE, "DEC", .abx, 3, 7, .never, fun b1 b2 => .dec (.abx (word b1 b2))⟩]

/-- Rows Ex and Fx of R107. -/
def opcodeRowsE : List Row :=
  [⟨0xE0, "CPX", .imm, 2, 2, .never, fun b1 _ => .cpx (.imm b1)⟩,
   ⟨0xE1, "SBC", .izx, 2, 6, .never, fun b1 _ => .sbc (.mem (.izx b1))⟩,
   ⟨0xE4, "CPX", .zp, 2, 3, .never, fun b1 _ => .cpx (.mem (.zp b1))⟩,
   ⟨0xE5, "SBC", .zp, 2, 3, .never, fun b1 _ => .sbc (.mem (.zp b1))⟩,
   ⟨0xE6, "INC", .zp, 2, 5, .never, fun b1 _ => .inc (.zp b1)⟩,
   ⟨0xE8, "INX", .imp, 1, 2, .never, fun _ _ => .inx⟩,
   ⟨0xE9, "SBC", .imm, 2, 2, .never, fun b1 _ => .sbc (.imm b1)⟩,
   ⟨0xEA, "NOP", .imp, 1, 2, .never, fun _ _ => .nop⟩,
   ⟨0xEC, "CPX", .abs, 3, 4, .never, fun b1 b2 => .cpx (.mem (.abs (word b1 b2)))⟩,
   ⟨0xED, "SBC", .abs, 3, 4, .never, fun b1 b2 => .sbc (.mem (.abs (word b1 b2)))⟩,
   ⟨0xEE, "INC", .abs, 3, 6, .never, fun b1 b2 => .inc (.abs (word b1 b2))⟩,
   ⟨0xF0, "BEQ", .rel, 2, 2, .ifTaken, fun b1 _ => .beq b1⟩,
   ⟨0xF1, "SBC", .izy, 2, 5, .ifCrossed, fun b1 _ => .sbc (.mem (.izy b1))⟩,
   ⟨0xF5, "SBC", .zpx, 2, 4, .never, fun b1 _ => .sbc (.mem (.zpx b1))⟩,
   ⟨0xF6, "INC", .zpx, 2, 6, .never, fun b1 _ => .inc (.zpx b1)⟩,
   ⟨0xF8, "SED", .imp, 1, 2, .never, fun _ _ => .sed⟩,
   ⟨0xF9, "SBC", .aby, 3, 4, .ifCrossed, fun b1 b2 => .sbc (.mem (.aby (word b1 b2)))⟩,
   ⟨0xFD, "SBC", .abx, 3, 4, .ifCrossed, fun b1 b2 => .sbc (.mem (.abx (word b1 b2)))⟩,
   ⟨0xFE, "INC", .abx, 3, 7, .never, fun b1 b2 => .inc (.abx (word b1 b2))⟩]

/-- The 151 documented rows of the opcode table, in opcode order (R107). -/
def opcodeRows : List Row :=
  opcodeRows0 ++ opcodeRows2 ++ opcodeRows4 ++ opcodeRows6 ++ opcodeRows8 ++ opcodeRowsA ++ opcodeRowsC ++ opcodeRowsE

/-- The documented row that an opcode byte selects; `none` for an illegal opcode (R108, R110). -/
def opcodeRow (op : Byte) : Option Row := opcodeRows.find? fun r => r.opcode == op

/-- The instruction that an opcode byte and its operand bytes stand for. Total: an opcode with no documented row is the
one-byte illegal instruction (R108-R110), and no operand byte is inspected for validity (R110). -/
def instrOf (op b1 b2 : Byte) : Instr :=
  match opcodeRow op with
  | some r => r.make b1 b2
  | none => .illegal op

/-- The length in bytes that an opcode byte fixes (R100; an illegal opcode is one byte, R137). -/
def opcodeLength (op : Byte) : Nat :=
  match opcodeRow op with
  | some r => r.length
  | none => 1

/-- Why a string of bytes is not the beginning of an instruction: the only way is that it ends too early. -/
inductive DecodeError where
  /-- There is no opcode byte. -/
  | noBytes
  /-- The opcode asks for more operand bytes than there are. -/
  | truncated (op : Byte)
  deriving DecidableEq, Repr

/-- Read one instruction from a string of bytes and return it with the rest (R100). -/
def decode : List Byte → Except DecodeError (Instr × List Byte)
  | [] => .error .noBytes
  | op :: rest =>
    match opcodeLength op, rest with
    | 3, b1 :: b2 :: rest' => .ok (instrOf op b1 b2, rest')
    | 3, _ => .error (.truncated op)
    | 2, b1 :: rest' => .ok (instrOf op b1 0, rest')
    | 2, [] => .error (.truncated op)
    | _, _ => .ok (instrOf op 0 0, rest)

/-- The bytes of a three-byte instruction: the operand's low byte first (R103). -/
def bytes3 (op : Byte) (a : Addr) : List Byte := [op, loByte a, hiByte a]

/-- The bytes of an instruction with the eight accumulator forms, its opcodes given in the order of R172's `Encoding` line. -/
def encodeAcc (imm zp zpx abs abx aby izx izy : Byte) : Source → List Byte
  | .imm v => [imm, v]
  | .mem (.zp z) => [zp, z]
  | .mem (.zpx z) => [zpx, z]
  | .mem (.zpy _) => []
  | .mem (.abs a) => bytes3 abs a
  | .mem (.abx a) => bytes3 abx a
  | .mem (.aby a) => bytes3 aby a
  | .mem (.izx z) => [izx, z]
  | .mem (.izy z) => [izy, z]

/-- The bytes of a read-modify-write instruction on memory, its opcodes in the order of R209's `Encoding` line. -/
def encodeRmw (zp zpx abs abx : Byte) : RmwMode → List Byte
  | .zp z => [zp, z]
  | .zpx z => [zpx, z]
  | .abs a => bytes3 abs a
  | .abx a => bytes3 abx a

/-- The bytes of a shift or rotate, its opcodes in the order of R215's `Encoding` line. -/
def encodeShift (acc zp zpx abs abx : Byte) : ShiftOperand → List Byte
  | .acc => [acc]
  | .mem m => encodeRmw zp zpx abs abx m

/-- The bytes of CPX and CPY (R206, R207). -/
def encodeIndexCompare (imm zp abs : Byte) : Source → List Byte
  | .imm v => [imm, v]
  | .mem (.zp z) => [zp, z]
  | .mem (.abs a) => bytes3 abs a
  | .mem _ => []

/-- The bytes of a well-formed instruction, from the `Encoding` line of its rule; no bytes for a form R107 does not have. -/
def encode : Instr → List Byte
  | .lda src => encodeAcc 0xA9 0xA5 0xB5 0xAD 0xBD 0xB9 0xA1 0xB1 src
  | .ldx (.imm v) => [0xA2, v]
  | .ldx (.mem (.zp z)) => [0xA6, z]
  | .ldx (.mem (.zpy z)) => [0xB6, z]
  | .ldx (.mem (.abs a)) => bytes3 0xAE a
  | .ldx (.mem (.aby a)) => bytes3 0xBE a
  | .ldx (.mem _) => []
  | .ldy (.imm v) => [0xA0, v]
  | .ldy (.mem (.zp z)) => [0xA4, z]
  | .ldy (.mem (.zpx z)) => [0xB4, z]
  | .ldy (.mem (.abs a)) => bytes3 0xAC a
  | .ldy (.mem (.abx a)) => bytes3 0xBC a
  | .ldy (.mem _) => []
  | .sta (.zp z) => [0x85, z]
  | .sta (.zpx z) => [0x95, z]
  | .sta (.abs a) => bytes3 0x8D a
  | .sta (.abx a) => bytes3 0x9D a
  | .sta (.aby a) => bytes3 0x99 a
  | .sta (.izx z) => [0x81, z]
  | .sta (.izy z) => [0x91, z]
  | .sta (.zpy _) => []
  | .stx (.zp z) => [0x86, z]
  | .stx (.zpy z) => [0x96, z]
  | .stx (.abs a) => bytes3 0x8E a
  | .stx _ => []
  | .sty (.zp z) => [0x84, z]
  | .sty (.zpx z) => [0x94, z]
  | .sty (.abs a) => bytes3 0x8C a
  | .sty _ => []
  | .tax => [0xAA]
  | .tay => [0xA8]
  | .txa => [0x8A]
  | .tya => [0x98]
  | .tsx => [0xBA]
  | .txs => [0x9A]
  | .pha => [0x48]
  | .php => [0x08]
  | .pla => [0x68]
  | .plp => [0x28]
  | .adc src => encodeAcc 0x69 0x65 0x75 0x6D 0x7D 0x79 0x61 0x71 src
  | .sbc src => encodeAcc 0xE9 0xE5 0xF5 0xED 0xFD 0xF9 0xE1 0xF1 src
  | .and src => encodeAcc 0x29 0x25 0x35 0x2D 0x3D 0x39 0x21 0x31 src
  | .ora src => encodeAcc 0x09 0x05 0x15 0x0D 0x1D 0x19 0x01 0x11 src
  | .eor src => encodeAcc 0x49 0x45 0x55 0x4D 0x5D 0x59 0x41 0x51 src
  | .bit (.zp z) => [0x24, z]
  | .bit (.abs a) => bytes3 0x2C a
  | .bit _ => []
  | .cmp src => encodeAcc 0xC9 0xC5 0xD5 0xCD 0xDD 0xD9 0xC1 0xD1 src
  | .cpx src => encodeIndexCompare 0xE0 0xE4 0xEC src
  | .cpy src => encodeIndexCompare 0xC0 0xC4 0xCC src
  | .inc m => encodeRmw 0xE6 0xF6 0xEE 0xFE m
  | .dec m => encodeRmw 0xC6 0xD6 0xCE 0xDE m
  | .inx => [0xE8]
  | .iny => [0xC8]
  | .dex => [0xCA]
  | .dey => [0x88]
  | .asl opd => encodeShift 0x0A 0x06 0x16 0x0E 0x1E opd
  | .lsr opd => encodeShift 0x4A 0x46 0x56 0x4E 0x5E opd
  | .rol opd => encodeShift 0x2A 0x26 0x36 0x2E 0x3E opd
  | .ror opd => encodeShift 0x6A 0x66 0x76 0x6E 0x7E opd
  | .jmpAbs a => bytes3 0x4C a
  | .jmpInd a => bytes3 0x6C a
  | .jsr a => bytes3 0x20 a
  | .rts => [0x60]
  | .rti => [0x40]
  | .brk => [0x00]
  | .bpl r => [0x10, r]
  | .bmi r => [0x30, r]
  | .bvc r => [0x50, r]
  | .bvs r => [0x70, r]
  | .bcc r => [0x90, r]
  | .bcs r => [0xB0, r]
  | .bne r => [0xD0, r]
  | .beq r => [0xF0, r]
  | .clc => [0x18]
  | .sec => [0x38]
  | .cli => [0x58]
  | .sei => [0x78]
  | .clv => [0xB8]
  | .cld => [0xD8]
  | .sed => [0xF8]
  | .nop => [0xEA]
  | .illegal op => [op]

/-- The bytes of a table word: bit 0 of `w` is the least significant bit of the first byte, and every bit from `nbits` up is 0.
Three bytes, the longest instruction (R100). -/
def tableBytes (nbits w : Nat) : List Byte :=
  let v := w % 2 ^ nbits
  [BitVec.ofNat 8 v, BitVec.ofNat 8 (v / 2 ^ 8), BitVec.ofNat 8 (v / 2 ^ 16)]

/-- The instruction the decoder reads from a word of the opcode table (the host's question). -/
def decodeTableWord (nbits w : Nat) : Option Instr :=
  match decode (tableBytes nbits w) with
  | .ok (i, _) => some i
  | .error _ => none

end Sys2Proof
end

