-- ==== Sys2Proof/Machine/Memory.lean ====
section
/-! DEFINITION. Sparse data by index in one canonical form: the byte arrays ram, sram and rom (spec/10_state.md R38, R39) and the
delta accumulators (spec/45_apu_synthesis.md R320). An index that is not listed reads as the array's blank value; a write of
the blank value removes the entry, so that equal arrays are equal lists. -/

namespace Sys2Proof.Machine

/-- What the array holds at an index: the listed value, or the blank. -/
def sparseRead {α : Type} (blank : α) : List (Nat × α) → Nat → α
  | [], _ => blank
  | (k, v) :: m, a => if k = a then v else sparseRead blank m a

/-- The array without any entry at an index. -/
def sparseErase {α : Type} (m : List (Nat × α)) (a : Nat) : List (Nat × α) := m.filter fun c => c.1 != a

/-- Put an entry where the rising order of the indices wants it. -/
def sparseInsert {α : Type} : List (Nat × α) → Nat → α → List (Nat × α)
  | [], a, v => [(a, v)]
  | (k, w) :: m, a, v => if a < k then (a, v) :: (k, w) :: m else (k, w) :: sparseInsert m a v

/-- Store a value at an index, keeping the canonical form. -/
def sparseWrite {α : Type} [DecidableEq α] (blank : α) (m : List (Nat × α)) (a : Nat) (v : α) : List (Nat × α) :=
  if v = blank then sparseErase m a else sparseInsert (sparseErase m a) a v

/-- The canonical form: indices strictly rising, no entry equal to the blank. -/
def sparseWf {α : Type} [DecidableEq α] (blank : α) : List (Nat × α) → Bool
  | [] => true
  | (_, v) :: [] => decide (v ≠ blank)
  | (k, v) :: (l, w) :: m => decide (v ≠ blank) && decide (k < l) && sparseWf blank ((l, w) :: m)

/-- Every index lies below a bound. -/
def sparseBelow {α : Type} (bound : Nat) (m : List (Nat × α)) : Bool := m.all fun c => decide (c.1 < bound)

/-- A byte array of the block: (offset, byte) pairs. An unlisted offset of `ram` and `sram` reads 0x00, as R44 says of memory
after reset; an unlisted offset of `rom` reads 0x00 too (DESIGN CHOICE, log entry 3: how an image is padded is the loader's). -/
abbrev Memory := List Host.Cell

/-- The byte an unlisted offset reads as. -/
def blankByte : Byte := 0x00

/-- The byte at an offset. -/
def Memory.read (m : Memory) (a : Nat) : Byte := sparseRead blankByte m a

/-- Store a byte at an offset. -/
def Memory.write (m : Memory) (a : Nat) (v : Byte) : Memory := sparseWrite blankByte m a v

/-- The canonical form of a byte array. -/
def Memory.wf (m : Memory) : Bool := sparseWf blankByte m

end Sys2Proof.Machine
end

