-- ==== Sys2Proof/Config.lean ====
section
/-! DEFINITION. What one instance of the block is configured with (spec/00_scope.md R8): the parameter record, the header values of
the loaded file (spec/46_coordinator.md R351), the form of a sound chip (R302) and of a synthesis kernel (R324), and, for every
parameter the spec leaves OPEN, an opaque constant: nothing in Lean can evaluate one, so whatever is proved about the reset
state holds for each of its values. -/

namespace Sys2Proof

/-- The two output buffers (R330). -/
inductive Side where
  | left
  | right
  deriving DecidableEq, Repr

/-- The oscillator types the source names (R302). -/
inductive OscKind where
  | tone
  | noise
  | waveTable
  | adpcm
  deriving DecidableEq, Repr, Inhabited

/-- The state of one oscillator (R40, R303): the fields the source names, and `extra` for whatever else a chip keeps (the
position in a wave table, an ADPCM decoder's predictor, pan registers). The fields' types are a DESIGN CHOICE (log entry 13). -/
structure Osc where
  /-- waveform phase accumulator -/
  phase : Nat
  /-- frequency or period -/
  period : Nat
  /-- volume -/
  volume : Nat
  /-- envelope counters -/
  envelope : List Nat
  /-- noise LFSR state, of a noise oscillator only -/
  lfsr : Option Nat
  /-- chip-specific state -/
  extra : List Int
  deriving DecidableEq, Repr, Inhabited

/-- An oscillator with the clock of its next state transition; `none` is never (R301's ∞). -/
structure TimedOsc where
  osc : Osc
  due : Option Int
  deriving DecidableEq, Repr, Inhabited

/-- What a chip fixes for one voice besides its functions (R303): the LFSR of a noise oscillator, the table of a wave-table
voice, the decoder of an ADPCM-like one. R303 names them without a default; their types are a DESIGN CHOICE (log entry 13). -/
structure VoiceData where
  /-- the width of the LFSR in bits -/
  lfsrWidth : Nat
  /-- the bits of the LFSR that are fed back -/
  lfsrTaps : List Nat
  /-- whether a transition of the oscillator in this state clocks the LFSR -/
  lfsrClocking : Osc → Bool
  /-- the contents of the wave table -/
  waveTable : List Int
  /-- the ADPCM-like decoder's step on what the oscillator keeps of it -/
  decoderStep : List Int → List Int
  deriving Inhabited

/-- One sound chip (R302): pure and total functions, by voice number where R302 writes an index i. `write` and `readEffect`
see every voice's oscillator and due time and answer one voice's new ones; `defines` says which registers can be read
(DEDUCED, log entries 11 and 12). `data` is R303's, and the amplitude and the stepping rule see their voice's. -/
structure ApuChip where
  voices : Nat
  kind : Nat → OscKind
  data : Nat → VoiceData
  reset : Nat → Osc
  firstDue : Nat → Option Int
  ampRule : Nat → VoiceData → Osc → Int
  weight : Nat → Osc → Side → ℚ≥0
  stepRule : Nat → VoiceData → Osc → Osc × Option ℕ+
  write : Nat → List TimedOsc → Nat → Byte → Int → TimedOsc
  defines : Nat → Bool
  readValue : List TimedOsc → Nat → Int → Byte
  readEffect : Nat → List TimedOsc → Nat → Int → TimedOsc
  deriving Inhabited

/-- `amp_i(osc)` (R302): the instantaneous amplitude of voice i. -/
def ApuChip.amp (chip : ApuChip) (i : Nat) (o : Osc) : Int := chip.ampRule i (chip.data i) o

/-- `advance_i(osc)` (R302): voice i's next state transition, and the delay until the one after it. -/
def ApuChip.advance (chip : ApuChip) (i : Nat) (o : Osc) : Osc × Option ℕ+ := chip.stepRule i (chip.data i) o

/-- A synthesis kernel (R324) of width `tailWidth + 1`, given by its values at j = 1 to `tailWidth`. The value at j = 0 is 1
minus their sum, so that unit DC gain, the one property a model may assume, holds by construction (DESIGN CHOICE, log
entry 14). -/
structure Kernel where
  tailWidth : Nat
  tail : Rat → Nat → Rat
  deriving Inhabited

/-- `DECIMAL_MODE`: what ADC and SBC do when D = 1 (R221). -/
inductive DecimalMode where
  /-- They compute in binary (the 2A03; the default). -/
  | ignored
  /-- They raise `ModelFault(DecimalUnmodelled)`. -/
  | refused
  deriving DecidableEq, Repr

/-- Which sound chip an instance has: the platform's own, which no source describes, or the spec's test device (R340). -/
inductive ChipChoice where
  | platform
  | refTone
  deriving DecidableEq, Repr

/-- Which synthesis kernel an instance has: the core's own, which no source describes, or the spec's reference kernel (R325). -/
inductive KernelChoice where
  | platform
  | reference
  deriving DecidableEq, Repr

/-- The parameters of R8 that are fixed for the life of an instance. They are plain data held in the state, and no step
changes them (DESIGN CHOICE, log entry 4). -/
structure Params where
  /-- `OPEN_BUS` (R64) -/
  openBus : Byte
  /-- `DECIMAL_MODE` (R221) -/
  decimal : DecimalMode
  /-- `ApuChip` (R302) -/
  chip : ChipChoice
  /-- `KERNEL` (R324) -/
  kernel : KernelChoice
  /-- `GAIN` (R326), any rational, of either sign (DESIGN CHOICE, log entry 4: the spec gives no domain) -/
  gain : Rat
  /-- `CLOCK_RATE`, chip clocks per second (R320), as a positive fraction: numerator and denominator (DESIGN CHOICE, log
  entry 4: the spec gives no domain) -/
  clockRate : ℕ+ × ℕ+
  /-- `BUF_SAMPLES` (R336) -/
  bufSamples : Nat
  /-- `FRAME_SAMPLES` (R368) -/
  frameSamples : ℕ+
  /-- `INIT_LIMIT`; `none` is +∞ (R354) -/
  initLimit : Option Int
  deriving DecidableEq, Repr

/-- The header inputs of R351, `ROM_BANKS` (R8), and the file data that a loader places in RAM (R452; none in most files). -/
structure Header where
  trackCount : Nat
  loadAddr : Addr
  initAddr : Addr
  playAddr : Addr
  bankInit : Vector Byte 8
  basePlayPeriod : Nat
  romBanks : Nat
  ramData : List Host.Cell
  deriving DecidableEq, Repr

/-- The open-bus byte of an unspecified instance (R64: the source gives no value). -/
opaque Config.openBus : Byte

/-- The sound chip of an unspecified platform (R302: the record is OPEN). -/
opaque Config.apuChip : ApuChip

/-- The synthesis kernel of an unspecified core (R324: the source gives none). -/
opaque Config.kernel : Kernel

/-- The output scaling of an unspecified core (R326, D22). -/
opaque Config.gain : Rat

/-- The chip clock rate of an unspecified platform (R8, D27), as a fraction. -/
opaque Config.clockRate : ℕ+ × ℕ+

/-- The synthesis buffer's capacity in an unspecified core (R336, D35). -/
opaque Config.bufSamples : Nat

/-- The largest frame of an unspecified Playback Engine (R368, D45). -/
opaque Config.frameSamples : ℕ+

/-- The sample rate the host chose before the first `start_track` (R365). -/
opaque Config.sampleRate : ℕ+

end Sys2Proof
end

