-- ==== Sys2Proof/Machine/Platform.lean ====
section
/-! DEFINITION. The fixed values of the 6502/2A03 instance and its reference platform (spec/00_scope.md R8, spec/20_memory.md R66,
R85), the reference sound chip RefTone (spec/45_apu_synthesis.md R340-R343) and kernel (R325), and what a choice of chip or kernel stands
for. -/

namespace Sys2Proof.Machine

/-- `IDLE_ADDR`, the sentinel idle address (R8, D8). -/
def idleAddr : Addr := 0x5FF6

/-- `MIN_COST`, the clocks of an illegal-opcode or wrap no-op (R8, D4). -/
def minCost : Nat := 2

/-- `REGION`, the value in X at start_track (R8, D40). -/
def region : Byte := 0x00

/-- The page size of the memory map, 2^PAGE_BITS (R8, R61). -/
def pageSize : Nat := 0x800

/-- The size of a ROM bank and of a bank window, 2^BANK_BITS (R8). -/
def bankSize : Nat := 0x1000

/-- The bytes of `ram` (R38). -/
def ramSize : Nat := 0x800

/-- The bytes of `sram` (R38). -/
def sramSize : Nat := 0x2000

/-- The NMI vector (R85, R404). -/
def nmiVector : Addr := 0xFFFA

/-- The IRQ and BRK vector (R85, R402, R403). -/
def irqVector : Addr := 0xFFFE

/-- The clocks an interrupt entry takes, which is also when its accesses happen (R405, R141). -/
def interruptCost : Nat := 7

/-- The width W of a kernel (R324). -/
def kernelWidth (k : Kernel) : Nat := k.tailWidth + 1

/-- The sum of a kernel's values at j = 1 to n. -/
def kernelTailSum (k : Kernel) (phi : Rat) : Nat → Rat
  | 0 => 0
  | n + 1 => kernelTailSum k phi n + k.tail phi (n + 1)

/-- `KERNEL(φ, j)` (R324). -/
def kernelTap (k : Kernel) (phi : Rat) (j : Nat) : Rat :=
  if j = 0 then 1 - kernelTailSum k phi k.tailWidth else k.tail phi j

/-- The reference kernel: W = 1 and KERNEL(φ, 0) = 1 (R325). -/
def referenceKernel : Kernel := { tailWidth := 0, tail := fun _ _ => 0 }

/-- The kernel that a choice stands for. -/
def kernelOf : KernelChoice → Kernel
  | .platform => Config.kernel
  | .reference => referenceKernel

/-- RefTone's oscillator: `P` is the period, `V` the volume and `ph` the phase (R340). -/
def refToneOsc (period volume phase : Nat) : Osc :=
  { phase := phase, period := period, volume := volume, envelope := [], lfsr := none, extra := [] }

/-- A write to a RefTone register: 0 is P[7:0], 1 is P[11:8], 2 is V; any other does nothing (R341). -/
def refToneWrite (o : Osc) (reg : Nat) (v : Byte) : Osc :=
  match reg with
  | 0 => { o with period := o.period / 256 * 256 + v.toNat }
  | 1 => { o with period := v.toNat % 16 * 256 + o.period % 256 }
  | 2 => { o with volume := v.toNat % 16 }
  | _ => o

/-- The reference tone: one square voice that toggles every P + 1 clocks (R340-R343). -/
def refTone : ApuChip where
  voices := 1
  kind _ := .tone
  data _ := default
  reset _ := refToneOsc 0 0 0
  firstDue _ := some 1
  ampRule _ _ o := if o.phase = 1 then (o.volume : Int) else 0
  weight _ _ _ := 1
  stepRule _ _ o := ({ o with phase := 1 - o.phase }, some o.period.succPNat)
  write i all reg v _ :=
    let t := all.getD i default
    { t with osc := refToneWrite t.osc reg v }
  defines reg := reg == 0x15
  readValue _ _ _ := 0x00
  readEffect i all _ _ := all.getD i default

/-- The chip that a choice stands for. -/
def chipOf : ChipChoice → ApuChip
  | .platform => Config.apuChip
  | .refTone => refTone

end Sys2Proof.Machine
end

