-- ==== Sys2Proof/Machine/Sound.lean ====
section
/-! DEFINITION. The state of the APU and of the synthesis buffer as plain data (spec/10_state.md R40, R41; spec/45_apu_synthesis.md R301,
R320), and their values at reset (R453, R454). -/

namespace Sys2Proof.Machine

/-- One voice (R301): its oscillator `osc_i`, `due_i`, `last_{i,L}`, `last_{i,R}` and the routing `out_i` as two bits. -/
structure Voice where
  osc : Osc
  due : Option Int
  lastL : Rat
  lastR : Rat
  outL : Bool
  outR : Bool
  deriving DecidableEq, Repr

/-- One output buffer (R320): the delta array `acc_b` as (index, delta) pairs, blank 0, and the integrator `integ_b`. -/
structure SampleBuffer where
  acc : List (Nat × Rat)
  integ : Rat
  deriving DecidableEq, Repr

/-- The APU and the synthesis buffer: `apu_time`, the voices, the two buffers, `origin` and `avail` (R301, R320). -/
structure Sound where
  apuTime : Int
  voices : List Voice
  left : SampleBuffer
  right : SampleBuffer
  origin : Rat
  avail : Nat
  deriving DecidableEq, Repr

/-- `last_{i,b}`. -/
def Voice.last (v : Voice) : Side → Rat
  | .left => v.lastL
  | .right => v.lastR

/-- Whether b ∈ `out_i`. -/
def Voice.out (v : Voice) : Side → Bool
  | .left => v.outL
  | .right => v.outR

/-- `last_{i,b} <- x`. -/
def Voice.setLast (v : Voice) (b : Side) (x : Rat) : Voice :=
  match b with
  | .left => { v with lastL := x }
  | .right => { v with lastR := x }

/-- Output buffer b. -/
def Sound.buffer (w : Sound) : Side → SampleBuffer
  | .left => w.left
  | .right => w.right

/-- Replace output buffer b. -/
def Sound.setBuffer (w : Sound) (b : Side) (x : SampleBuffer) : Sound :=
  match b with
  | .left => { w with left := x }
  | .right => { w with right := x }

/-- Voice i at reset: `ApuChip.reset`, its first due time, level 0, routed to both buffers (R44, R453). -/
def freshVoice (c : ApuChip) (i : Nat) : Voice :=
  { osc := c.reset i, due := c.firstDue i, lastL := 0, lastR := 0, outL := true, outR := true }

/-- An output buffer at reset: no delta, integrator 0 (R454). -/
def freshBuffer : SampleBuffer := { acc := [], integ := 0 }

/-- The APU and the synthesis buffer at reset (R44, R453, R454). -/
def freshSound (c : ApuChip) : Sound :=
  { apuTime := 0, voices := (List.range c.voices).map (freshVoice c), left := freshBuffer, right := freshBuffer,
    origin := 0, avail := 0 }

end Sys2Proof.Machine
end

