-- ==== Sys2Proof/Machine/State.lean ====
section
/-! DEFINITION. The state of one emulator instance as plain data (spec/10_state.md R20-R46), the reasons a step can stop, and
the state after reset (R44). -/

namespace Sys2Proof.Machine

/-- The messages the block can place in the warning slot (R401). -/
inductive Warning where
  | illegalOpcode
  | pcWrap
  | invalidBank
  | playOverrun
  | initTimeout
  deriving DecidableEq, Repr

/-- The Coordinator's driver state (R350). -/
inductive Mode where
  | idle
  | trackStarted
  | running
  | frameBoundary
  deriving DecidableEq, Repr

/-- Which routine the CPU is executing (R350); `none` in the state is R350's None. -/
inductive Routine where
  | init
  | play
  deriving DecidableEq, Repr

/-- The kinds of caller misuse (R401, R365, R368). -/
inductive Misuse where
  | sampleRateTwice
  | sampleRateUnset
  | playBeforeStart
  | oddCount
  deriving DecidableEq, Repr

/-- The error results of the host calls (R401). -/
inductive HostError where
  | misuse (kind : Misuse)
  | badTrack
  | badVoice
  deriving DecidableEq, Repr

/-- The host calls that reach the block (R351). Their arguments are typed as the rules restrict them: a positive integer rate
(R365), a frame of at least one clock (R355). -/
inductive HostCall where
  | setSampleRate (rate : ℕ+)
  | startTrack (n : Nat)
  | endFrame (length : ℕ+)
  | play (count : Int)
  | setTempo (t : Rat)
  | muteVoice (i : Nat) (on : Bool)
  | warning
  deriving DecidableEq, Repr

/-- What the block answers a host call: success, an error result, the interleaved samples of `play` (R335), or the content of
the warning slot (R364). -/
inductive HostAnswer where
  | ok
  | error (e : HostError)
  | samples (pcm : List Int)
  | warning (w : Option Warning)
  deriving DecidableEq, Repr

/-- The host call in progress, as far as it has come. The model's own field: the block is one thread (R7), and this says where
in `start_track`, `end_frame` or `play` that thread stands between two steps (DEDUCED, log entry 7). -/
inductive Activity where
  /-- No call is in progress. -/
  | waiting
  /-- In `RunInit`, step 7 of `start_track` (R354). -/
  | initRun
  /-- In the loop of `end_frame(length)` (R355), called by the host (`need = none`) or by `play` for `need` pairs (R368). -/
  | frame (length : ℕ+) (need : Option Nat)
  /-- At the head of the while loop of `play`, for `need` pairs (R368). -/
  | playLoop (need : Nat)
  deriving DecidableEq, Repr

/-- One APU write, as R19 observes it: `(clock, register, value)`. -/
structure ApuEvent where
  clock : Int
  reg : Nat
  value : Byte
  deriving DecidableEq, Repr

/-- The state of one emulator instance (R20), its parameters and inputs (R8, R351), and the host's side of it. -/
structure State where
  /-- accumulator (R21) -/
  a : Byte
  /-- index register X (R22) -/
  x : Byte
  /-- index register Y (R22) -/
  y : Byte
  /-- stack pointer S (R23) -/
  sp : Byte
  /-- program counter (R24) -/
  pc : Addr
  /-- negative flag (R25) -/
  n : Bool
  /-- overflow flag (R25) -/
  v : Bool
  /-- decimal flag (R25) -/
  d : Bool
  /-- interrupt-disable flag (R25) -/
  i : Bool
  /-- zero flag (R25) -/
  z : Bool
  /-- carry flag (R25) -/
  c : Bool
  /-- the CPU's local clock (R31), a mathematical integer (D21) -/
  clock : Int
  /-- the corruption flag (R33) -/
  corrupt : Bool
  /-- the warning slot (R34) -/
  warning : Option Warning
  /-- the level of the IRQ input (R403) -/
  irqLine : Bool
  /-- the latch of a pending NMI (R404) -/
  nmiPending : Bool
  /-- 2 KiB of RAM (R38) -/
  ram : Memory
  /-- 8 KiB of cartridge RAM (R38) -/
  sram : Memory
  /-- the resident ROM image (R39) -/
  rom : Memory
  /-- the bank registers (R37) -/
  bank : Vector Byte 8
  /-- the APU and the synthesis buffer (R40, R41) -/
  sound : Sound
  /-- the Coordinator's state machine (R350) -/
  mode : Mode
  /-- which routine the CPU is executing (R350) -/
  inRoutine : Option Routine
  /-- the clock of the next periodic re-entry (R350) -/
  nextPlay : Int
  /-- clocks between re-entries at the current tempo (R350) -/
  playPeriod : Nat
  /-- the tempo (R350) -/
  tempo : Rat
  /-- the mute mask: bit i for voice i (R350; log entry 23) -/
  mute : Nat
  /-- the current track index (R350) -/
  track : Nat
  /-- whether `set_sample_rate` has been called (R350) -/
  rateSet : Bool
  /-- `SAMPLE_RATE` (R365) -/
  sampleRate : ℕ+
  /-- the header inputs of the loaded file (R351) -/
  header : Header
  /-- the parameters of the instance (R8) -/
  params : Params
  /-- the host call in progress (the model's own) -/
  activity : Activity
  /-- host calls not yet taken, oldest first (the model's own: the host's input, R351) -/
  calls : List HostCall
  /-- what the block has answered, oldest first (the model's own: R19's observation) -/
  answers : List HostAnswer
  /-- the APU writes so far, oldest first (the model's own: R19's observation) -/
  apuLog : List ApuEvent
  deriving DecidableEq, Repr

/-- The reasons a step stops: the `ModelFault` reasons of R401. Each is safe: the machine the spec describes is given no value
there, and the model stops. -/
inductive Fault where
  /-- Raised by `apuWrite` and `apuRead` for a clock before `apu_time` (R308). Safe. -/
  | apuTimeOrder
  /-- Raised by `addDelta` for a delta outside the unconfirmed window (R322), and by `bufferEndFrame` for a frame beyond the
  buffer's capacity (R328). Safe. -/
  | bufferHorizon
  /-- Raised by `readSamples` for more samples than are confirmed (R326). Safe. -/
  | readPastConfirmed
  /-- Raised by ADC and SBC with D = 1 under `DECIMAL_MODE = refused` (R221). Safe. -/
  | decimalUnmodelled
  /-- Raised by `boundary` and `playEntry` when a register would be read before the first start_track (R46). Safe. -/
  | unstarted
  deriving DecidableEq, Repr

/-- The reasons the model gives an instruction no meaning. -/
inductive Refusal where
  /-- An instruction whose meaning is not written yet, raised by an arm of `exec` only. Safe. No arm raises it. -/
  | notModelled (mnemonic : String)
  deriving DecidableEq, Repr

/-- The parameters of an instance of which only what R8 fixes is known. -/
def resetParams : Params :=
  { openBus := Config.openBus, decimal := .ignored, chip := .platform, kernel := .platform, gain := Config.gain,
    clockRate := Config.clockRate, bufSamples := Config.bufSamples, frameSamples := Config.frameSamples, initLimit := none }

/-- The header of the file that the reset state has loaded (DESIGN CHOICE, log entry 2: the conventions of
spec/95_test_vectors.md). -/
def resetHeader : Header :=
  { trackCount := 1, loadAddr := 0x8000, initAddr := 0x8000, playAddr := 0x8010, bankInit := #v[0, 1, 2, 3, 4, 5, 6, 7],
    basePlayPeriod := 29830, romBanks := 8, ramData := [] }

/-- The machine right after reset: what steps 1-6 of `start_track(0)` leave (R44, R352), before the init routine's first
instruction (DESIGN CHOICE of the track and of the host's settings, log entries 1 and 5). -/
def State.reset : State :=
  { a := 0x00, x := 0x00, y := 0x00, sp := 0xFD, pc := 0x8000
    n := false, v := false, d := false, i := true, z := false, c := false
    clock := 0, corrupt := false, warning := none, irqLine := false, nmiPending := false
    ram := [(0x1FE, 0xF5), (0x1FF, 0x5F)], sram := [], rom := [], bank := #v[0, 1, 2, 3, 4, 5, 6, 7]
    sound := freshSound (chipOf .platform)
    mode := .trackStarted, inRoutine := some .init, nextPlay := 0, playPeriod := 29830, tempo := 1, mute := 0, track := 0
    rateSet := true, sampleRate := Config.sampleRate, header := resetHeader, params := resetParams
    activity := .initRun, calls := [], answers := [], apuLog := [] }

end Sys2Proof.Machine
end

