-- ==== Sys2Proof/Machine/Apu.lean ====
section
/-! DEFINITION. The APU's oscillators, the delta discipline, the synthesis buffer and the mixing (spec/45_apu_synthesis.md R300-R336).
Each operation acts on `Sound` alone and takes what it needs of the instance's parameters in a `SoundEnv`. -/

namespace Sys2Proof.Machine

/-- What an operation of the APU can answer: a value, or a `ModelFault` (R12). -/
abbrev Res (α : Type) := Except Fault α

/-- The parameters of the APU and the buffer: `ApuChip`, `KERNEL`, the ratio `F` and `BUF_SAMPLES` (R302, R324, R320, R336). -/
structure SoundEnv where
  chip : ApuChip
  kernel : Kernel
  ratio : Rat
  capacity : Nat

/-- `CLOCK_RATE` as a rational. -/
def clocksPerSecond (p : Params) : Rat := ((p.clockRate.1 : Nat) : Rat) / ((p.clockRate.2 : Nat) : Rat)

/-- `F = SAMPLE_RATE / CLOCK_RATE`, exactly (R320). -/
def State.ratio (s : State) : Rat := ((s.sampleRate : Nat) : Rat) / clocksPerSecond s.params

/-- The APU parameters of an instance. -/
def State.soundEnv (s : State) : SoundEnv :=
  { chip := chipOf s.params.chip, kernel := kernelOf s.params.kernel, ratio := s.ratio, capacity := s.params.bufSamples }

/-- `pos(t) = origin + t · F` (R321). -/
def samplePos (env : SoundEnv) (w : Sound) (t : Int) : Rat := w.origin + (t : Rat) * env.ratio

/-- Add `d * KERNEL(φ, j)` to entry `k + j` for j = 0 to n - 1, in that order (the loop of R322). -/
def spreadDelta (ker : Kernel) (phi d : Rat) (k : Nat) : Nat → List (Nat × Rat) → List (Nat × Rat)
  | 0, m => m
  | n + 1, m =>
    let m' := spreadDelta ker phi d k n m
    sparseWrite 0 m' (k + n) (sparseRead 0 m' (k + n) + d * kernelTap ker phi n)

/-- `AddDelta(b, t, d)` (R322). -/
def addDelta (env : SoundEnv) (b : Side) (t : Int) (d : Rat) (w : Sound) : Res Sound :=
  let pos := samplePos env w t
  let k := ⌊pos⌋
  let phi := pos - (k : Rat)
  let width := kernelWidth env.kernel
  if k < (w.avail : Int) ∨ k + width > (env.capacity + width : Int) then .error .bufferHorizon
  else
    let buf := w.buffer b
    .ok (w.setBuffer b { buf with acc := spreadDelta env.kernel phi d k.toNat width buf.acc })

/-- The level voice i means buffer b to have: amplitude times weight, or the level last emitted if it is not routed there
(R304, R333). -/
def targetLevel (env : SoundEnv) (i : Nat) (v : Voice) (b : Side) : Rat :=
  if v.out b then ((env.chip.amp i v.osc : Int) : Rat) * ((env.chip.weight i v.osc b : ℚ≥0) : Rat) else v.last b

/-- One turn of `Emit`'s loop: a delta only if the level has changed (R304). -/
def emitSide (env : SoundEnv) (i : Nat) (t : Int) (b : Side) (v : Voice) (w : Sound) : Res (Voice × Sound) :=
  let target := targetLevel env i v b
  if target = v.last b then .ok (v, w)
  else do
    let w ← addDelta env b t (target - v.last b) w
    pure (v.setLast b target, w)

/-- `Emit(i, τ)` (R304). -/
def emit (env : SoundEnv) (i : Nat) (t : Int) (v : Voice) (w : Sound) : Res (Voice × Sound) := do
  let (v, w) ← emitSide env i t .left v w
  emitSide env i t .right v w

/-- The turns a voice due at `due` can need to pass clock t: each turn moves the due time by at least one clock (R302). -/
def runFuel (due : Option Int) (t : Int) : Nat :=
  match due with
  | none => 0
  | some d => (t - d + 1).toNat

/-- The while loop of `RunTo` for one voice (R305), bounded by the turns it can need. -/
def runVoice (env : SoundEnv) (i : Nat) (t : Int) : Nat → Voice → Sound → Res (Voice × Sound)
  | 0, v, w => .ok (v, w)
  | fuel + 1, v, w =>
    match v.due with
    | none => .ok (v, w)
    | some due =>
      if due ≤ t then do
        let next := env.chip.advance i v.osc
        let (v, w) ← emit env i due { v with osc := next.1 } w
        runVoice env i t fuel { v with due := next.2.map fun (delay : ℕ+) => due + ((delay : Nat) : Int) } w
      else .ok (v, w)

/-- Catch voice i up to clock t: the while loop of `RunTo`, with all the turns it can need (R305). -/
def catchUp (env : SoundEnv) (i : Nat) (t : Int) (v : Voice) (w : Sound) : Res (Voice × Sound) :=
  runVoice env i t (runFuel v.due t) v w

/-- The for loop of `RunTo` over the voices from number i on (R305). -/
def runVoices (env : SoundEnv) (t : Int) : Nat → List Voice → Sound → Res (List Voice × Sound)
  | _, [], w => .ok ([], w)
  | i, v :: vs, w => do
    let (v, w) ← catchUp env i t v w
    let (vs, w) ← runVoices env t (i + 1) vs w
    pure (v :: vs, w)

/-- `RunTo(t)` (R305). Its callers have t ≥ apu_time. -/
def runTo (env : SoundEnv) (t : Int) (w : Sound) : Res Sound := do
  let (vs, w) ← runVoices env t 0 w.voices w
  pure { w with voices := vs, apuTime := t }

/-- `Emit(i, t)` for every voice from number i on. -/
def emitVoices (env : SoundEnv) (t : Int) : Nat → List Voice → Sound → Res (List Voice × Sound)
  | _, [], w => .ok ([], w)
  | i, v :: vs, w => do
    let (v, w) ← emit env i t v w
    let (vs, w) ← emitVoices env t (i + 1) vs w
    pure (v :: vs, w)

/-- `Emit(i, t)` for every voice (R306, R307). -/
def emitAll (env : SoundEnv) (t : Int) (w : Sound) : Res Sound := do
  let (vs, w) ← emitVoices env t 0 w.voices w
  pure { w with voices := vs }

/-- A voice's oscillator and due time. -/
def Voice.timed (v : Voice) : TimedOsc := { osc := v.osc, due := v.due }

/-- Give each voice, from number i on, the oscillator and due time that `f` answers for its number. -/
def setTimed (f : Nat → TimedOsc) : Nat → List Voice → List Voice
  | _, [] => []
  | i, v :: vs => { v with osc := (f i).osc, due := (f i).due } :: setTimed f (i + 1) vs

/-- `ApuWrite(c, reg, v)` (R306); a clock before `apu_time` is refused (R308). -/
def apuWrite (env : SoundEnv) (c : Int) (reg : Nat) (v : Byte) (w : Sound) : Res Sound :=
  if c < w.apuTime then .error .apuTimeOrder
  else do
    let w ← runTo env c w
    let now := w.voices.map Voice.timed
    emitAll env c { w with voices := setTimed (fun i => env.chip.write i now reg v c) 0 w.voices }

/-- `ApuRead(c, reg)` (R307): a clock before `apu_time` is refused, whatever the register (R308); a register the chip does not
define reads as `OPEN_BUS` and changes nothing, apu_time included (DEDUCED, log entry 16). -/
def apuRead (env : SoundEnv) (openBus : Byte) (c : Int) (reg : Nat) (w : Sound) : Res (Byte × Sound) :=
  if c < w.apuTime then .error .apuTimeOrder
  else if env.chip.defines reg = false then .ok (openBus, w)
  else do
    let w ← runTo env c w
    let now := w.voices.map Voice.timed
    let value := env.chip.readValue now reg c
    let w ← emitAll env c { w with voices := setTimed (fun i => env.chip.readEffect i now reg c) 0 w.voices }
    pure (value, w)

/-- `BufferEndFrame(T)` (R328). -/
def bufferEndFrame (env : SoundEnv) (length : Int) (w : Sound) : Res Sound :=
  let origin := w.origin + (length : Rat) * env.ratio
  let avail := ⌊origin⌋.toNat
  if avail > env.capacity then .error .bufferHorizon else .ok { w with origin := origin, avail := avail }

/-- Lower a voice's due time by a frame (R309). -/
def rebaseVoice (length : Int) (v : Voice) : Voice := { v with due := v.due.map fun d => d - length }

/-- `ApuEndFrame(T)` (R309). -/
def apuEndFrame (env : SoundEnv) (length : Int) (w : Sound) : Res Sound := do
  let w ← runTo env (max length w.apuTime) w
  bufferEndFrame env length
    { w with apuTime := w.apuTime - length, voices := w.voices.map (rebaseVoice length) }

/-- `SetOutputs(mask)` for the voices from number i on (R334). -/
def routeVoices (mask : Nat) : Nat → List Voice → List Voice
  | _, [] => []
  | i, v :: vs => { v with outL := !mask.testBit i, outR := !mask.testBit i } :: routeVoices mask (i + 1) vs

/-- `SetOutputs(mask)` (R334). -/
def setOutputs (mask : Nat) (w : Sound) : Sound := { w with voices := routeVoices mask 0 w.voices }

/-- One output sample: the level scaled, rounded by floor and saturated to 16 bits signed (R326). -/
def pcmSample (gain level : Rat) : Int := max (-32768) (min 32767 ⌊level * gain⌋)

/-- Integrate n entries of a delta array from index k on (the loop of R326): the samples, and the integrator after them. -/
def integrate (gain : Rat) (acc : List (Nat × Rat)) : Nat → Nat → Rat → List Int × Rat
  | 0, _, level => ([], level)
  | n + 1, k, level =>
    let level := level + sparseRead 0 acc k
    let rest := integrate gain acc n (k + 1) level
    (pcmSample gain level :: rest.1, rest.2)

/-- Drop the first n entries of a delta array and move the others down (R326). -/
def shiftDown (n : Nat) (acc : List (Nat × Rat)) : List (Nat × Rat) :=
  (acc.filter fun c => decide (n ≤ c.1)).map fun c => (c.1 - n, c.2)

/-- Interleave two channels, left first (R335). -/
def interleave : List Int → List Int → List Int
  | l :: ls, r :: rs => l :: r :: interleave ls rs
  | _, _ => []

/-- One output buffer after n samples have been read out of it (R326). -/
def readOut (gain : Rat) (n : Nat) (buf : SampleBuffer) : List Int × SampleBuffer :=
  let out := integrate gain buf.acc n 0 buf.integ
  (out.1, { acc := shiftDown n buf.acc, integ := out.2 })

/-- `ReadSamples(n)` (R326). -/
def readSamples (gain : Rat) (n : Nat) (w : Sound) : Res (List Int × Sound) :=
  if n > w.avail then .error .readPastConfirmed
  else
    let l := readOut gain n w.left
    let r := readOut gain n w.right
    .ok (interleave l.1 r.1, { w with left := l.2, right := r.2, origin := w.origin - n, avail := w.avail - n })

end Sys2Proof.Machine
end

