-- ==== Sys2Proof/Machine/Flags.lean ====
section
/-! DEFINITION. Every flag computation of the instance: SetNZ, the pushed status byte, and the flag and result arithmetic of
ADC/SBC, the compares and the shifts (spec/10_state.md R25-R29, spec/42_arith_logic.md R200-R221). -/

namespace Sys2Proof.Machine

/-- Bit i of a byte as a flag (`v[i]` of R9). -/
def bitOf (v : Byte) (i : Nat) : Bool := v.getLsbD i

/-- `SetNZ(v)` (R26). -/
def State.setNZ (s : State) (v : Byte) : State := { s with n := bitOf v 7, z := v == 0x00 }

/-- `PackP(b)`, the status byte as it is pushed: `{N, V, 1, b, D, I, Z, C}` (R28, R13). -/
def State.packP (s : State) (b : Bool) : Byte :=
  BitVec.ofBool s.n ++ BitVec.ofBool s.v ++ 1#1 ++ BitVec.ofBool b ++ BitVec.ofBool s.d ++ BitVec.ofBool s.i ++
    BitVec.ofBool s.z ++ BitVec.ofBool s.c

/-- `UnpackP(v)`: the six flags from a pulled byte, bits 5 and 4 ignored (R29). -/
def State.unpackP (s : State) (v : Byte) : State :=
  { s with n := bitOf v 7, v := bitOf v 6, d := bitOf v 3, i := bitOf v 2, z := bitOf v 1, c := bitOf v 0 }

/-- A result byte with the carry and the overflow that go with it. -/
structure AluOut where
  value : Byte
  carry : Bool
  overflow : Bool
  deriving DecidableEq, Repr

/-- The sum of ADC (R200): t = A + M + C, its low eight bits, its carry out and its two's-complement overflow. -/
def addCarry (a m : Byte) (c : Bool) : AluOut :=
  let t := a.toNat + m.toNat + c.toNat
  let r := BitVec.ofNat 8 t
  { value := r, carry := decide (t > 0xFF), overflow := (~~~(a ^^^ m) &&& (a ^^^ r) &&& 0x80) != 0x00 }

/-- The difference of SBC (R201): the sum of R200 with M complemented. -/
def subBorrow (a m : Byte) (c : Bool) : AluOut := addCarry a (~~~m) c

/-- The flags of CMP, CPX and CPY for register value r and operand m (R205). -/
def State.compare (s : State) (r m : Byte) : State :=
  { s with c := decide (m.toNat ≤ r.toNat), z := r == m, n := bitOf (r - m) 7 }

/-- The flags of BIT for accumulator a and operand m (R208). -/
def State.testBits (s : State) (a m : Byte) : State :=
  { s with z := (a &&& m) == 0x00, n := bitOf m 7, v := bitOf m 6 }

/-- ASL: the shifted value and the bit shifted out (R215). The carry in is not used. -/
def aslOut (v : Byte) (_ : Bool) : Byte × Bool := (v <<< 1, bitOf v 7)

/-- LSR: the shifted value and the bit shifted out (R216). The carry in is not used. -/
def lsrOut (v : Byte) (_ : Bool) : Byte × Bool := (v >>> 1, bitOf v 0)

/-- ROL through the carry (R217). -/
def rolOut (v : Byte) (c : Bool) : Byte × Bool := ((v <<< 1) ||| (BitVec.ofBool c).setWidth 8, bitOf v 7)

/-- ROR through the carry (R218). -/
def rorOut (v : Byte) (c : Bool) : Byte × Bool := ((v >>> 1) ||| ((BitVec.ofBool c).setWidth 8 <<< 7), bitOf v 0)

end Sys2Proof.Machine
end

