-- ==== Sys2Proof/Machine/Ops.lean ====
section
/-! DEFINITION. The memory controller, the bank-switch router and the I/O path (spec/20_memory.md R60-R91), the stack (R12,
R23), the corruption no-op (spec/40_interpreter.md R137, R138), and interrupt entry and return (spec/60_exceptions.md R402-R408). -/

namespace Sys2Proof.Machine

/-! ## The memory map -/

/-- A directly mapped region (R61). -/
inductive Region where
  | ram
  | sram
  | rom
  deriving DecidableEq, Repr

/-- A page-table entry (R61). -/
inductive PageEntry where
  /-- `Direct(region, base)` -/
  | direct (region : Region) (base : Nat)
  /-- `IoPath` -/
  | ioPath
  deriving DecidableEq, Repr

/-- `bank[w]`. -/
def State.bankAt (s : State) (w : Fin 8) : Byte := s.bank[w]

/-- `bank[w] <- v`. -/
def State.setBank (s : State) (w : Fin 8) (v : Byte) : State := { s with bank := s.bank.set w.val v w.isLt }

/-- `size(region)` (R38, R39, R62). -/
def regionSize (s : State) : Region → Nat
  | .ram => ramSize
  | .sram => sramSize
  | .rom => s.header.romBanks * bankSize

/-- The byte at an offset of a region. -/
def regionRead (s : State) (r : Region) (o : Nat) : Byte :=
  match r with
  | .ram => s.ram.read o
  | .sram => s.sram.read o
  | .rom => s.rom.read o

/-- The bank window of a page of 0x8000-0xFFFF: two pages a window (R66, R69). -/
def windowOfPage (p : Nat) : Fin 8 := Fin.ofNat 8 ((p - 16) / 2)

/-- `page[p]` in the reference map (R66): a pure function of the bank registers (R61). -/
def pageEntry (s : State) (p : Nat) : PageEntry :=
  if p < 4 then .direct .ram 0
  else if p < 12 then .ioPath
  else if p < 16 then .direct .sram ((p - 12) * pageSize)
  else
    let b := (s.bankAt (windowOfPage p)).toNat
    if b < s.header.romBanks then .direct .rom (b * bankSize + (p - 16) % 2 * pageSize) else .ioPath

/-- The bank window of an address of 0x8000-0xFFFF (R69). -/
def windowOf (a : Addr) : Fin 8 := Fin.ofNat 8 ((a.toNat - 0x8000) / 0x1000)

/-- `addr >> PAGE_BITS`. -/
def pageOf (a : Addr) : Nat := a.toNat / pageSize

/-- Where an address lies: the region and the offset its page maps it to; `none` on the I/O path (R61, R62). -/
def locate (s : State) (a : Addr) : Option (Region × Nat) :=
  match pageEntry s (pageOf a) with
  | .direct r base => some (r, base + a.toNat % pageSize)
  | .ioPath => none

/-- The byte an address shows without an access to a device: the region's byte, or `OPEN_BUS` (R62, R64). Only a read of 0x4015
can answer anything else (R74). -/
def State.peek (s : State) (a : Addr) : Byte :=
  match locate s a with
  | some (r, o) => if o < regionSize s r then regionRead s r o else s.params.openBus
  | none => s.params.openBus

/-! ## The I/O path -/

/-- The one readable sound-chip address (R74). -/
def apuStatusAddr : Addr := 0x4015

/-- The first address of the sound chip's write window; it ends at 0x4017 (R73). -/
def apuBase : Addr := 0x4000

/-- The address of bank register 0; register w stands at this plus w (R70). -/
def bankBase : Addr := 0x5FF8

/-- Whether an address is in the sound chip's write window 0x4000-0x4017 (R73). -/
def isApuWrite (a : Addr) : Bool := decide (0x4000 ≤ a.toNat) && decide (a.toNat ≤ 0x4017)

/-- Whether an address is a bank register, 0x5FF8-0x5FFF (R70). -/
def isBankRegister (a : Addr) : Bool := decide (0x5FF8 ≤ a.toNat) && decide (a.toNat ≤ 0x5FFF)

/-- `IoRead(addr, t_acc)`: 0x4015 asks the sound chip; every other address is open bus (R71, R74, R78). -/
def ioRead (s : State) (a : Addr) (t : Int) : Res (Byte × State) :=
  if a = apuStatusAddr then do
    let (v, w) ← apuRead s.soundEnv s.params.openBus t 0x15 s.sound
    pure (v, { s with sound := w })
  else .ok (s.params.openBus, s)

/-- `bank[w] <- v`, with the warning `InvalidBank` if the image has no such bank (R70). -/
def writeBank (s : State) (w : Fin 8) (v : Byte) : State :=
  if v.toNat ≥ s.header.romBanks then { s.setBank w v with warning := some .invalidBank } else s.setBank w v

/-- `IoWrite(addr, v, t_acc)`: the sound chip's window, the bank registers, and nothing else (R65, R70, R72, R73, R78). An APU
write is also put on record (R19). -/
def ioWrite (s : State) (a : Addr) (v : Byte) (t : Int) : Res State :=
  if isApuWrite a then do
    let reg := a.toNat - apuBase.toNat
    let w ← apuWrite s.soundEnv t reg v s.sound
    pure { s with sound := w, apuLog := s.apuLog ++ [{ clock := t, reg := reg, value := v }] }
  else if isBankRegister a then .ok (writeBank s (Fin.ofNat 8 (a.toNat - bankBase.toNat)) v)
  else .ok s

/-! ## Memory accesses -/

/-- `MemRead(addr, 1)` at access time t (R62). -/
def memRead (s : State) (a : Addr) (t : Int) : Res (Byte × State) :=
  match locate s a with
  | some (r, o) => .ok (if o < regionSize s r then regionRead s r o else s.params.openBus, s)
  | none => ioRead s a t

/-- `MemWrite(addr, 1, v)` at access time t (R63): RAM and SRAM take the byte; everything else goes to the I/O path. -/
def memWrite (s : State) (a : Addr) (v : Byte) (t : Int) : Res State :=
  match locate s a with
  | some (.ram, o) => .ok { s with ram := s.ram.write o v }
  | some (.sram, o) => .ok { s with sram := s.sram.write o v }
  | some (.rom, _) => ioWrite s a v t
  | none => ioWrite s a v t

/-- `{MemRead(aHi, 1), MemRead(aLo, 1)}`, the low byte read first (R80). -/
def memReadPair (s : State) (aLo aHi : Addr) (t : Int) : Res (Addr × State) := do
  let (lo, s) ← memRead s aLo t
  let (hi, s) ← memRead s aHi t
  pure (word lo hi, s)

/-- `MemRead(addr, 2)`, little-endian (R12, R79). -/
def memRead16 (s : State) (a : Addr) (t : Int) : Res (Addr × State) := memReadPair s a (a + 1) t

/-! ## The stack -/

/-- The stack address `0x0100 | S` (R23). -/
def stackAddr (sp : Byte) : Addr := 0x0100 ||| sp.setWidth 16

/-- The offset in RAM of the stack byte at S (R23: the stack is 0x0100-0x01FF). -/
def stackOffset (sp : Byte) : Nat := 0x100 + sp.toNat

/-- `Push(v)` (R12, R23). -/
def push (s : State) (v : Byte) (t : Int) : Res State := do
  let s ← memWrite s (stackAddr s.sp) v t
  pure { s with sp := s.sp - 1 }

/-- `Pull()` (R12, R23). -/
def pull (s : State) (t : Int) : Res (Byte × State) :=
  let s := { s with sp := s.sp + 1 }
  memRead s (stackAddr s.sp) t

/-- `Push(hi(a)); Push(lo(a))`: the high byte lands at the higher address (R79). -/
def pushWord (s : State) (a : Addr) (t : Int) : Res State := do
  let s ← push s (hiByte a) t
  push s (loByte a) t

/-- `lo <- Pull(); hi <- Pull()` as `{hi, lo}` (R243, R244). -/
def pullWord (s : State) (t : Int) : Res (Addr × State) := do
  let (lo, s) ← pull s t
  let (hi, s) ← pull s t
  pure (word lo hi, s)

/-! ## Retiring an instruction -/

/-- `PC <- PC_next; clock <- t_start + cost` for an instruction of `len` bytes (R24, R132, R135). No data access moves PC or the
clock, so both are still those of the instruction's start. -/
def State.retire (s : State) (len cost : Nat) : State :=
  { s with pc := s.pc + BitVec.ofNat 16 len, clock := s.clock + cost }

/-- `PC <- target; clock <- t_start + cost` for a control transfer (R135). -/
def State.jump (s : State) (target : Addr) (cost : Nat) : State := { s with pc := target, clock := s.clock + cost }

/-- The no-op of a corruption event: `corrupt <- 1`, the warning, PC + 1 and MIN_COST (R137, R138). -/
def corruptionNoop (s : State) (w : Warning) : State :=
  { s.retire 1 minCost with corrupt := true, warning := some w }

/-- What a meaning answers for a result of the operations: a next state, or the fault. -/
def answer (r : Res State) : Host.Outcome State Fault Refusal :=
  match r with
  | .ok s => .next s
  | .error f => .fault f

/-! ## Interrupt entry and return -/

/-- Entry through a vector, shared by BRK (R245, R402) and by IRQ and NMI (R405): push the return address and `PackP(b)`, set I,
load PC from the vector through the memory map. Every access is at time t. -/
def enterInterrupt (s : State) (ret : Addr) (b : Bool) (vector : Addr) (t : Int) : Res State := do
  let s ← pushWord s ret t
  let s ← push s (s.packP b) t
  let (target, s) ← memRead16 { s with i := true } vector t
  pure { s with pc := target }

/-- Return from an interrupt: the status byte, then PC, with no increment (R244, R408). -/
def returnFromInterrupt (s : State) (t : Int) : Res State := do
  let (p, s) ← pull s t
  let (target, s) ← pullWord (s.unpackP p) t
  pure { s with pc := target }

/-- `InterruptPending()` (R144, R403, R404). -/
def State.interruptPending (s : State) : Bool := s.nmiPending || (s.irqLine && !s.i)

/-- `TakeInterrupt()` (R405): NMI before IRQ (R406); taking an NMI clears its latch (R404). -/
def takeInterrupt (s : State) : Res State := do
  let t := s.clock + interruptCost
  let vector := if s.nmiPending then nmiVector else irqVector
  let s ← enterInterrupt { s with nmiPending := false } s.pc false vector t
  pure { s with clock := t }

end Sys2Proof.Machine
end

