-- ==== Sys2Proof/Machine/Operands.lean ====
section
/-! DEFINITION. Every addressing mode, the lengths and base cycle counts of the instructions, and the shapes that instructions share: read,
store, read-modify-write and branch (spec/41_load_store.md R160-R171, spec/40_interpreter.md R132-R142,
spec/70_reset_and_hazards.md R464-R465). -/

namespace Sys2Proof.Machine

/-! ## Effective addresses -/

/-- An effective address, with the page-cross condition that R136 asks about. -/
structure EffAddr where
  addr : Addr
  crossed : Bool
  deriving DecidableEq, Repr

/-- `Crossed(a, b)`: the addresses lie in different 256-byte pages (R142). -/
def crossed (a b : Addr) : Bool := hiByte a != hiByte b

/-- A zero-page address (R105). -/
def zeroPage (z : Byte) : Addr := z.setWidth 16

/-- An address indexed modulo 2^16, with its page-cross condition (R165, R166). -/
def indexed (base : Addr) (index : Byte) : EffAddr :=
  let ea := base + index.setWidth 16
  { addr := ea, crossed := crossed base ea }

/-- A 16-bit pointer in the zero page; its high byte wraps from 0x00FF to 0x0000 (R167, R168). The zero page is RAM, so these
reads have no side effect and `peek` is what `MemRead` answers there (DEDUCED, log entry 19). -/
def zeroPagePointer (s : State) (z : Byte) : Addr := word (s.peek (zeroPage z)) (s.peek (zeroPage (z + 1)))

/-- The effective address of each memory mode (R161-R168). -/
def effAddr (s : State) : MemMode → EffAddr
  | .zp z => { addr := zeroPage z, crossed := false }
  | .zpx z => { addr := zeroPage (z + s.x), crossed := false }
  | .zpy z => { addr := zeroPage (z + s.y), crossed := false }
  | .abs a => { addr := a, crossed := false }
  | .abx a => indexed a s.x
  | .aby a => indexed a s.y
  | .izx z => { addr := zeroPagePointer s (z + s.x), crossed := false }
  | .izy z => indexed (zeroPagePointer s z) s.y

/-- A read-modify-write mode as a memory mode. -/
def rmwToMem : RmwMode → MemMode
  | .zp z => .zp z
  | .zpx z => .zpx z
  | .abs a => .abs a
  | .abx a => .abx a

/-- The effective address of a read-modify-write instruction. -/
def rmwAddr (s : State) (m : RmwMode) : Addr := (effAddr s (rmwToMem m)).addr

/-- `Operand(mode)` at access time t: `b1` for IMM, one `MemRead(EA, 1)` for a memory mode (R171). -/
def operand (s : State) (src : Source) (t : Int) : Res (Byte × State) :=
  match src with
  | .imm v => .ok (v, s)
  | .mem m => memRead s (effAddr s m).addr t

/-- Extra cycles of a reading instruction: 1 if indexing crossed a page in ABX, ABY or IZY (R136). -/
def readExtra (s : State) : Source → Nat
  | .imm _ => 0
  | .mem m => if (effAddr s m).crossed then 1 else 0

/-! ## Lengths and base cycles -/

/-- The length of an instruction with a memory mode (R102, R103). -/
def memLength : MemMode → Nat
  | .zp _ | .zpx _ | .zpy _ | .izx _ | .izy _ => 2
  | .abs _ | .abx _ | .aby _ => 3

/-- The length of a reading instruction. -/
def sourceLength : Source → Nat
  | .imm _ => 2
  | .mem m => memLength m

/-- The length of a shift or rotate. -/
def shiftLength : ShiftOperand → Nat
  | .acc => 1
  | .mem m => memLength (rmwToMem m)

/-- Base cycles of a read by mode (R465). -/
def readCycles : Source → Nat
  | .imm _ => 2
  | .mem (.zp _) => 3
  | .mem (.zpx _) | .mem (.zpy _) | .mem (.abs _) | .mem (.abx _) | .mem (.aby _) => 4
  | .mem (.izx _) => 6
  | .mem (.izy _) => 5

/-- Cycles of a store by mode (R465). -/
def storeCycles : MemMode → Nat
  | .zp _ => 3
  | .zpx _ | .zpy _ | .abs _ => 4
  | .abx _ | .aby _ => 5
  | .izx _ | .izy _ => 6

/-- Cycles of a read-modify-write on memory by mode (R465). -/
def rmwCycles : RmwMode → Nat
  | .zp _ => 5
  | .zpx _ | .abs _ => 6
  | .abx _ => 7

/-- Cycles of a shift or rotate (R465). -/
def shiftCycles : ShiftOperand → Nat
  | .acc => 2
  | .mem m => rmwCycles m

/-- The length of an instruction in bytes: the `length` column (R100, R112). -/
def instrLength : Instr → Nat
  | .lda src | .ldx src | .ldy src => sourceLength src
  | .sta dst | .stx dst | .sty dst => memLength dst
  | .adc src | .sbc src | .and src | .ora src | .eor src | .cmp src | .cpx src | .cpy src => sourceLength src
  | .bit m => memLength m
  | .inc m | .dec m => memLength (rmwToMem m)
  | .asl opd | .lsr opd | .rol opd | .ror opd => shiftLength opd
  | .jmpAbs _ | .jmpInd _ | .jsr _ => 3
  | .bpl _ | .bmi _ | .bvc _ | .bvs _ | .bcc _ | .bcs _ | .bne _ | .beq _ => 2
  | .tax | .tay | .txa | .tya | .tsx | .txs | .pha | .php | .pla | .plp => 1
  | .inx | .iny | .dex | .dey | .rts | .rti | .brk => 1
  | .clc | .sec | .cli | .sei | .clv | .cld | .sed | .nop | .illegal _ => 1

/-- The base cycle count of an instruction: the `cycles` column (R112, R465). -/
def baseCycles : Instr → Nat
  | .lda src | .ldx src | .ldy src => readCycles src
  | .sta dst | .stx dst | .sty dst => storeCycles dst
  | .adc src | .sbc src | .and src | .ora src | .eor src | .cmp src | .cpx src | .cpy src => readCycles src
  | .bit m => readCycles (.mem m)
  | .inc m | .dec m => rmwCycles m
  | .asl opd | .lsr opd | .rol opd | .ror opd => shiftCycles opd
  | .tax | .tay | .txa | .tya | .tsx | .txs => 2
  | .pha | .php => 3
  | .pla | .plp => 4
  | .inx | .iny | .dex | .dey => 2
  | .jmpAbs _ => 3
  | .jmpInd _ => 5
  | .jsr _ | .rts | .rti => 6
  | .brk => 7
  | .bpl _ | .bmi _ | .bvc _ | .bvs _ | .bcc _ | .bcs _ | .bne _ | .beq _ => 2
  | .clc | .sec | .cli | .sei | .clv | .cld | .sed | .nop => 2
  | .illegal _ => minCost

/-- `t_d = t_start + row.cycles`, when an instruction's data accesses happen (R141). -/
def State.dataTime (s : State) (i : Instr) : Int := s.clock + baseCycles i

/-- `PC <- PC_next` and the cost of instruction i with `extra` cycles (R132, R136). -/
def State.retireInstr (s : State) (i : Instr) (extra : Nat) : State :=
  s.retire (instrLength i) (baseCycles i + extra)

/-! ## Shapes of instructions -/

/-- An instruction with registers only: its effect, then PC_next and its base cycles (R169). -/
def impliedInstr (i : Instr) (f : State → State) (s : State) : Res State := .ok ((f s).retireInstr i 0)

/-- A reading instruction: one operand read at t_d, then its effect (R171). The page-cross addition is that of the registers
before the effect (R136). -/
def readInstr (i : Instr) (src : Source) (f : Byte → State → State) (s : State) : Res State := do
  let (m, s') ← operand s src (s.dataTime i)
  pure ((f m s').retireInstr i (readExtra s src))

/-- A store: one write at t_d and a fixed cost (R175-R177). -/
def storeInstr (i : Instr) (dst : MemMode) (v : Byte) (s : State) : Res State := do
  let s ← memWrite s (effAddr s dst).addr v (s.dataTime i)
  pure (s.retireInstr i 0)

/-- A read-modify-write on memory: one read, one write of the result `f old`, both at t_d (R219), then the flags `g old`. -/
def rmwInstr (i : Instr) (m : RmwMode) (f : Byte → Byte) (g : Byte → State → State) (s : State) : Res State := do
  let ea := rmwAddr s m
  let t := s.dataTime i
  let (old, s) ← memRead s ea t
  let s ← memWrite s ea (f old) t
  pure ((g old s).retireInstr i 0)

/-- A branch (R246): relative to PC_next, 1 extra cycle if taken, 1 more if it leaves PC_next's 256-byte page. -/
def branchInstr (i : Instr) (cond : Bool) (rel : Byte) (s : State) : Res State :=
  if cond then
    let next := s.pc + BitVec.ofNat 16 (instrLength i)
    let target := next + rel.signExtend 16
    .ok (s.jump target (baseCycles i + 1 + (if crossed next target then 1 else 0)))
  else .ok (s.retireInstr i 0)

end Sys2Proof.Machine
end

