-- ==== Sys2Proof/Machine/ArithLogic.lean ====
section
/-! DEFINITION. Arithmetic, logic, compare, increment, decrement, shifts and rotates (spec/42_arith_logic.md R200-R221). -/

namespace Sys2Proof.Machine

/-! ## Add and subtract -/

/-- The shape of ADC and SBC: `DECIMAL_MODE = refused` stops an instruction executed with D = 1 (R221); otherwise the sum is
binary whatever D is, and A, C, V, N and Z take it (R200, R201). -/
def addInstr (i : Instr) (src : Source) (sum : Byte → Byte → Bool → AluOut) (s : State) : Res State :=
  if s.params.decimal = .refused ∧ s.d then .error .decimalUnmodelled
  else
    readInstr i src (fun m s =>
      let r := sum s.a m s.c
      { s with a := r.value, c := r.carry, v := r.overflow }.setNZ r.value) s

/-- ADC (R200). -/
def execAdc (src : Source) (s : State) : Host.Outcome State Fault Refusal := answer (addInstr (.adc src) src addCarry s)

/-- SBC (R201). -/
def execSbc (src : Source) (s : State) : Host.Outcome State Fault Refusal := answer (addInstr (.sbc src) src subBorrow s)

/-! ## Logic -/

/-- AND (R202). -/
def execAnd (src : Source) (s : State) : Host.Outcome State Fault Refusal :=
  answer (readInstr (.and src) src (fun m s => { s with a := s.a &&& m }.setNZ (s.a &&& m)) s)

/-- ORA (R203). -/
def execOra (src : Source) (s : State) : Host.Outcome State Fault Refusal :=
  answer (readInstr (.ora src) src (fun m s => { s with a := s.a ||| m }.setNZ (s.a ||| m)) s)

/-- EOR (R204). -/
def execEor (src : Source) (s : State) : Host.Outcome State Fault Refusal :=
  answer (readInstr (.eor src) src (fun m s => { s with a := s.a ^^^ m }.setNZ (s.a ^^^ m)) s)

/-- BIT (R208). -/
def execBit (m : MemMode) (s : State) : Host.Outcome State Fault Refusal :=
  answer (readInstr (.bit m) (.mem m) (fun v s => s.testBits s.a v) s)

/-! ## Compare -/

/-- CMP (R205). -/
def execCmp (src : Source) (s : State) : Host.Outcome State Fault Refusal :=
  answer (readInstr (.cmp src) src (fun m s => s.compare s.a m) s)

/-- CPX (R206). -/
def execCpx (src : Source) (s : State) : Host.Outcome State Fault Refusal :=
  answer (readInstr (.cpx src) src (fun m s => s.compare s.x m) s)

/-- CPY (R207). -/
def execCpy (src : Source) (s : State) : Host.Outcome State Fault Refusal :=
  answer (readInstr (.cpy src) src (fun m s => s.compare s.y m) s)

/-! ## Increment and decrement -/

/-- INC (R209). -/
def execInc (m : RmwMode) (s : State) : Host.Outcome State Fault Refusal :=
  answer (rmwInstr (.inc m) m (fun old => old + 1) (fun old s => s.setNZ (old + 1)) s)

/-- DEC (R210). -/
def execDec (m : RmwMode) (s : State) : Host.Outcome State Fault Refusal :=
  answer (rmwInstr (.dec m) m (fun old => old - 1) (fun old s => s.setNZ (old - 1)) s)

/-- INX (R211). -/
def execInx (s : State) : Host.Outcome State Fault Refusal :=
  answer (impliedInstr .inx (fun s => { s with x := s.x + 1 }.setNZ (s.x + 1)) s)

/-- INY (R212). -/
def execIny (s : State) : Host.Outcome State Fault Refusal :=
  answer (impliedInstr .iny (fun s => { s with y := s.y + 1 }.setNZ (s.y + 1)) s)

/-- DEX (R213). -/
def execDex (s : State) : Host.Outcome State Fault Refusal :=
  answer (impliedInstr .dex (fun s => { s with x := s.x - 1 }.setNZ (s.x - 1)) s)

/-- DEY (R214). -/
def execDey (s : State) : Host.Outcome State Fault Refusal :=
  answer (impliedInstr .dey (fun s => { s with y := s.y - 1 }.setNZ (s.y - 1)) s)

/-! ## Shifts and rotates -/

/-- The flags of a shift or rotate with result and carry `r` (R215-R218). -/
def shiftFlags (r : Byte × Bool) (s : State) : State := { s with c := r.2 }.setNZ r.1

/-- A shift or rotate of A (R169) or of memory (R219). The carry shifted in is the one before the instruction. -/
def shiftInstr (i : Instr) (opd : ShiftOperand) (f : Byte → Bool → Byte × Bool) (s : State) : Res State :=
  match opd with
  | .acc => impliedInstr i (fun s => shiftFlags (f s.a s.c) { s with a := (f s.a s.c).1 }) s
  | .mem m => rmwInstr i m (fun old => (f old s.c).1) (fun old => shiftFlags (f old s.c)) s

/-- ASL (R215). -/
def execAsl (opd : ShiftOperand) (s : State) : Host.Outcome State Fault Refusal := answer (shiftInstr (.asl opd) opd aslOut s)

/-- LSR (R216). -/
def execLsr (opd : ShiftOperand) (s : State) : Host.Outcome State Fault Refusal := answer (shiftInstr (.lsr opd) opd lsrOut s)

/-- ROL (R217). -/
def execRol (opd : ShiftOperand) (s : State) : Host.Outcome State Fault Refusal := answer (shiftInstr (.rol opd) opd rolOut s)

/-- ROR (R218). -/
def execRor (opd : ShiftOperand) (s : State) : Host.Outcome State Fault Refusal := answer (shiftInstr (.ror opd) opd rorOut s)

end Sys2Proof.Machine
end

