-- ==== Sys2Proof/Machine/Control.lean ====
section
/-! DEFINITION. Jumps, calls, returns, BRK, branches, flag instructions, NOP and the illegal opcodes
(spec/43_control_flags.md R240-R264, spec/40_interpreter.md R137). -/

namespace Sys2Proof.Machine

/-! ## Jumps, calls and returns -/

/-- JMP absolute (R240). -/
def execJmpAbs (target : Addr) (s : State) : Host.Outcome State Fault Refusal :=
  answer (.ok (s.jump target (baseCycles (.jmpAbs target))))

/-- The address of an indirect jump's high byte: the next address within the same 256-byte page (R241). -/
def jmpIndHigh (ptr : Addr) : Addr := (ptr &&& 0xFF00) ||| ((ptr + 1) &&& 0x00FF)

/-- JMP indirect (R241). -/
def execJmpInd (ptr : Addr) (s : State) : Host.Outcome State Fault Refusal :=
  answer (do
    let (target, s') ← memReadPair s ptr (jmpIndHigh ptr) (s.dataTime (.jmpInd ptr))
    pure (s'.jump target (baseCycles (.jmpInd ptr))))

/-- JSR: the pushed address is that of its own last byte (R242). -/
def execJsr (target : Addr) (s : State) : Host.Outcome State Fault Refusal :=
  answer (do
    let s' ← pushWord s (s.pc + 2) (s.dataTime (.jsr target))
    pure (s'.jump target (baseCycles (.jsr target))))

/-- RTS: the pulled address plus one (R243). -/
def execRts (s : State) : Host.Outcome State Fault Refusal :=
  answer (do
    let (ret, s') ← pullWord s (s.dataTime .rts)
    pure (s'.jump (ret + 1) (baseCycles .rts)))

/-- RTI (R244, R408). -/
def execRti (s : State) : Host.Outcome State Fault Refusal :=
  answer (do
    let s' ← returnFromInterrupt s (s.dataTime .rti)
    pure (s'.jump s'.pc (baseCycles .rti)))

/-- BRK: the byte after the opcode is skipped as padding (R245, R402). -/
def execBrk (s : State) : Host.Outcome State Fault Refusal :=
  answer (do
    let s' ← enterInterrupt s (s.pc + 2) true irqVector (s.dataTime .brk)
    pure (s'.jump s'.pc (baseCycles .brk)))

/-! ## Branches -/

/-- BPL (R247). -/
def execBpl (rel : Byte) (s : State) : Host.Outcome State Fault Refusal := answer (branchInstr (.bpl rel) (!s.n) rel s)

/-- BMI (R248). -/
def execBmi (rel : Byte) (s : State) : Host.Outcome State Fault Refusal := answer (branchInstr (.bmi rel) s.n rel s)

/-- BVC (R249). -/
def execBvc (rel : Byte) (s : State) : Host.Outcome State Fault Refusal := answer (branchInstr (.bvc rel) (!s.v) rel s)

/-- BVS (R250). -/
def execBvs (rel : Byte) (s : State) : Host.Outcome State Fault Refusal := answer (branchInstr (.bvs rel) s.v rel s)

/-- BCC (R251). -/
def execBcc (rel : Byte) (s : State) : Host.Outcome State Fault Refusal := answer (branchInstr (.bcc rel) (!s.c) rel s)

/-- BCS (R252). -/
def execBcs (rel : Byte) (s : State) : Host.Outcome State Fault Refusal := answer (branchInstr (.bcs rel) s.c rel s)

/-- BNE (R253). -/
def execBne (rel : Byte) (s : State) : Host.Outcome State Fault Refusal := answer (branchInstr (.bne rel) (!s.z) rel s)

/-- BEQ (R254). -/
def execBeq (rel : Byte) (s : State) : Host.Outcome State Fault Refusal := answer (branchInstr (.beq rel) s.z rel s)

/-! ## Flag instructions, NOP and the illegal opcodes -/

/-- CLC (R255). -/
def execClc (s : State) : Host.Outcome State Fault Refusal := answer (impliedInstr .clc (fun s => { s with c := false }) s)

/-- SEC (R256). -/
def execSec (s : State) : Host.Outcome State Fault Refusal := answer (impliedInstr .sec (fun s => { s with c := true }) s)

/-- CLI (R257). -/
def execCli (s : State) : Host.Outcome State Fault Refusal := answer (impliedInstr .cli (fun s => { s with i := false }) s)

/-- SEI (R258). -/
def execSei (s : State) : Host.Outcome State Fault Refusal := answer (impliedInstr .sei (fun s => { s with i := true }) s)

/-- CLV (R259). -/
def execClv (s : State) : Host.Outcome State Fault Refusal := answer (impliedInstr .clv (fun s => { s with v := false }) s)

/-- CLD (R260). -/
def execCld (s : State) : Host.Outcome State Fault Refusal := answer (impliedInstr .cld (fun s => { s with d := false }) s)

/-- SED (R261). -/
def execSed (s : State) : Host.Outcome State Fault Refusal := answer (impliedInstr .sed (fun s => { s with d := true }) s)

/-- NOP (R262). -/
def execNop (s : State) : Host.Outcome State Fault Refusal := answer (impliedInstr .nop (fun s => s) s)

/-- An illegal opcode: the no-op of minimal cost that sets `corrupt` (R137). The opcode's value makes no difference. -/
def execIllegal (_op : Byte) (s : State) : Host.Outcome State Fault Refusal := answer (.ok (corruptionNoop s .illegalOpcode))

end Sys2Proof.Machine
end

