-- ==== Sys2Proof/Machine/LoadStore.lean ====
section
/-! DEFINITION. Loads, stores, register transfers and stack operations (spec/41_load_store.md R172-R187). -/

namespace Sys2Proof.Machine

/-! ## Loads -/

/-- LDA (R172). -/
def execLda (src : Source) (s : State) : Host.Outcome State Fault Refusal :=
  answer (readInstr (.lda src) src (fun m s => { s with a := m }.setNZ m) s)

/-- LDX (R173). -/
def execLdx (src : Source) (s : State) : Host.Outcome State Fault Refusal :=
  answer (readInstr (.ldx src) src (fun m s => { s with x := m }.setNZ m) s)

/-- LDY (R174). -/
def execLdy (src : Source) (s : State) : Host.Outcome State Fault Refusal :=
  answer (readInstr (.ldy src) src (fun m s => { s with y := m }.setNZ m) s)

/-! ## Stores -/

/-- STA (R175). -/
def execSta (dst : MemMode) (s : State) : Host.Outcome State Fault Refusal := answer (storeInstr (.sta dst) dst s.a s)

/-- STX (R176). -/
def execStx (dst : MemMode) (s : State) : Host.Outcome State Fault Refusal := answer (storeInstr (.stx dst) dst s.x s)

/-- STY (R177). -/
def execSty (dst : MemMode) (s : State) : Host.Outcome State Fault Refusal := answer (storeInstr (.sty dst) dst s.y s)

/-! ## Transfers -/

/-- TAX (R178). -/
def execTax (s : State) : Host.Outcome State Fault Refusal :=
  answer (impliedInstr .tax (fun s => { s with x := s.a }.setNZ s.a) s)

/-- TAY (R179). -/
def execTay (s : State) : Host.Outcome State Fault Refusal :=
  answer (impliedInstr .tay (fun s => { s with y := s.a }.setNZ s.a) s)

/-- TXA (R180). -/
def execTxa (s : State) : Host.Outcome State Fault Refusal :=
  answer (impliedInstr .txa (fun s => { s with a := s.x }.setNZ s.x) s)

/-- TYA (R181). -/
def execTya (s : State) : Host.Outcome State Fault Refusal :=
  answer (impliedInstr .tya (fun s => { s with a := s.y }.setNZ s.y) s)

/-- TSX (R182). -/
def execTsx (s : State) : Host.Outcome State Fault Refusal :=
  answer (impliedInstr .tsx (fun s => { s with x := s.sp }.setNZ s.sp) s)

/-- TXS, the one transfer that sets no flag (R183). -/
def execTxs (s : State) : Host.Outcome State Fault Refusal :=
  answer (impliedInstr .txs (fun s => { s with sp := s.x }) s)

/-! ## Stack -/

/-- PHA (R184). -/
def execPha (s : State) : Host.Outcome State Fault Refusal :=
  answer (do
    let s' ← push s s.a (s.dataTime .pha)
    pure (s'.retireInstr .pha 0))

/-- PHP: bits 5 and 4 of the pushed byte are 1 (R185). -/
def execPhp (s : State) : Host.Outcome State Fault Refusal :=
  answer (do
    let s' ← push s (s.packP true) (s.dataTime .php)
    pure (s'.retireInstr .php 0))

/-- PLA (R186). -/
def execPla (s : State) : Host.Outcome State Fault Refusal :=
  answer (do
    let (m, s') ← pull s (s.dataTime .pla)
    pure (({ s' with a := m }.setNZ m).retireInstr .pla 0))

/-- PLP (R187). -/
def execPlp (s : State) : Host.Outcome State Fault Refusal :=
  answer (do
    let (p, s') ← pull s (s.dataTime .plp)
    pure ((s'.unpackP p).retireInstr .plp 0))

end Sys2Proof.Machine
end

