-- ==== Sys2Proof/Machine/Interp.lean ====
section
/-! DEFINITION. The CPU Core's run loop (spec/40_interpreter.md R130-R145): fetching an instruction's bytes, executing exactly one
instruction, what happens at an instruction boundary, and `run`. -/

namespace Sys2Proof.Machine

/-- What the machine answers, with the state wrapped in something. -/
abbrev Answer (α : Type) := Host.Outcome α Fault Refusal

/-- Go on with a next value; a fault or a refusal stands. -/
def andThen {α β : Type} (o : Answer α) (f : α → Answer β) : Answer β :=
  match o with
  | .next x => f x
  | .fault r => .fault r
  | .refused r => .refused r

/-- What the fetch at PC finds (R132). -/
inductive Fetched where
  /-- An instruction to execute; an illegal opcode is one (R137). -/
  | instr (i : Instr)
  /-- A documented opcode whose bytes or sequential successor would pass 0xFFFF (R138). -/
  | wrapped
  deriving DecidableEq, Repr

/-- The operand byte number k of an instruction of `len` bytes at PC, fetched only if the instruction has it (R132). -/
def fetchOperand (s : State) (k len : Nat) (pc : Addr) (t : Int) : Res (Byte × State) :=
  if k < len then memRead s (pc + BitVec.ofNat 16 k) t else .ok (0x00, s)

/-- The fetch of R132: the opcode at PC, then, unless the opcode is illegal or the instruction would wrap, its operand bytes in
rising order, all at t_start and before any data access (R133, R141). An illegal opcode is found before a wrap (R406). -/
def fetch (s : State) : Res (Fetched × State) := do
  let pc := s.pc
  let t := s.clock
  let (op, s) ← memRead s pc t
  match opcodeRow op with
  | none => pure (.instr (.illegal op), s)
  | some row =>
    if pc.toNat + row.length ≥ 0x10000 then pure (.wrapped, s)
    else do
      let (b1, s) ← fetchOperand s 1 row.length pc t
      let (b2, s) ← fetchOperand s 2 row.length pc t
      pure (.instr (row.make b1 b2), s)

/-- The result of `Step()` (R132). -/
inductive StepResult where
  | ok
  | illegal
  | wrap
  deriving DecidableEq, Repr

/-- The result that goes with an executed instruction: `Illegal` for an illegal opcode, else `Ok` (R132, R137). -/
def resultOf : Instr → StepResult
  | .illegal _ => .illegal
  | _ => .ok

/-- `Step()`: exactly one instruction (R132), the illegal-opcode no-op (R137) or the wrap no-op (R138). -/
def cpuStep (s : State) : Answer (StepResult × State) :=
  match fetch s with
  | .error f => .fault f
  | .ok (.wrapped, s) => .next (.wrap, corruptionNoop s .pcWrap)
  | .ok (.instr i, s) => andThen (exec i s) fun s => .next (resultOf i, s)

/-- The results of `run` (R130). -/
inductive RunResult where
  | reached
  | idle
  | illegal
  | wrap
  | interrupt
  deriving DecidableEq, Repr

/-- Whether the clock has come to `end_clock`; `none` is +∞ (R131, R354). -/
def reachedEnd (s : State) : Option Int → Bool
  | none => false
  | some e => decide (s.clock ≥ e)

/-- The end of a run that a step's result asks for (R131). -/
def endOfStep : StepResult → Option RunResult
  | .ok => none
  | .illegal => some .illegal
  | .wrap => some .wrap

/-- One turn of the run loop (R131), with the checks in R406's order: idle, end clock, interrupt, instruction. It answers the
result if `run` returns here, and `none` if the loop goes on. Before the first start_track there is no register to read
(R46). -/
def boundary (endClock : Option Int) (s : State) : Answer (Option RunResult × State) :=
  if s.mode = .idle then .fault .unstarted
  else if s.pc = idleAddr then .next (some .idle, s)
  else if reachedEnd s endClock then .next (some .reached, s)
  else if s.interruptPending then andThen (answer (takeInterrupt s)) fun s => .next (some .interrupt, s)
  else andThen (cpuStep s) fun r => .next (endOfStep r.1, r.2)

/-- `run(end_clock)` (R130, R131) for at most `fuel` turns of its loop; `none` if it has not returned by then. A run that never
returns is a divergence, for which no fuel is enough (R354). -/
def run : Nat → Option Int → State → Answer (Option RunResult × State)
  | 0, _, s => .next (none, s)
  | fuel + 1, endClock, s =>
    andThen (boundary endClock s) fun r =>
      match r.1 with
      | some result => .next (some result, r.2)
      | none => run fuel endClock r.2

end Sys2Proof.Machine
end

