-- ==== Sys2Proof/Machine/Coordinator.lean ====
section
/-! DEFINITION. The Platform Timing Coordinator and the host calls (spec/46_coordinator.md R350-R369, spec/70_reset_and_hazards.md R450-R457),
cut into single transitions: one transition is one turn of the innermost loop that R354, R355 or R368 writes, so an
instruction, an interrupt entry, a play entry, an idle advance and a frame boundary are one transition each. -/

namespace Sys2Proof.Machine

/-! ## Tempo -/

/-- `Period(tempo) = max(1, floor(BASE_PLAY_PERIOD / tempo))` (R361). -/
def period (base : Nat) (tempo : Rat) : Nat := max 1 ⌊(base : Rat) / tempo⌋.toNat

/-- `clamp(t, 0.02, 4.0)` (R362). -/
def clampTempo (t : Rat) : Rat := max (1 / 50) (min 4 t)

/-- `set_tempo(t)` (R362). -/
def setTempo (s : State) (t : Rat) : State :=
  { s with tempo := clampTempo t, playPeriod := period s.header.basePlayPeriod (clampTempo t) }

/-! ## start_track -/

/-- `open(file)` (R450): mode Idle, tempo 1, no sample rate, no warning, the resident image. Every other component has no value
until the first start_track (R46); what stands there is never read, because `boundary` stops first (DESIGN CHOICE, log
entry 8). -/
def openFile (header : Header) (rom : Memory) (params : Params) : State :=
  { a := 0x00, x := 0x00, y := 0x00, sp := 0x00, pc := 0x0000
    n := false, v := false, d := false, i := false, z := false, c := false
    clock := 0, corrupt := false, warning := none, irqLine := false, nmiPending := false
    ram := [], sram := [], rom := rom, bank := header.bankInit
    sound := freshSound (chipOf params.chip)
    mode := .idle, inRoutine := none, nextPlay := 0, playPeriod := 1, tempo := 1, mute := 0, track := 0
    rateSet := false, sampleRate := 1, header := header, params := params
    activity := .waiting, calls := [], answers := [], apuLog := [] }

/-- RAM cleared to 0x00, then with the loader's file data in it (R452, D39). The data's form is a DESIGN CHOICE (log entry 21), and
so is that, of two pairs that name one offset, the one listed first stands. -/
def loadedRam : List Host.Cell → Memory
  | [] => []
  | (o, v) :: cells => if o < ramSize then (loadedRam cells).write o v else loadedRam cells

/-- Steps 1-3 of `start_track(n)` (R352): CPU, memory with the loader's RAM data (R452), bank registers, APU and buffer. A latched
NMI does not survive either, by R352's last words; the level of IRQ_LINE is an input and stays (DEDUCED, log entry 25: R44's
table lists neither). -/
def resetMachine (s : State) (n : Nat) : State :=
  { s with
    a := BitVec.ofNat 8 n, x := region, y := 0x00, sp := 0xFF
    n := false, v := false, d := false, z := false, c := false, i := true
    clock := 0, corrupt := false, warning := none, nmiPending := false
    ram := loadedRam s.header.ramData, sram := [], bank := s.header.bankInit
    sound := freshSound (chipOf s.params.chip) }

/-- Push the sentinel return address `IDLE_ADDR - 1`, high byte first, at t_acc = clock (R353). -/
def pushSentinel (s : State) : Res State := pushWord s (idleAddr - 1) s.clock

/-- Steps 5 and 6 of `start_track(n)` (R352): entry point and Coordinator. -/
def enterInit (s : State) (n : Nat) : State :=
  { s with
    pc := s.header.initAddr, track := n, mute := 0, sound := setOutputs 0 s.sound
    playPeriod := period s.header.basePlayPeriod s.tempo, nextPlay := 0
    inRoutine := some .init, mode := .trackStarted }

/-- Steps 1-6 of `start_track(n)` (R352). -/
def startTrackSteps (s : State) (n : Nat) : Res State := do
  let s ← pushSentinel (resetMachine s n)
  pure (enterInit s n)

/-! ## Answering the host -/

/-- End the host call in progress with an answer. -/
def State.finish (s : State) (a : HostAnswer) : State := { s with activity := .waiting, answers := s.answers ++ [a] }

/-- `start_track(n)`: its preconditions, then steps 1-6, then on to `RunInit` (R352, R365, R366). -/
def startTrack (s : State) (n : Nat) : Res State :=
  if s.rateSet = false then .ok (s.finish (.error (.misuse .sampleRateUnset)))
  else if n ≥ s.header.trackCount ∨ n > 255 then .ok (s.finish (.error .badTrack))
  else do
    let s ← startTrackSteps s n
    pure { s with activity := .initRun }

/-- `set_sample_rate(rate)` (R365). -/
def setSampleRate (s : State) (rate : ℕ+) : State :=
  if s.rateSet then s.finish (.error (.misuse .sampleRateTwice))
  else { s with sampleRate := rate, rateSet := true }.finish .ok

/-- The mute mask with bit i set to `on`. -/
def setMaskBit (mask i : Nat) (on : Bool) : Nat := if mask.testBit i = on then mask else mask ^^^ 2 ^ i

/-- `mute_voice(i, on)` (R366). -/
def muteVoice (s : State) (i : Nat) (on : Bool) : State :=
  if i < (chipOf s.params.chip).voices then { s with mute := setMaskBit s.mute i on }.finish .ok
  else s.finish (.error .badVoice)

/-! ## end_frame -/

/-- The beginning of `end_frame(T)` after its mode check (R355): mode Running, and the mute mask takes effect (R334). -/
def beginFrame (s : State) (length : ℕ+) (need : Option Nat) : State :=
  { s with mode := .running, sound := setOutputs s.mute s.sound, activity := .frame length need }

/-- `end_frame(T)` called by the host (R355, R365). -/
def endFrame (s : State) (length : ℕ+) : State :=
  if s.mode = .idle then s.finish (.error (.misuse .playBeforeStart)) else beginFrame s length none

/-- `PlayEntry()` (R357), with R359's clamp and warning for an entry late by a whole period or more. It reads S, which has no
value before the first start_track (R46). -/
def playEntry (s : State) : Res State :=
  if s.mode = .idle then .error .unstarted
  else do
    let next := s.nextPlay + s.playPeriod
    let late := decide (next ≤ s.clock)
    let s ← pushSentinel
      { s with
        nextPlay := if late then s.clock + s.playPeriod else next
        warning := if late then some .playOverrun else s.warning }
    pure { s with pc := s.header.playAddr, inRoutine := some .play }

/-- The idle advance `clock <- min(next_play, T)` (R356). -/
def idleAdvance (s : State) (length : ℕ+) : State := { s with clock := min s.nextPlay ((length : Nat) : Int) }

/-- `Rebase(T)` (R358). A play time that has passed while its predecessor still runs is negative after it, as R358's subtraction
makes it, and stays so until the late entry (DEDUCED, log entry 26: R14 has frame-relative times negative only transiently). -/
def rebase (s : State) (length : ℕ+) : Res State := do
  let t : Int := ((length : Nat) : Int)
  let w ← apuEndFrame s.soundEnv t s.sound
  pure { s with clock := s.clock - t, nextPlay := s.nextPlay - t, sound := w }

/-- The end of `end_frame(T)` (R355): the rebase, mode FrameBoundary, and the answer, or back into `play`. -/
def leaveFrame (s : State) (length : ℕ+) (need : Option Nat) : Res State := do
  let s ← rebase s length
  let s := { s with mode := .frameBoundary }
  match need with
  | none => pure (s.finish .ok)
  | some k => pure { s with activity := .playLoop k }

/-- What the Coordinator does when `run` has found the CPU idle: init's return sets the first play entry (R354, R355). -/
def routineReturned (s : State) : State :=
  { s with nextPlay := if s.inRoutine = some .init then s.clock else s.nextPlay, inRoutine := none }

/-- One turn of `end_frame`'s loop (R355). An interrupt entry, which cannot occur on this platform (R144), lets the loop go on
(DESIGN CHOICE, log entry 9). -/
def frameTurn (s : State) (length : ℕ+) (need : Option Nat) : Answer State :=
  if s.inRoutine = none then
    if s.clock ≥ ((length : Nat) : Int) then answer (leaveFrame s length need)
    else if s.nextPlay ≤ s.clock then answer (playEntry s)
    else .next (idleAdvance s length)
  else
    andThen (boundary (some ((length : Nat) : Int)) s) fun r =>
      match r.1 with
      | some .reached => answer (leaveFrame r.2 length need)
      | some .idle => .next (routineReturned r.2)
      | some .illegal | some .wrap | some .interrupt | none => .next r.2

/-- One turn of `RunInit` (R354): the routine's return, a finite INIT_LIMIT reached, or one boundary of the run. -/
def initTurn (s : State) : Answer State :=
  andThen (boundary s.params.initLimit s) fun r =>
    match r.1 with
    | some .idle => .next ({ r.2 with inRoutine := none, nextPlay := r.2.clock }.finish .ok)
    | some .reached => .next ({ r.2 with warning := some .initTimeout }.finish .ok)
    | some .illegal | some .wrap | some .interrupt | none => .next r.2

/-! ## play -/

/-- `play(count)`: its preconditions, then on to its loop (R368, R365). The count is checked first (DEDUCED, log entry 20). -/
def play (s : State) (count : Int) : State :=
  if count < 0 ∨ count % 2 ≠ 0 then s.finish (.error (.misuse .oddCount))
  else if s.mode = .idle then s.finish (.error (.misuse .playBeforeStart))
  else { s with activity := .playLoop (count / 2).toNat }

/-- `target = min(need, avail + FRAME_SAMPLES)` (R368). -/
def frameTarget (s : State) (need : Nat) : Nat := min need (s.sound.avail + (s.params.frameSamples : Nat))

/-- `T = max(1, ceil((target - origin) / F))`, the least frame that confirms the target (R368). -/
def frameLength (s : State) (target : Nat) : ℕ+ := ⌈((target : Rat) - s.sound.origin) / s.ratio⌉.toNat.toPNat'

/-- One turn of `play`'s while loop (R368): one more frame, or the samples. -/
def playTurn (s : State) (need : Nat) : Res State :=
  if s.sound.avail < need then pure (beginFrame s (frameLength s (frameTarget s need)) (some need))
  else do
    let (pcm, w) ← readSamples s.params.gain need s.sound
    pure ({ s with sound := w }.finish (.samples pcm))

/-! ## The block -/

/-- Take a host call (R351). -/
def hostCall (s : State) : HostCall → Res State
  | .setSampleRate rate => .ok (setSampleRate s rate)
  | .startTrack n => startTrack s n
  | .endFrame length => .ok (endFrame s length)
  | .play count => .ok (play s count)
  | .setTempo t => .ok ((setTempo s t).finish .ok)
  | .muteVoice i on => .ok (muteVoice s i on)
  | .warning => .ok (s.finish (.warning s.warning))

/-- With no call in progress: take the oldest host call, or, if there is none, wait for one. -/
def waitTurn (s : State) : Answer State :=
  match s.calls with
  | [] => .next s
  | call :: rest => answer (hostCall { s with calls := rest } call)

/-- One transition of the block: the next turn of the call in progress. -/
def blockStep (s : State) : Answer State :=
  match s.activity with
  | .waiting => waitTurn s
  | .initRun => initTurn s
  | .frame length need => frameTurn s length need
  | .playLoop need => answer (playTurn s need)

/-! ## Placing an instruction -/

/-- Store a byte where an address reads from, ROM included: what a loader does, not an access of the machine. -/
def poke (s : State) (a : Addr) (v : Byte) : State :=
  match locate s a with
  | some (.ram, o) => { s with ram := s.ram.write o v }
  | some (.sram, o) => { s with sram := s.sram.write o v }
  | some (.rom, o) => { s with rom := s.rom.write o v }
  | none => s

/-- Store bytes at rising addresses from `a` on. -/
def pokeBytes (s : State) (a : Addr) : List Byte → State
  | [] => s
  | b :: bs => pokeBytes (poke s a b) (a + 1) bs

/-- Whether an address is backed by a byte of a region. -/
def backed (s : State) (a : Addr) : Bool :=
  match locate s a with
  | some (r, o) => decide (o < regionSize s r)
  | none => false

/-- Whether the next step fetches an instruction at PC, from three bytes that a loader can store. -/
def fetchesNext (s : State) : Bool :=
  decide (s.activity = .initRun) && decide (s.params.initLimit = none) && decide (s.mode ≠ .idle) &&
    !s.interruptPending && decide (s.pc ≠ idleAddr) && decide (s.pc.toNat + 3 < 0x10000) &&
    backed s s.pc && backed s (s.pc + 1) && backed s (s.pc + 2)

/-- The state made to fetch next: as it is if it already does; else in an unlimited init run with PC in RAM and no interrupt
pending. -/
def readyToFetch (s : State) : State :=
  if fetchesNext s then s
  else
    { s with
      activity := .initRun, params := { s.params with initLimit := none }, mode := .trackStarted, inRoutine := some .init
      irqLine := false, nmiPending := false, pc := 0x0200 }

end Sys2Proof.Machine
end

