-- ==== Sys2Proof/Machine/Step.lean ====
section
/-! DEFINITION. The step of the block (`Machine/Coordinator.lean` says what a step is), and an instruction placed where the next
step fetches. -/

namespace Sys2Proof.Machine

/-- One step of the block (spec/00_scope.md R7: one sequential step relation). -/
def step (s : State) : Host.Outcome State Fault Refusal := blockStep s

/-- The state with a table word's instruction stored where the next step fetches. -/
def State.withFetchWord (s : State) (nbits w : Nat) : State :=
  let r := readyToFetch s
  pokeBytes r r.pc (tableBytes nbits w)

end Sys2Proof.Machine
end

