-- ==== Sys2Proof/Safety.lean ====
section
/-! DEFINITION. What claims about the block are stated in: when a step executes an instruction, which addresses an instruction
stores to, which registers and flags the rules let it write, and the invariants of a run. -/

namespace Sys2Proof.Machine

/-! ## Running -/

/-- The next step executes the instruction at PC, if no wrap is found there: the CPU runs in the init routine or inside a
frame, PC is not the sentinel, the end clock is not reached and no interrupt is pending (R131). -/
def Ready (s : State) : Prop :=
  s.mode ≠ .idle ∧ s.pc ≠ idleAddr ∧ s.interruptPending = false ∧
    ((s.activity = .initRun ∧ reachedEnd s s.params.initLimit = false) ∨
      ∃ length need, s.activity = .frame length need ∧ s.inRoutine ≠ none ∧ s.clock < ((length : Nat) : Int))

/-- A run is safe at a state if its next step is no fault and no refusal. -/
def SafeStep (s : State) : Prop := ∃ s', step s = .next s'

/-! ## What an instruction may write -/

/-- The addresses an instruction stores to, from the state before it: a destination operand, or the stack bytes it pushes. -/
def storedTo (s : State) : Instr → List Addr
  | .sta dst => [(effAddr s dst).addr]
  | .stx dst => [(effAddr s dst).addr]
  | .sty dst => [(effAddr s dst).addr]
  | .inc m => [rmwAddr s m]
  | .dec m => [rmwAddr s m]
  | .asl (.mem m) => [rmwAddr s m]
  | .lsr (.mem m) => [rmwAddr s m]
  | .rol (.mem m) => [rmwAddr s m]
  | .ror (.mem m) => [rmwAddr s m]
  | .pha => [stackAddr s.sp]
  | .php => [stackAddr s.sp]
  | .jsr _ => [stackAddr s.sp, stackAddr (s.sp - 1)]
  | .brk => [stackAddr s.sp, stackAddr (s.sp - 1), stackAddr (s.sp - 2)]
  | _ => []

/-- The addresses an instruction reads its data from, from the state before it. -/
def readFrom (s : State) : Instr → List Addr
  | .lda (.mem m) => [(effAddr s m).addr]
  | .ldx (.mem m) => [(effAddr s m).addr]
  | .ldy (.mem m) => [(effAddr s m).addr]
  | .adc (.mem m) => [(effAddr s m).addr]
  | .sbc (.mem m) => [(effAddr s m).addr]
  | .and (.mem m) => [(effAddr s m).addr]
  | .ora (.mem m) => [(effAddr s m).addr]
  | .eor (.mem m) => [(effAddr s m).addr]
  | .bit m => [(effAddr s m).addr]
  | .cmp (.mem m) => [(effAddr s m).addr]
  | .cpx (.mem m) => [(effAddr s m).addr]
  | .cpy (.mem m) => [(effAddr s m).addr]
  | .inc m => [rmwAddr s m]
  | .dec m => [rmwAddr s m]
  | .asl (.mem m) => [rmwAddr s m]
  | .lsr (.mem m) => [rmwAddr s m]
  | .rol (.mem m) => [rmwAddr s m]
  | .ror (.mem m) => [rmwAddr s m]
  | .jmpInd p => [p, jmpIndHigh p]
  | .pla => [stackAddr (s.sp + 1)]
  | .plp => [stackAddr (s.sp + 1)]
  | .rts => [stackAddr (s.sp + 1), stackAddr (s.sp + 2)]
  | .rti => [stackAddr (s.sp + 1), stackAddr (s.sp + 2), stackAddr (s.sp + 3)]
  | .brk => [irqVector, irqVector + 1]
  | _ => []

/-- Two addresses reach one byte of RAM or SRAM (R67, R68). -/
def sameCell (a b : Addr) : Bool :=
  (decide (a.toNat < 0x2000) && decide (b.toNat < 0x2000) && decide (a.toNat % 0x800 = b.toNat % 0x800)) ||
    (decide (0x6000 ≤ a.toNat) && decide (a.toNat < 0x8000) && decide (a = b))

/-- Address a is a bank register, and address b lies in its window (R69, R70). -/
def inWindowOf (a b : Addr) : Bool :=
  isBankRegister a && decide (0x8000 ≤ b.toNat) && decide ((b.toNat - 0x8000) / 0x1000 = a.toNat - 0x5FF8)

/-- The instructions that write N and Z, by R30's table (BIT, PLP and RTI among them). -/
def writesNZ : Instr → Bool
  | .lda _ | .ldx _ | .ldy _ | .tax | .tay | .txa | .tya | .tsx | .pla | .adc _ | .sbc _ | .and _ | .ora _ | .eor _ => true
  | .cmp _ | .cpx _ | .cpy _ | .bit _ | .inc _ | .dec _ | .inx | .iny | .dex | .dey => true
  | .asl _ | .lsr _ | .rol _ | .ror _ | .plp | .rti => true
  | _ => false

/-- The instructions that write V (R30). -/
def writesV : Instr → Bool
  | .adc _ | .sbc _ | .bit _ | .clv | .plp | .rti => true
  | _ => false

/-- The instructions that write D (R30). -/
def writesD : Instr → Bool
  | .cld | .sed | .plp | .rti => true
  | _ => false

/-- The instructions that write I (R30). -/
def writesI : Instr → Bool
  | .cli | .sei | .plp | .rti | .brk => true
  | _ => false

/-- The instructions that write C (R30). -/
def writesC : Instr → Bool
  | .adc _ | .sbc _ | .cmp _ | .cpx _ | .cpy _ | .asl _ | .lsr _ | .rol _ | .ror _ | .clc | .sec | .plp | .rti => true
  | _ => false

/-- The instructions that write A (R172-R218). -/
def writesA : Instr → Bool
  | .lda _ | .txa | .tya | .pla | .adc _ | .sbc _ | .and _ | .ora _ | .eor _ => true
  | .asl .acc | .lsr .acc | .rol .acc | .ror .acc => true
  | _ => false

/-- The instructions that write X. -/
def writesX : Instr → Bool
  | .ldx _ | .tax | .tsx | .inx | .dex => true
  | _ => false

/-- The instructions that write Y. -/
def writesY : Instr → Bool
  | .ldy _ | .tay | .iny | .dey => true
  | _ => false

/-- The instructions that write S: TXS and those that push or pull (R23). -/
def writesS : Instr → Bool
  | .txs | .pha | .php | .pla | .plp | .jsr _ | .rts | .rti | .brk => true
  | _ => false

/-- An instruction is an illegal opcode's no-op. -/
def isIllegal : Instr → Bool
  | .illegal _ => true
  | _ => false

/-! ## Costs and encodings, as the rules write them -/

/-- The extra cycles of a branch (R246, R136): 1 if taken, 1 more if the target lies in another 256-byte page than PC_next. -/
def branchExtra (s : State) (taken : Bool) (rel : Byte) : Nat :=
  if taken then 1 + (if hiByte (s.pc + 2) ≠ hiByte (s.pc + 2 + rel.signExtend 16) then 1 else 0) else 0

/-- Where a branch goes, and when (R246): `Extra` is `branchExtra`. -/
def branchTo (s : State) (taken : Bool) (rel : Byte) : State :=
  { s with
    pc := if taken then s.pc + 2 + rel.signExtend 16 else s.pc + 2
    clock := s.clock + 2 + branchExtra s taken rel }

/-- `Extra` of an instruction (R136). -/
def extraOf (s : State) : Instr → Nat
  | .lda src | .ldx src | .ldy src | .eor src | .and src | .ora src | .adc src | .sbc src | .cmp src => readExtra s src
  | .bpl rel => branchExtra s (!s.n) rel
  | .bmi rel => branchExtra s s.n rel
  | .bvc rel => branchExtra s (!s.v) rel
  | .bvs rel => branchExtra s s.v rel
  | .bcc rel => branchExtra s (!s.c) rel
  | .bcs rel => branchExtra s s.c rel
  | .bne rel => branchExtra s (!s.z) rel
  | .beq rel => branchExtra s s.z rel
  | _ => 0

/-- What an instruction that falls through leaves of PC and the clock: `PC <- PC_next`, `clock <- t_start + cost`, on the state
`s1` that its accesses left. -/
def fellThrough (s s1 : State) (i : Instr) (extra : Nat) : State :=
  { s1 with pc := s.pc + BitVec.ofNat 16 (instrLength i), clock := s.clock + baseCycles i + extra }

/-- Whether indexing leaves the 256-byte page of its base (R136, R142), by the addressing mode and the operand bytes: the modes
ABX, ABY and IZY, whose base is the operand word or the pointer in the zero page (R165, R166, R168). -/
def pageCrossed (s : State) (f : Format) (b1 b2 : Byte) : Bool :=
  match f with
  | .abx => hiByte (b2 ++ b1) != hiByte ((b2 ++ b1) + s.x.setWidth 16)
  | .aby => hiByte (b2 ++ b1) != hiByte ((b2 ++ b1) + s.y.setWidth 16)
  | .izy =>
    let base := s.peek ((b1 + 1).setWidth 16) ++ s.peek (b1.setWidth 16)
    hiByte base != hiByte (base + s.y.setWidth 16)
  | _ => false

/-- The condition of a branch, by its opcode (R247-R254). -/
def branchTaken (s : State) (op : Byte) : Bool :=
  if op = 0x10 then !s.n else if op = 0x30 then s.n else if op = 0x50 then !s.v else if op = 0x70 then s.v
  else if op = 0x90 then !s.c else if op = 0xB0 then s.c else if op = 0xD0 then !s.z else if op = 0xF0 then s.z else false

/-- What a row's extra_cycles column says (R112, R136, R464): nothing; 1 exactly if the page is crossed; 1 exactly if the branch
is taken, and 1 more exactly if it goes to another page. -/
def columnExtra (s : State) (r : Row) (b1 b2 : Byte) : Nat :=
  match r.extra with
  | .never => 0
  | .ifCrossed => if pageCrossed s r.format b1 b2 = true then 1 else 0
  | .ifTaken =>
    if branchTaken s r.opcode = true then
      1 + (if hiByte (s.pc + 2) ≠ hiByte (s.pc + 2 + b1.signExtend 16) then 1 else 0)
    else 0

/-- An `Encoding` line of one byte (R101): the opcode, the instruction and its cycles. -/
def Encodes1 (op : Byte) (i : Instr) (cycles : Nat) : Prop :=
  (∀ rest, decode (op :: rest) = .ok (i, rest)) ∧ instrLength i = 1 ∧ baseCycles i = cycles

/-- An `Encoding` line of two bytes (R102). -/
def Encodes2 (op : Byte) (mk : Byte → Instr) (cycles : Nat) : Prop :=
  ∀ b1, (∀ rest, decode (op :: b1 :: rest) = .ok (mk b1, rest)) ∧ instrLength (mk b1) = 2 ∧ baseCycles (mk b1) = cycles

/-- An `Encoding` line of three bytes, the operand little-endian (R103). -/
def Encodes3 (op : Byte) (mk : Addr → Instr) (cycles : Nat) : Prop :=
  ∀ b1 b2 : Byte, (∀ rest, decode (op :: b1 :: b2 :: rest) = .ok (mk (b2 ++ b1), rest)) ∧
    instrLength (mk (b2 ++ b1)) = 3 ∧ baseCycles (mk (b2 ++ b1)) = cycles

/-- The `Encoding` lines of the instructions with eight forms: IMM 2, ZP 3, ZPX 4, ABS 4, ABX 4+p, ABY 4+p, IZX 6, IZY 5+p
(R172, R200-R205). -/
def AccForms (mk : Source → Instr) (imm zp zpx abs abx aby izx izy : Byte) : Prop :=
  Encodes2 imm (fun v => mk (.imm v)) 2 ∧ Encodes2 zp (fun z => mk (.mem (.zp z))) 3 ∧
    Encodes2 zpx (fun z => mk (.mem (.zpx z))) 4 ∧ Encodes3 abs (fun a => mk (.mem (.abs a))) 4 ∧
    Encodes3 abx (fun a => mk (.mem (.abx a))) 4 ∧ Encodes3 aby (fun a => mk (.mem (.aby a))) 4 ∧
    Encodes2 izx (fun z => mk (.mem (.izx z))) 6 ∧ Encodes2 izy (fun z => mk (.mem (.izy z))) 5

/-- The `Encoding` lines of a read-modify-write on memory: ZP 5, ZPX 6, ABS 6, ABX 7 (R209, R210, R215-R218). -/
def RmwForms (mk : RmwMode → Instr) (zp zpx abs abx : Byte) : Prop :=
  Encodes2 zp (fun z => mk (.zp z)) 5 ∧ Encodes2 zpx (fun z => mk (.zpx z)) 6 ∧ Encodes3 abs (fun a => mk (.abs a)) 6 ∧
    Encodes3 abx (fun a => mk (.abx a)) 7

/-- The rule of a shift or rotate (R215-R218): on A, and on memory with one read and one write at t_d (R219). `shift` is its
result from the old value and the old C, and `out` the number of the bit that goes to C. -/
def ShiftRule (mk : ShiftOperand → Instr) (shift : Byte → Bool → Byte) (out : Nat) : Prop :=
  (∀ (s : State) (r : Byte), r = shift s.a s.c →
    exec (mk .acc) s =
      .next { s with
        a := r, n := r.getLsbD 7, z := r == 0x00, c := s.a.getLsbD out, pc := s.pc + 1, clock := s.clock + 2 }) ∧
  (∀ (s s1 s2 : State) (m : RmwMode) (v r : Byte),
    memRead s (effAddr s (rmwToMem m)).addr (s.clock + rmwCycles m) = .ok (v, s1) → r = shift v s.c →
    memWrite s1 (effAddr s (rmwToMem m)).addr r (s.clock + rmwCycles m) = .ok s2 →
    exec (mk (.mem m)) s =
      .next { fellThrough s s2 (mk (.mem m)) 0 with n := r.getLsbD 7, z := r == 0x00, c := v.getLsbD out }) ∧
  (∀ (s s1 : State) (m : RmwMode) (v : Byte) (f : Fault),
    (memRead s (effAddr s (rmwToMem m)).addr (s.clock + rmwCycles m) = .error f → exec (mk (.mem m)) s = .fault f) ∧
    (memRead s (effAddr s (rmwToMem m)).addr (s.clock + rmwCycles m) = .ok (v, s1) →
      memWrite s1 (effAddr s (rmwToMem m)).addr (shift v s.c) (s.clock + rmwCycles m) = .error f →
      exec (mk (.mem m)) s = .fault f))

/-! ## Invariants -/

/-- The byte arrays are canonical and within their regions (R38, R39). -/
def MemoryOk (s : State) : Prop :=
  s.ram.wf = true ∧ sparseBelow ramSize s.ram = true ∧ s.sram.wf = true ∧ sparseBelow sramSize s.sram = true ∧
    s.rom.wf = true ∧ sparseBelow (s.header.romBanks * bankSize) s.rom = true

/-- The APU is never asked to synthesize past the CPU's clock (R308). -/
def ApuBehindCpu (s : State) : Prop := s.sound.apuTime ≤ s.clock

/-- The interrupt inputs are inactive (R144, D20). -/
def LinesQuiet (s : State) : Prop := s.irqLine = false ∧ s.nmiPending = false

/-- The tempo is in its range and the play period is at least one clock (R350). -/
def TempoOk (s : State) : Prop := 1 / 50 ≤ s.tempo ∧ s.tempo ≤ 4 ∧ 1 ≤ s.playPeriod

/-- The sum of a delta array's entries. -/
def accSum (acc : List (Nat × Rat)) : Rat := (acc.map fun c => c.2).sum

/-- The sum of the levels the voices contribute to buffer b. -/
def lastSum (voices : List Voice) (b : Side) : Rat := (voices.map fun v => v.last b).sum

/-- The level of a buffer after its first n entries: its integrator with those entries added (R326). -/
def levelAfter (buf : SampleBuffer) (n : Nat) : Rat := buf.integ + ((List.range n).map (sparseRead 0 buf.acc)).sum

/-- The delta arrays are canonical. -/
def BuffersOk (w : Sound) : Prop := ∀ b, sparseWf 0 (w.buffer b).acc = true

/-- The level invariant: what a buffer has integrated and what it still holds add up to the voices' contributions (R310). -/
def LevelOk (w : Sound) : Prop := ∀ b, (w.buffer b).integ + accSum (w.buffer b).acc = lastSum w.voices b

/-- The confirmed samples are those before the origin (R322, R328). -/
def AvailOk (w : Sound) : Prop := 0 ≤ w.origin ∧ (w.avail : Int) = ⌊w.origin⌋

end Sys2Proof.Machine
end

