-- ==== Sys2Proof/Certificates/Slice0/Obligations.lean ====
section
/-! DEFINITION. The statements for the provers, each a `Prop` of its own, in the order of OBLIGATIONS.json. -/

open Sys2Proof Sys2Proof.Machine

/-! ## Encoding -/

/-- Decoding an encoded well-formed instruction gives it back, with every operand at every value (R100-R103, R107, R108). -/
def Obligations.DecodeOfEncode : Prop :=
  ∀ (i : Instr) (rest : List Byte), i.wellFormed = true → decode (encode i ++ rest) = .ok (i, rest)

/-- Whatever decodes is a well-formed instruction, and the bytes it was read from are its encoding: no two byte strings are one
instruction, and no byte is dropped (R100-R103, R110). -/
def Obligations.EncodeOfDecode : Prop :=
  ∀ (bs rest : List Byte) (i : Instr), decode bs = .ok (i, rest) → i.wellFormed = true ∧ bs = encode i ++ rest

/-- The decoder is total (R110): each opcode value selects exactly one row, documented or illegal; the row's instruction is
what its bytes decode to, whatever its operand bytes are. -/
def Obligations.OpcodeMapTotal : Prop :=
  (∀ op : Byte,
    (opcodeRows.filter fun r => r.opcode == op).length + (illegalOpcodes.filter fun o => o == op).length = 1) ∧
  (∀ r ∈ opcodeRows, ∀ (b1 b2 : Byte) (rest : List Byte),
    decode (r.opcode :: b1 :: b2 :: rest) = .ok (r.make b1 b2, (b1 :: b2 :: rest).drop (r.length - 1)) ∧
      (r.make b1 b2).wellFormed = true) ∧
  (∀ op ∈ illegalOpcodes, ∀ rest : List Byte, decode (op :: rest) = .ok (.illegal op, rest))

/-- The table's length, cycles and extra_cycles columns are the length, the base cost and the addition of the instruction that
the row decodes to, and executing it moves the clock by cycles plus that addition: nothing; 1 exactly if the page is crossed; or
1 exactly if the branch is taken, and 1 more exactly if it goes to another page. An illegal row is one byte and two clocks
(R112, R136, R464). -/
def Obligations.TableColumns : Prop :=
  (∀ r ∈ opcodeRows, ∀ b1 b2 : Byte,
    instrLength (r.make b1 b2) = r.length ∧ baseCycles (r.make b1 b2) = r.cycles ∧ 1 ≤ r.length ∧ r.length ≤ 3 ∧
      (r.extra = .ifCrossed → r.format = .abx ∨ r.format = .aby ∨ r.format = .izy) ∧
      (r.extra = .ifTaken ↔ r.format = .rel) ∧
      (∀ s : State, extraOf s (r.make b1 b2) = columnExtra s r b1 b2) ∧
      (∀ s s' : State, exec (r.make b1 b2) s = .next s' → s'.clock = s.clock + r.cycles + columnExtra s r b1 b2)) ∧
  (∀ op : Byte, instrLength (.illegal op) = 1 ∧ baseCycles (.illegal op) = 2 ∧
    ∀ s s' : State, exec (.illegal op) s = .next s' → s'.clock = s.clock + 2)

/-- A few words of the spec's opcode map, written out: a sanity check of the bit layout. -/
def Obligations.SampleWordsDecode : Prop :=
  decode [0xA9, 0x80] = .ok (.lda (.imm 0x80), []) ∧
  decode [0xBD, 0xFF, 0x12] = .ok (.lda (.mem (.abx 0x12FF)), []) ∧
  decode [0xB6, 0xF0] = .ok (.ldx (.mem (.zpy 0xF0)), []) ∧
  decode [0x91, 0x20] = .ok (.sta (.izy 0x20), []) ∧
  decode [0x8E, 0xF9, 0x5F] = .ok (.stx (.abs 0x5FF9), []) ∧
  decode [0xAA] = .ok (.tax, []) ∧
  decode [0x28] = .ok (.plp, []) ∧
  decode [0xE1, 0x44] = .ok (.sbc (.mem (.izx 0x44)), []) ∧
  decode [0x2C, 0x15, 0x40] = .ok (.bit (.abs 0x4015), []) ∧
  decode [0x7E, 0x34, 0x12] = .ok (.ror (.mem (.abx 0x1234)), []) ∧
  decode [0x6C, 0xFF, 0x10] = .ok (.jmpInd 0x10FF, []) ∧
  decode [0xD0, 0xFB] = .ok (.bne 0xFB, []) ∧
  decode [0x02, 0xEA] = .ok (.illegal 0x02, [0xEA])

/-! ## The run loop -/

/-- A step runs the decoded instruction: if the three bytes at PC decode to `i`, the instruction's own bytes do not lie at the
sound chip's status register, and `i` does not run off 0xFFFF, then `step` is `exec i`. If its bytes do lie there, `step` is
`exec` of what the fetch finds, on the state the fetch leaves. `step` adds nothing around `exec`. -/
def Obligations.StepRunsInstruction : Prop :=
  (∀ (s : State) (i : Instr) (rest : List Byte), Ready s →
    decode [s.peek s.pc, s.peek (s.pc + 1), s.peek (s.pc + 2)] = .ok (i, rest) →
    (∀ k, k < instrLength i → s.pc + BitVec.ofNat 16 k ≠ apuStatusAddr) →
    (isIllegal i = true ∨ s.pc.toNat + instrLength i < 0x10000) → step s = exec i s) ∧
  (∀ (s s1 : State) (i : Instr), Ready s → fetch s = .ok (.instr i, s1) → step s = exec i s1)

/-- The fetch (R132, R133): it finds the instruction that the bytes at PC decode to, or a wrap if a documented one would pass
0xFFFF, and changes nothing; only a byte at the sound chip's status register can change anything, and only in the APU. -/
def Obligations.FetchReadsTheBytes : Prop :=
  (∀ (s : State) (i : Instr) (rest : List Byte),
    decode [s.peek s.pc, s.peek (s.pc + 1), s.peek (s.pc + 2)] = .ok (i, rest) →
    (∀ k, k < instrLength i → s.pc + BitVec.ofNat 16 k ≠ apuStatusAddr) →
    fetch s =
      .ok (if isIllegal i = true ∨ s.pc.toNat + instrLength i < 0x10000 then .instr i else .wrapped, s)) ∧
  (∀ (s s1 : State) (f : Fetched), fetch s = .ok (f, s1) → s1 = { s with sound := s1.sound })

/-- One turn of the run loop, exactly, with the checks in their order: idle, end clock, interrupt, instruction (R131). -/
def Obligations.RunLoop : Prop :=
  ∀ (fuel : Nat) (endClock : Int) (s : State), s.mode ≠ .idle →
    run (fuel + 1) (some endClock) s =
      if s.pc = idleAddr then .next (some .idle, s)
      else if s.clock ≥ endClock then .next (some .reached, s)
      else if s.interruptPending = true then
        (match takeInterrupt s with
        | .ok s1 => .next (some .interrupt, s1)
        | .error f => .fault f)
      else
        (match cpuStep s with
        | .next (.illegal, s1) => .next (some .illegal, s1)
        | .next (.wrap, s1) => .next (some .wrap, s1)
        | .next (.ok, s1) => run fuel (some endClock) s1
        | .fault f => .fault f
        | .refused r => .refused r)

/-- An illegal opcode is a no-op of one byte and two clocks that sets `corrupt` and the warning and makes the step answer
`Illegal`; nothing else changes and no operand byte is fetched (R137). -/
def Obligations.IllegalOpcodeNoOp : Prop :=
  (∀ (s : State) (op : Byte),
    exec (.illegal op) s =
      .next { s with corrupt := true, warning := some .illegalOpcode, pc := s.pc + 1, clock := s.clock + 2 }) ∧
  (∀ (s s1 : State) (op : Byte), memRead s s.pc s.clock = .ok (op, s1) → op ∈ illegalOpcodes →
    cpuStep s =
      .next (.illegal,
        { s1 with corrupt := true, warning := some .illegalOpcode, pc := s.pc + 1, clock := s.clock + 2 })) ∧
  (∀ (s s1 : State) (fuel : Nat) (endClock : Int), s.mode ≠ .idle → s.pc ≠ idleAddr → s.clock < endClock →
    s.interruptPending = false → cpuStep s = .next (.illegal, s1) →
    run (fuel + 1) (some endClock) s = .next (some .illegal, s1))

/-- A documented instruction that would pass 0xFFFF is not executed: a no-op like the illegal one, with its own warning and
result; and `Wrap` is answered then only, so no computed target is a wraparound (R138). -/
def Obligations.WrapNoOp : Prop :=
  (∀ (s s1 : State) (op : Byte) (r : Row), memRead s s.pc s.clock = .ok (op, s1) → r ∈ opcodeRows → r.opcode = op →
    0x10000 ≤ s.pc.toNat + r.length →
    cpuStep s =
      .next (.wrap, { s1 with corrupt := true, warning := some .pcWrap, pc := s.pc + 1, clock := s.clock + 2 })) ∧
  (∀ s s' : State, cpuStep s = .next (.wrap, s') →
    ∃ (op : Byte) (s1 : State) (r : Row), memRead s s.pc s.clock = .ok (op, s1) ∧ r ∈ opcodeRows ∧ r.opcode = op ∧
      0x10000 ≤ s.pc.toNat + r.length)

/-- `Reached` comes as soon as the clock has come to the end, and passes it by less than the cost of the last instruction
executed in this call, which is the one that the run's turns before it lead to (R139). -/
def Obligations.ReachedOvershoot : Prop :=
  ∀ (fuel : Nat) (endClock : Int) (s s' : State), run fuel (some endClock) s = .next (some .reached, s') →
    endClock ≤ s'.clock ∧
      (s' = s ∨ ∃ (k : Nat) (last : State), k + 2 ≤ fuel ∧ run k (some endClock) s = .next (none, last) ∧
        last.clock < endClock ∧ cpuStep last = .next (.ok, s') ∧ s'.clock < endClock + (s'.clock - last.clock))

/-- Taking an interrupt at a boundary (R405): PC and `PackP(0)` pushed, I set, PC from the vector, seven clocks; an NMI goes
first and clears its latch. -/
def Obligations.InterruptEntry : Prop :=
  ∀ (s : State) (endClock : Option Int), s.mode ≠ .idle → s.pc ≠ idleAddr → reachedEnd s endClock = false →
    s.interruptPending = true →
    boundary endClock s =
      .next (some .interrupt,
        { s with
          ram := ((s.ram.write (0x100 + s.sp.toNat) (hiByte s.pc)).write (0x100 + (s.sp - 1).toNat) (loByte s.pc)).write
            (0x100 + (s.sp - 2).toNat) (s.packP false)
          sp := s.sp - 3, i := true, nmiPending := false, clock := s.clock + 7
          pc := if s.nmiPending = true then s.peek 0xFFFB ++ s.peek 0xFFFA else s.peek 0xFFFF ++ s.peek 0xFFFE })

/-- The interrupt inputs stay inactive, and while they are, no boundary takes an interrupt (R144). -/
def Obligations.LinesStayQuiet : Prop :=
  (∀ s s' : State, LinesQuiet s → step s = .next s' → LinesQuiet s') ∧
  (∀ (s s' : State) (endClock : Option Int) (r : Option RunResult), LinesQuiet s →
    boundary endClock s = .next (r, s') → r ≠ some .interrupt)

/-- A step lowers the clock only as the rebase of a frame, by exactly the frame length and together with the APU's times
(by `apuEndFrame`, which ApuCalls states in full), or as the reset of start_track (R32, R358). -/
def Obligations.ClockFallsOnlyAtRebase : Prop :=
  ∀ s s' : State, step s = .next s' → s'.clock < s.clock →
    (∃ (length : ℕ+) (need : Option Nat), s.activity = .frame length need ∧
      s'.clock = s.clock - ((length : Nat) : Int) ∧ s'.nextPlay = s.nextPlay - ((length : Nat) : Int) ∧
      apuEndFrame s.soundEnv ((length : Nat) : Int) s.sound = .ok s'.sound ∧ s'.mode = .frameBoundary) ∨
    (∃ (n : Nat) (rest : List HostCall), s.activity = .waiting ∧ s.calls = .startTrack n :: rest ∧ s'.clock = 0)

/-- `corrupt` is set by an illegal opcode and by a wraparound, and by nothing else the CPU does; no step clears it but that of
start_track (R33). -/
def Obligations.CorruptIsSticky : Prop :=
  (∀ (s s' : State) (r : StepResult), cpuStep s = .next (r, s') → s'.corrupt = (s.corrupt || decide (r ≠ .ok))) ∧
  (∀ s s' : State, step s = .next s' → s.corrupt = true → s'.corrupt = false →
    ∃ (n : Nat) (rest : List HostCall), s.activity = .waiting ∧ s.calls = .startTrack n :: rest)

/-- The cost of an instruction is its base cycles plus R136's `Extra`, and lies between two and seven clocks (R136). -/
def Obligations.InstructionCost : Prop :=
  ∀ (i : Instr) (s s' : State), i.wellFormed = true → exec i s = .next s' →
    s'.clock = s.clock + baseCycles i + extraOf s i ∧ 2 ≤ s'.clock - s.clock ∧ s'.clock - s.clock ≤ 7

/-! ## Memory -/

/-- RAM is mirrored through 0x0000-0x1FFF and SRAM is not, for reads and for writes (R67, R68). -/
def Obligations.DirectPages : Prop :=
  (∀ (s : State) (a : Addr) (t : Int), a.toNat < 0x2000 →
    memRead s a t = .ok (s.ram.read (a.toNat % 0x800), s) ∧
    (∀ v : Byte, memWrite s a v t = .ok { s with ram := s.ram.write (a.toNat % 0x800) v }) ∧
    (∀ (v : Byte) (b : Addr) (s' : State), b.toNat < 0x2000 → b.toNat % 0x800 = a.toNat % 0x800 →
      memWrite s a v t = .ok s' → memRead s' b t = .ok (v, s'))) ∧
  (∀ (s : State) (a : Addr) (t : Int), 0x6000 ≤ a.toNat → a.toNat < 0x8000 →
    memRead s a t = .ok (s.sram.read (a.toNat - 0x6000), s) ∧
    (∀ v : Byte, memWrite s a v t = .ok { s with sram := s.sram.write (a.toNat - 0x6000) v }) ∧
    (∀ (v : Byte) (b : Addr) (s' : State), 0x6000 ≤ b.toNat → b.toNat < 0x8000 → memWrite s a v t = .ok s' →
      memRead s' b t = .ok (if b = a then v else s.sram.read (b.toNat - 0x6000), s')))

/-- A read of 0x8000-0xFFFF shows the window's ROM bank, or the open-bus byte if the image has no such bank; a write there
changes nothing (R69, R72). -/
def Obligations.RomWindows : Prop :=
  ∀ (s : State) (a : Addr) (t : Int), 0x8000 ≤ a.toNat →
    (windowOf a).val = (a.toNat - 0x8000) / 0x1000 ∧
    memRead s a t =
      .ok (if (s.bankAt (windowOf a)).toNat < s.header.romBanks then
          s.rom.read ((s.bankAt (windowOf a)).toNat * 0x1000 + a.toNat % 0x1000)
        else s.params.openBus, s) ∧
    (∀ v : Byte, memWrite s a v t = .ok s)

/-- A write to bank register w takes effect at once: every address of window w then shows the new bank, or the open-bus byte
with the warning `InvalidBank`; every other address shows what it showed; and the register itself reads as open bus (R70,
R71, R75). -/
def Obligations.BankSwitch : Prop :=
  ∀ (s : State) (w : Fin 8) (v : Byte) (t : Int),
    memRead s (0x5FF8 + BitVec.ofNat 16 w.val) t = .ok (s.params.openBus, s) ∧
    memWrite s (0x5FF8 + BitVec.ofNat 16 w.val) v t =
      .ok { s with
        bank := s.bank.set w.val v w.isLt
        warning := if s.header.romBanks ≤ v.toNat then some .invalidBank else s.warning } ∧
    (∀ (s' : State) (b : Addr), memWrite s (0x5FF8 + BitVec.ofNat 16 w.val) v t = .ok s' →
      s'.peek b =
        if 0x8000 ≤ b.toNat ∧ (b.toNat - 0x8000) / 0x1000 = w.val then
          (if v.toNat < s.header.romBanks then s.rom.read (v.toNat * 0x1000 + b.toNat % 0x1000) else s.params.openBus)
        else s.peek b)

/-- The complete decode of the I/O path (R73, R74, R78): writes to the sound chip's window, the read of its status register,
writes to the bank registers, and nothing else; a window whose bank the image has not is on the I/O path too, and reads as open
bus and ignores writes. -/
def Obligations.IoWindow : Prop :=
  (∀ (s : State) (a : Addr) (v : Byte) (t : Int), 0x4000 ≤ a.toNat → a.toNat ≤ 0x4017 →
    memWrite s a v t =
      (apuWrite s.soundEnv t (a.toNat - 0x4000) v s.sound).map fun w =>
        { s with sound := w, apuLog := s.apuLog ++ [{ clock := t, reg := a.toNat - 0x4000, value := v }] }) ∧
  (∀ (s : State) (t : Int),
    memRead s 0x4015 t =
      (apuRead s.soundEnv s.params.openBus t 0x15 s.sound).map fun r => (r.1, { s with sound := r.2 })) ∧
  (∀ (s : State) (a : Addr) (t : Int), 0x2000 ≤ a.toNat → a.toNat < 0x6000 → a ≠ 0x4015 →
    memRead s a t = .ok (s.params.openBus, s)) ∧
  (∀ (s : State) (a : Addr) (v : Byte) (t : Int), 0x2000 ≤ a.toNat → a.toNat < 0x5FF8 →
    (a.toNat < 0x4000 ∨ 0x4017 < a.toNat) → memWrite s a v t = .ok s) ∧
  (∀ (s : State) (a : Addr) (w : Fin 8) (v : Byte) (t : Int), a.toNat = 0x5FF8 + w.val →
    memWrite s a v t =
      .ok { s with
        bank := s.bank.set w.val v w.isLt
        warning := if s.header.romBanks ≤ v.toNat then some .invalidBank else s.warning }) ∧
  (∀ (s : State) (a : Addr) (v : Byte) (t : Int), 0x8000 ≤ a.toNat →
    s.header.romBanks ≤ (s.bankAt (windowOf a)).toNat →
    memRead s a t = .ok (s.params.openBus, s) ∧ memWrite s a v t = .ok s)

/-- Every read but that of the sound chip's status register succeeds and changes nothing; every write but those to the sound
chip succeeds; and after any write, the address written, with its mirrors, shows the value if it is RAM or SRAM, and every
other byte, but those of a window whose bank register was written, shows what it showed (R64, R65, R86, R89). -/
def Obligations.ReadAfterWrite : Prop :=
  (∀ (s : State) (a : Addr) (t : Int), a ≠ apuStatusAddr → memRead s a t = .ok (s.peek a, s)) ∧
  (∀ (s : State) (a : Addr) (v : Byte) (t : Int), isApuWrite a = false → ∃ s', memWrite s a v t = .ok s') ∧
  (∀ (s s' : State) (a b : Addr) (v : Byte) (t : Int), memWrite s a v t = .ok s' → inWindowOf a b = false →
    s'.peek b = if sameCell a b = true then v else s.peek b)

/-- The byte arrays stay canonical and within their regions (R38, R39; the canonical form is the model's own). -/
def Obligations.MemoryOkKept : Prop := ∀ s s' : State, MemoryOk s → step s = .next s' → MemoryOk s'

/-- No step changes the ROM image, the header or the parameters, and only the first `set_sample_rate` changes the sample rate
(R39, R72, R77, R365; the header's inputs are fixed by R351, and the parameters are arguments of the model by R8 and R20). That
header and parameters are held in the state is the model's choice (log entry 4). -/
def Obligations.ResidentImageKept : Prop :=
  ∀ s s' : State, step s = .next s' →
    s'.rom = s.rom ∧ s'.header = s.header ∧ s'.params = s.params ∧ (s.rateSet = true → s'.rateSet = true) ∧
      (s'.sampleRate ≠ s.sampleRate → ∃ (rate : ℕ+) (rest : List HostCall), s.activity = .waiting ∧
        s.calls = .setSampleRate rate :: rest ∧ s.rateSet = false ∧ s'.sampleRate = rate)

/-! ## Addressing modes -/

/-- The effective address of every memory mode, the pointer bytes read through the memory map, and the page-cross condition of
the three indexed ones (R160-R168). -/
def Obligations.AddressingModes : Prop :=
  ∀ (s : State) (z : Byte) (base : Addr) (t : Int),
    operand s (.imm z) t = .ok (z, s) ∧
    (∀ m, operand s (.mem m) t = memRead s (effAddr s m).addr t) ∧
    (effAddr s (.zp z)).addr = z.setWidth 16 ∧
    (effAddr s (.zpx z)).addr = (z + s.x).setWidth 16 ∧
    (effAddr s (.zpy z)).addr = (z + s.y).setWidth 16 ∧
    (effAddr s (.abs base)).addr = base ∧
    (effAddr s (.abx base)).addr = base + s.x.setWidth 16 ∧
    (effAddr s (.abx base)).crossed = (hiByte base != hiByte (base + s.x.setWidth 16)) ∧
    (effAddr s (.aby base)).addr = base + s.y.setWidth 16 ∧
    (effAddr s (.aby base)).crossed = (hiByte base != hiByte (base + s.y.setWidth 16)) ∧
    (∃ lo hi : Byte, memRead s ((z + s.x).setWidth 16) t = .ok (lo, s) ∧
      memRead s ((z + s.x + 1).setWidth 16) t = .ok (hi, s) ∧ (effAddr s (.izx z)).addr = hi ++ lo) ∧
    (∃ lo hi : Byte, memRead s (z.setWidth 16) t = .ok (lo, s) ∧ memRead s ((z + 1).setWidth 16) t = .ok (hi, s) ∧
      (effAddr s (.izy z)).addr = (hi ++ lo) + s.y.setWidth 16 ∧
      (effAddr s (.izy z)).crossed = (hiByte (hi ++ lo) != hiByte ((hi ++ lo) + s.y.setWidth 16)))

/-! ## Loads, stores, transfers and the stack -/

/-- LDA, LDX and LDY in every form: the operand read at t_d, the register, N and Z, PC_next and the cost. A read that the sound
chip's buffer refuses stops with that reason (R172-R174). -/
def Obligations.Loads : Prop :=
  AccForms .lda 0xA9 0xA5 0xB5 0xAD 0xBD 0xB9 0xA1 0xB1 ∧
  (Encodes2 0xA2 (fun v => .ldx (.imm v)) 2 ∧ Encodes2 0xA6 (fun z => .ldx (.mem (.zp z))) 3 ∧
    Encodes2 0xB6 (fun z => .ldx (.mem (.zpy z))) 4 ∧ Encodes3 0xAE (fun a => .ldx (.mem (.abs a))) 4 ∧
    Encodes3 0xBE (fun a => .ldx (.mem (.aby a))) 4) ∧
  (Encodes2 0xA0 (fun v => .ldy (.imm v)) 2 ∧ Encodes2 0xA4 (fun z => .ldy (.mem (.zp z))) 3 ∧
    Encodes2 0xB4 (fun z => .ldy (.mem (.zpx z))) 4 ∧ Encodes3 0xAC (fun a => .ldy (.mem (.abs a))) 4 ∧
    Encodes3 0xBC (fun a => .ldy (.mem (.abx a))) 4) ∧
  (∀ (s s1 : State) (src : Source) (m : Byte), operand s src (s.clock + baseCycles (.lda src)) = .ok (m, s1) →
    exec (.lda src) s =
      .next { fellThrough s s1 (.lda src) (readExtra s src) with a := m, n := m.getLsbD 7, z := m == 0x00 }) ∧
  (∀ (s s1 : State) (src : Source) (m : Byte), operand s src (s.clock + baseCycles (.ldx src)) = .ok (m, s1) →
    exec (.ldx src) s =
      .next { fellThrough s s1 (.ldx src) (readExtra s src) with x := m, n := m.getLsbD 7, z := m == 0x00 }) ∧
  (∀ (s s1 : State) (src : Source) (m : Byte), operand s src (s.clock + baseCycles (.ldy src)) = .ok (m, s1) →
    exec (.ldy src) s =
      .next { fellThrough s s1 (.ldy src) (readExtra s src) with y := m, n := m.getLsbD 7, z := m == 0x00 }) ∧
  (∀ (s : State) (src : Source) (f : Fault),
    (operand s src (s.clock + baseCycles (.lda src)) = .error f → exec (.lda src) s = .fault f) ∧
    (operand s src (s.clock + baseCycles (.ldx src)) = .error f → exec (.ldx src) s = .fault f) ∧
    (operand s src (s.clock + baseCycles (.ldy src)) = .error f → exec (.ldy src) s = .fault f))

/-- STA, STX and STY in every form: one write of the register to EA at t_d, a fixed cost, no flag. A write that the sound chip's
buffer refuses stops with that reason (R175-R177). -/
def Obligations.Stores : Prop :=
  (Encodes2 0x85 (fun z => .sta (.zp z)) 3 ∧ Encodes2 0x95 (fun z => .sta (.zpx z)) 4 ∧
    Encodes3 0x8D (fun a => .sta (.abs a)) 4 ∧ Encodes3 0x9D (fun a => .sta (.abx a)) 5 ∧
    Encodes3 0x99 (fun a => .sta (.aby a)) 5 ∧ Encodes2 0x81 (fun z => .sta (.izx z)) 6 ∧
    Encodes2 0x91 (fun z => .sta (.izy z)) 6) ∧
  (Encodes2 0x86 (fun z => .stx (.zp z)) 3 ∧ Encodes2 0x96 (fun z => .stx (.zpy z)) 4 ∧
    Encodes3 0x8E (fun a => .stx (.abs a)) 4) ∧
  (Encodes2 0x84 (fun z => .sty (.zp z)) 3 ∧ Encodes2 0x94 (fun z => .sty (.zpx z)) 4 ∧
    Encodes3 0x8C (fun a => .sty (.abs a)) 4) ∧
  (∀ (s s1 : State) (dst : MemMode),
    (memWrite s (effAddr s dst).addr s.a (s.clock + baseCycles (.sta dst)) = .ok s1 →
      exec (.sta dst) s = .next (fellThrough s s1 (.sta dst) 0)) ∧
    (memWrite s (effAddr s dst).addr s.x (s.clock + baseCycles (.stx dst)) = .ok s1 →
      exec (.stx dst) s = .next (fellThrough s s1 (.stx dst) 0)) ∧
    (memWrite s (effAddr s dst).addr s.y (s.clock + baseCycles (.sty dst)) = .ok s1 →
      exec (.sty dst) s = .next (fellThrough s s1 (.sty dst) 0))) ∧
  (∀ (s : State) (dst : MemMode) (f : Fault),
    (memWrite s (effAddr s dst).addr s.a (s.clock + baseCycles (.sta dst)) = .error f → exec (.sta dst) s = .fault f) ∧
    (memWrite s (effAddr s dst).addr s.x (s.clock + baseCycles (.stx dst)) = .error f → exec (.stx dst) s = .fault f) ∧
    (memWrite s (effAddr s dst).addr s.y (s.clock + baseCycles (.sty dst)) = .error f → exec (.sty dst) s = .fault f))

/-- The transfers and the increments and decrements of X and Y: encoding, result, flags, PC_next and two clocks; nothing else
changes, and TXS sets no flag (R178-R183, R211-R214). -/
def Obligations.TransfersAndIndexSteps : Prop :=
  (Encodes1 0xAA .tax 2 ∧ Encodes1 0xA8 .tay 2 ∧ Encodes1 0x8A .txa 2 ∧ Encodes1 0x98 .tya 2 ∧ Encodes1 0xBA .tsx 2 ∧
    Encodes1 0x9A .txs 2 ∧ Encodes1 0xE8 .inx 2 ∧ Encodes1 0xC8 .iny 2 ∧ Encodes1 0xCA .dex 2 ∧ Encodes1 0x88 .dey 2) ∧
  (∀ s : State,
    exec .tax s =
      .next { s with x := s.a, n := s.a.getLsbD 7, z := s.a == 0x00, pc := s.pc + 1, clock := s.clock + 2 } ∧
    exec .tay s =
      .next { s with y := s.a, n := s.a.getLsbD 7, z := s.a == 0x00, pc := s.pc + 1, clock := s.clock + 2 } ∧
    exec .txa s =
      .next { s with a := s.x, n := s.x.getLsbD 7, z := s.x == 0x00, pc := s.pc + 1, clock := s.clock + 2 } ∧
    exec .tya s =
      .next { s with a := s.y, n := s.y.getLsbD 7, z := s.y == 0x00, pc := s.pc + 1, clock := s.clock + 2 } ∧
    exec .tsx s =
      .next { s with x := s.sp, n := s.sp.getLsbD 7, z := s.sp == 0x00, pc := s.pc + 1, clock := s.clock + 2 } ∧
    exec .txs s = .next { s with sp := s.x, pc := s.pc + 1, clock := s.clock + 2 } ∧
    exec .inx s =
      .next { s with
        x := s.x + 1, n := (s.x + 1).getLsbD 7, z := s.x + 1 == 0x00, pc := s.pc + 1, clock := s.clock + 2 } ∧
    exec .iny s =
      .next { s with
        y := s.y + 1, n := (s.y + 1).getLsbD 7, z := s.y + 1 == 0x00, pc := s.pc + 1, clock := s.clock + 2 } ∧
    exec .dex s =
      .next { s with
        x := s.x - 1, n := (s.x - 1).getLsbD 7, z := s.x - 1 == 0x00, pc := s.pc + 1, clock := s.clock + 2 } ∧
    exec .dey s =
      .next { s with
        y := s.y - 1, n := (s.y - 1).getLsbD 7, z := s.y - 1 == 0x00, pc := s.pc + 1, clock := s.clock + 2 })

/-- PHA, PHP, PLA and PLP, exactly: the stack byte, S modulo 256, the register or the six flags, PC_next and the clocks
(R184-R187, R28, R29). -/
def Obligations.PushAndPull : Prop :=
  (Encodes1 0x48 .pha 3 ∧ Encodes1 0x08 .php 3 ∧ Encodes1 0x68 .pla 4 ∧ Encodes1 0x28 .plp 4) ∧
  (∀ s : State,
    exec .pha s =
      .next { s with
        ram := s.ram.write (0x100 + s.sp.toNat) s.a, sp := s.sp - 1, pc := s.pc + 1, clock := s.clock + 3 } ∧
    exec .php s =
      .next { s with
        ram := s.ram.write (0x100 + s.sp.toNat)
          (BitVec.ofBool s.n ++ BitVec.ofBool s.v ++ 0b11#2 ++ BitVec.ofBool s.d ++ BitVec.ofBool s.i ++ BitVec.ofBool s.z ++
            BitVec.ofBool s.c)
        sp := s.sp - 1, pc := s.pc + 1, clock := s.clock + 3 }) ∧
  (∀ (s : State) (m : Byte), s.ram.read (0x100 + (s.sp + 1).toNat) = m →
    exec .pla s =
      .next { s with
        a := m, sp := s.sp + 1, n := m.getLsbD 7, z := m == 0x00, pc := s.pc + 1, clock := s.clock + 4 } ∧
    exec .plp s =
      .next { s with
        n := m.getLsbD 7, v := m.getLsbD 6, d := m.getLsbD 3, i := m.getLsbD 2, z := m.getLsbD 1, c := m.getLsbD 0
        sp := s.sp + 1, pc := s.pc + 1, clock := s.clock + 4 })

/-! ## Arithmetic, logic, compare and shift -/

/-- ADC and SBC in every form, unless the instance refuses decimal arithmetic and D is set: the nine-bit sum, its low byte in A,
bit 8 in C, the two's-complement overflow in V, N and Z, PC_next and the cost (R200, R201). -/
def Obligations.AddAndSubtract : Prop :=
  AccForms .adc 0x69 0x65 0x75 0x6D 0x7D 0x79 0x61 0x71 ∧ AccForms .sbc 0xE9 0xE5 0xF5 0xED 0xFD 0xF9 0xE1 0xF1 ∧
  (∀ (s s1 : State) (src : Source) (m r : Byte) (t : Nat), ¬(s.params.decimal = .refused ∧ s.d = true) →
    operand s src (s.clock + baseCycles (.adc src)) = .ok (m, s1) → t = s.a.toNat + m.toNat + s.c.toNat →
    r = BitVec.ofNat 8 t →
    exec (.adc src) s =
      .next { fellThrough s s1 (.adc src) (readExtra s src) with
        a := r, n := r.getLsbD 7, v := ((~~~(s.a ^^^ m)) &&& (s.a ^^^ r) &&& 0x80) != 0x00, z := r == 0x00
        c := decide (t > 0xFF) }) ∧
  (∀ (s s1 : State) (src : Source) (m r : Byte) (t : Nat), ¬(s.params.decimal = .refused ∧ s.d = true) →
    operand s src (s.clock + baseCycles (.sbc src)) = .ok (m, s1) → t = s.a.toNat + (~~~m).toNat + s.c.toNat →
    r = BitVec.ofNat 8 t →
    exec (.sbc src) s =
      .next { fellThrough s s1 (.sbc src) (readExtra s src) with
        a := r, n := r.getLsbD 7, v := ((~~~(s.a ^^^ ~~~m)) &&& (s.a ^^^ r) &&& 0x80) != 0x00, z := r == 0x00
        c := decide (t > 0xFF) }) ∧
  (∀ (s : State) (src : Source) (f : Fault), ¬(s.params.decimal = .refused ∧ s.d = true) →
    (operand s src (s.clock + baseCycles (.adc src)) = .error f → exec (.adc src) s = .fault f) ∧
    (operand s src (s.clock + baseCycles (.sbc src)) = .error f → exec (.sbc src) s = .fault f))

/-- What the sum's flags mean over the integers: C of ADC is the unsigned carry and V the signed overflow; C of SBC is the
absence of a borrow and V the signed overflow of the difference (R220). -/
def Obligations.CarryAndOverflow : Prop :=
  ∀ (a m : Byte) (c : Bool),
    ((addCarry a m c).value.toNat = (a.toNat + m.toNat + c.toNat) % 256) ∧
    ((addCarry a m c).carry = true ↔ 256 ≤ a.toNat + m.toNat + c.toNat) ∧
    ((addCarry a m c).overflow = true ↔
      a.toInt + m.toInt + (c.toNat : Int) < -128 ∨ 127 < a.toInt + m.toInt + (c.toNat : Int)) ∧
    (((subBorrow a m c).value.toNat : Int) = ((a.toNat : Int) - m.toNat - (1 - c.toNat)) % 256) ∧
    ((subBorrow a m c).carry = true ↔ m.toNat + (1 - c.toNat) ≤ a.toNat) ∧
    ((subBorrow a m c).overflow = true ↔
      a.toInt - m.toInt - (1 - (c.toNat : Int)) < -128 ∨ 127 < a.toInt - m.toInt - (1 - (c.toNat : Int)))

/-- `DECIMAL_MODE`: under `refused`, ADC and SBC with D = 1 stop, in every form; under `ignored`, D makes no difference to them;
and no other instruction ever stops for D (R221). -/
def Obligations.DecimalMode : Prop :=
  (∀ (s : State) (src : Source), s.params.decimal = .refused → s.d = true →
    exec (.adc src) s = .fault .decimalUnmodelled ∧ exec (.sbc src) s = .fault .decimalUnmodelled) ∧
  (∀ (s s' : State) (src : Source) (b : Bool), s.params.decimal = .ignored →
    (exec (.adc src) s = .next s' → exec (.adc src) { s with d := b } = .next { s' with d := b }) ∧
    (exec (.sbc src) s = .next s' → exec (.sbc src) { s with d := b } = .next { s' with d := b })) ∧
  (∀ (i : Instr) (s : State), exec i s = .fault .decimalUnmodelled →
    (∃ src, i = .adc src ∨ i = .sbc src) ∧ s.params.decimal = .refused ∧ s.d = true)

/-- AND, ORA, EOR and BIT in every form (R202-R204, R208). -/
def Obligations.LogicAndBit : Prop :=
  AccForms .and 0x29 0x25 0x35 0x2D 0x3D 0x39 0x21 0x31 ∧ AccForms .ora 0x09 0x05 0x15 0x0D 0x1D 0x19 0x01 0x11 ∧
  AccForms .eor 0x49 0x45 0x55 0x4D 0x5D 0x59 0x41 0x51 ∧
  (Encodes2 0x24 (fun z => .bit (.zp z)) 3 ∧ Encodes3 0x2C (fun a => .bit (.abs a)) 4) ∧
  (∀ (s s1 : State) (src : Source) (m r : Byte), operand s src (s.clock + baseCycles (.and src)) = .ok (m, s1) →
    r = s.a &&& m →
    exec (.and src) s =
      .next { fellThrough s s1 (.and src) (readExtra s src) with a := r, n := r.getLsbD 7, z := r == 0x00 }) ∧
  (∀ (s s1 : State) (src : Source) (m r : Byte), operand s src (s.clock + baseCycles (.ora src)) = .ok (m, s1) →
    r = s.a ||| m →
    exec (.ora src) s =
      .next { fellThrough s s1 (.ora src) (readExtra s src) with a := r, n := r.getLsbD 7, z := r == 0x00 }) ∧
  (∀ (s s1 : State) (src : Source) (m r : Byte), operand s src (s.clock + baseCycles (.eor src)) = .ok (m, s1) →
    r = s.a ^^^ m →
    exec (.eor src) s =
      .next { fellThrough s s1 (.eor src) (readExtra s src) with a := r, n := r.getLsbD 7, z := r == 0x00 }) ∧
  (∀ (s s1 : State) (mode : MemMode) (m : Byte), mode.bitForm = true →
    memRead s (effAddr s mode).addr (s.clock + baseCycles (.bit mode)) = .ok (m, s1) →
    exec (.bit mode) s =
      .next { fellThrough s s1 (.bit mode) 0 with
        z := s.a &&& m == 0x00, n := m.getLsbD 7, v := m.getLsbD 6 }) ∧
  (∀ (s : State) (src : Source) (mode : MemMode) (f : Fault),
    (operand s src (s.clock + baseCycles (.and src)) = .error f → exec (.and src) s = .fault f) ∧
    (operand s src (s.clock + baseCycles (.ora src)) = .error f → exec (.ora src) s = .fault f) ∧
    (operand s src (s.clock + baseCycles (.eor src)) = .error f → exec (.eor src) s = .fault f) ∧
    (memRead s (effAddr s mode).addr (s.clock + baseCycles (.bit mode)) = .error f → exec (.bit mode) s = .fault f))

/-- CMP, CPX and CPY in every form: C, Z and N from the unsigned comparison and the difference; V and the registers unchanged
(R205-R207). -/
def Obligations.Compares : Prop :=
  AccForms .cmp 0xC9 0xC5 0xD5 0xCD 0xDD 0xD9 0xC1 0xD1 ∧
  (Encodes2 0xE0 (fun v => .cpx (.imm v)) 2 ∧ Encodes2 0xE4 (fun z => .cpx (.mem (.zp z))) 3 ∧
    Encodes3 0xEC (fun a => .cpx (.mem (.abs a))) 4) ∧
  (Encodes2 0xC0 (fun v => .cpy (.imm v)) 2 ∧ Encodes2 0xC4 (fun z => .cpy (.mem (.zp z))) 3 ∧
    Encodes3 0xCC (fun a => .cpy (.mem (.abs a))) 4) ∧
  (∀ (s s1 : State) (src : Source) (m : Byte), operand s src (s.clock + baseCycles (.cmp src)) = .ok (m, s1) →
    exec (.cmp src) s =
      .next { fellThrough s s1 (.cmp src) (readExtra s src) with
        c := decide (m.toNat ≤ s.a.toNat), z := s.a == m, n := (s.a - m).getLsbD 7 }) ∧
  (∀ (s s1 : State) (src : Source) (m : Byte), operand s src (s.clock + baseCycles (.cpx src)) = .ok (m, s1) →
    exec (.cpx src) s =
      .next { fellThrough s s1 (.cpx src) (readExtra s src) with
        c := decide (m.toNat ≤ s.x.toNat), z := s.x == m, n := (s.x - m).getLsbD 7 }) ∧
  (∀ (s s1 : State) (src : Source) (m : Byte), operand s src (s.clock + baseCycles (.cpy src)) = .ok (m, s1) →
    exec (.cpy src) s =
      .next { fellThrough s s1 (.cpy src) (readExtra s src) with
        c := decide (m.toNat ≤ s.y.toNat), z := s.y == m, n := (s.y - m).getLsbD 7 }) ∧
  (∀ (s : State) (src : Source) (f : Fault),
    (operand s src (s.clock + baseCycles (.cmp src)) = .error f → exec (.cmp src) s = .fault f) ∧
    (operand s src (s.clock + baseCycles (.cpx src)) = .error f → exec (.cpx src) s = .fault f) ∧
    (operand s src (s.clock + baseCycles (.cpy src)) = .error f → exec (.cpy src) s = .fault f))

/-- INC and DEC on memory in every form: one read and one write of the result, both at t_d, then N and Z; C and V unchanged.
An access that the sound chip's buffer refuses stops with that reason (R209, R210, R219). -/
def Obligations.IncDecMemory : Prop :=
  RmwForms .inc 0xE6 0xF6 0xEE 0xFE ∧ RmwForms .dec 0xC6 0xD6 0xCE 0xDE ∧
  (∀ (s s1 s2 : State) (m : RmwMode) (old v : Byte),
    memRead s (effAddr s (rmwToMem m)).addr (s.clock + baseCycles (.inc m)) = .ok (old, s1) → v = old + 1 →
    memWrite s1 (effAddr s (rmwToMem m)).addr v (s.clock + baseCycles (.inc m)) = .ok s2 →
    exec (.inc m) s = .next { fellThrough s s2 (.inc m) 0 with n := v.getLsbD 7, z := v == 0x00 }) ∧
  (∀ (s s1 s2 : State) (m : RmwMode) (old v : Byte),
    memRead s (effAddr s (rmwToMem m)).addr (s.clock + baseCycles (.dec m)) = .ok (old, s1) → v = old - 1 →
    memWrite s1 (effAddr s (rmwToMem m)).addr v (s.clock + baseCycles (.dec m)) = .ok s2 →
    exec (.dec m) s = .next { fellThrough s s2 (.dec m) 0 with n := v.getLsbD 7, z := v == 0x00 }) ∧
  (∀ (s s1 : State) (m : RmwMode) (old : Byte) (f : Fault),
    (memRead s (effAddr s (rmwToMem m)).addr (s.clock + baseCycles (.inc m)) = .error f ∨
      memRead s (effAddr s (rmwToMem m)).addr (s.clock + baseCycles (.inc m)) = .ok (old, s1) ∧
        memWrite s1 (effAddr s (rmwToMem m)).addr (old + 1) (s.clock + baseCycles (.inc m)) = .error f →
      exec (.inc m) s = .fault f) ∧
    (memRead s (effAddr s (rmwToMem m)).addr (s.clock + baseCycles (.dec m)) = .error f ∨
      memRead s (effAddr s (rmwToMem m)).addr (s.clock + baseCycles (.dec m)) = .ok (old, s1) ∧
        memWrite s1 (effAddr s (rmwToMem m)).addr (old - 1) (s.clock + baseCycles (.dec m)) = .error f →
      exec (.dec m) s = .fault f))

/-- ASL, LSR, ROL and ROR on A and on memory: the result, the bit shifted out in C, N and Z; the rotates shift the old C in
(R215-R218, R169, R219). -/
def Obligations.ShiftsAndRotates : Prop :=
  (Encodes1 0x0A (.asl .acc) 2 ∧ RmwForms (fun m => .asl (.mem m)) 0x06 0x16 0x0E 0x1E) ∧
  (Encodes1 0x4A (.lsr .acc) 2 ∧ RmwForms (fun m => .lsr (.mem m)) 0x46 0x56 0x4E 0x5E) ∧
  (Encodes1 0x2A (.rol .acc) 2 ∧ RmwForms (fun m => .rol (.mem m)) 0x26 0x36 0x2E 0x3E) ∧
  (Encodes1 0x6A (.ror .acc) 2 ∧ RmwForms (fun m => .ror (.mem m)) 0x66 0x76 0x6E 0x7E) ∧
  ShiftRule .asl (fun v _ => v <<< 1) 7 ∧ ShiftRule .lsr (fun v _ => v >>> 1) 0 ∧
  ShiftRule .rol (fun v c => (v <<< 1) ||| (BitVec.ofBool c).setWidth 8) 7 ∧
  ShiftRule .ror (fun v c => (v >>> 1) ||| ((BitVec.ofBool c).setWidth 8 <<< 7)) 0

/-! ## Jumps, calls, returns, BRK, branches, flags -/

/-- JMP in both modes; the indirect one reads its high byte within the pointer's 256-byte page (R240, R241). -/
def Obligations.Jumps : Prop :=
  Encodes3 0x4C .jmpAbs 3 ∧ Encodes3 0x6C .jmpInd 5 ∧
  (∀ (s : State) (target : Addr), exec (.jmpAbs target) s = .next { s with pc := target, clock := s.clock + 3 }) ∧
  (∀ (s s1 s2 : State) (ptr : Addr) (lo hi : Byte), memRead s ptr (s.clock + 5) = .ok (lo, s1) →
    memRead s1 ((ptr &&& 0xFF00) ||| ((ptr + 1) &&& 0x00FF)) (s.clock + 5) = .ok (hi, s2) →
    exec (.jmpInd ptr) s = .next { s2 with pc := hi ++ lo, clock := s.clock + 5 }) ∧
  (∀ (s s1 : State) (ptr : Addr) (lo : Byte) (f : Fault),
    memRead s ptr (s.clock + 5) = .error f ∨
      memRead s ptr (s.clock + 5) = .ok (lo, s1) ∧
        memRead s1 ((ptr &&& 0xFF00) ||| ((ptr + 1) &&& 0x00FF)) (s.clock + 5) = .error f →
      exec (.jmpInd ptr) s = .fault f)

/-- JSR and RTS, exactly: the return address is that of JSR's last byte, pushed high byte first, and RTS adds one (R242,
R243). -/
def Obligations.Subroutines : Prop :=
  Encodes3 0x20 .jsr 6 ∧ Encodes1 0x60 .rts 6 ∧
  (∀ (s : State) (target : Addr),
    exec (.jsr target) s =
      .next { s with
        ram := (s.ram.write (0x100 + s.sp.toNat) (hiByte (s.pc + 2))).write (0x100 + (s.sp - 1).toNat) (loByte (s.pc + 2))
        sp := s.sp - 2, pc := target, clock := s.clock + 6 }) ∧
  (∀ (s : State) (lo hi : Byte), s.ram.read (0x100 + (s.sp + 1).toNat) = lo →
    s.ram.read (0x100 + (s.sp + 2).toNat) = hi →
    exec .rts s = .next { s with sp := s.sp + 2, pc := (hi ++ lo) + 1, clock := s.clock + 6 })

/-- BRK and RTI, exactly: BRK pushes PC + 2 and `PackP(1)`, sets I and goes where the vector at 0xFFFE shows, through the memory
map; RTI takes the six flags and PC from the stack, adding nothing. A BRK fetched from 0xFFFE is executed, its return address
being 0x0000; one fetched from 0xFFFF is a wraparound and is not (R245, R402, R244). -/
def Obligations.BreakAndReturn : Prop :=
  Encodes1 0x00 .brk 7 ∧ Encodes1 0x40 .rti 6 ∧
  (∀ s : State,
    exec .brk s =
      .next { s with
        ram := ((s.ram.write (0x100 + s.sp.toNat) (hiByte (s.pc + 2))).write (0x100 + (s.sp - 1).toNat)
          (loByte (s.pc + 2))).write (0x100 + (s.sp - 2).toNat) (s.packP true)
        sp := s.sp - 3, i := true, pc := s.peek 0xFFFF ++ s.peek 0xFFFE, clock := s.clock + 7 }) ∧
  (∀ (s : State) (p lo hi : Byte), s.ram.read (0x100 + (s.sp + 1).toNat) = p →
    s.ram.read (0x100 + (s.sp + 2).toNat) = lo → s.ram.read (0x100 + (s.sp + 3).toNat) = hi →
    exec .rti s =
      .next { s with
        n := p.getLsbD 7, v := p.getLsbD 6, d := p.getLsbD 3, i := p.getLsbD 2, z := p.getLsbD 1, c := p.getLsbD 0
        sp := s.sp + 3, pc := hi ++ lo, clock := s.clock + 6 }) ∧
  (∀ s s1 : State, memRead s s.pc s.clock = .ok (0x00, s1) →
    (s.pc = 0xFFFE → cpuStep s = andThen (exec .brk s1) fun s' => .next (.ok, s')) ∧
    (s.pc = 0xFFFF →
      cpuStep s =
        .next (.wrap, { s1 with corrupt := true, warning := some .pcWrap, pc := 0x0000, clock := s.clock + 2 })))

/-- A subroutine that leaves RAM and S as JSR left them returns to the instruction after the JSR with S restored; a BRK handler
that does so returns by RTI to the BRK's address plus 2 with S and all six flags restored (R242-R245, R402). -/
def Obligations.RoundTrips : Prop :=
  (∀ (s s1 s2 : State) (target : Addr), exec (.jsr target) s = .next s1 → s2.ram = s1.ram → s2.sp = s1.sp →
    ∃ s3, exec .rts s2 = .next s3 ∧ s3.pc = s.pc + 3 ∧ s3.sp = s.sp) ∧
  (∀ s s1 s2 : State, exec .brk s = .next s1 → s2.ram = s1.ram → s2.sp = s1.sp →
    ∃ s3, exec .rti s2 = .next s3 ∧ s3.pc = s.pc + 2 ∧ s3.sp = s.sp ∧ s3.n = s.n ∧ s3.v = s.v ∧ s3.d = s.d ∧
      s3.i = s.i ∧ s3.z = s.z ∧ s3.c = s.c)

/-- The eight branches: relative to PC_next, 2 clocks, 1 more if taken, 1 more if taken to another page; no flag is written
(R246-R254). -/
def Obligations.Branches : Prop :=
  (Encodes2 0x10 .bpl 2 ∧ Encodes2 0x30 .bmi 2 ∧ Encodes2 0x50 .bvc 2 ∧ Encodes2 0x70 .bvs 2 ∧ Encodes2 0x90 .bcc 2 ∧
    Encodes2 0xB0 .bcs 2 ∧ Encodes2 0xD0 .bne 2 ∧ Encodes2 0xF0 .beq 2) ∧
  (∀ (s : State) (rel : Byte),
    exec (.bpl rel) s = .next (branchTo s (!s.n) rel) ∧ exec (.bmi rel) s = .next (branchTo s s.n rel) ∧
    exec (.bvc rel) s = .next (branchTo s (!s.v) rel) ∧ exec (.bvs rel) s = .next (branchTo s s.v rel) ∧
    exec (.bcc rel) s = .next (branchTo s (!s.c) rel) ∧ exec (.bcs rel) s = .next (branchTo s s.c rel) ∧
    exec (.bne rel) s = .next (branchTo s (!s.z) rel) ∧ exec (.beq rel) s = .next (branchTo s s.z rel))

/-- The flag instructions and NOP (R255-R262). -/
def Obligations.FlagInstructions : Prop :=
  (Encodes1 0x18 .clc 2 ∧ Encodes1 0x38 .sec 2 ∧ Encodes1 0x58 .cli 2 ∧ Encodes1 0x78 .sei 2 ∧ Encodes1 0xB8 .clv 2 ∧
    Encodes1 0xD8 .cld 2 ∧ Encodes1 0xF8 .sed 2 ∧ Encodes1 0xEA .nop 2) ∧
  (∀ s : State,
    exec .clc s = .next { s with c := false, pc := s.pc + 1, clock := s.clock + 2 } ∧
    exec .sec s = .next { s with c := true, pc := s.pc + 1, clock := s.clock + 2 } ∧
    exec .cli s = .next { s with i := false, pc := s.pc + 1, clock := s.clock + 2 } ∧
    exec .sei s = .next { s with i := true, pc := s.pc + 1, clock := s.clock + 2 } ∧
    exec .clv s = .next { s with v := false, pc := s.pc + 1, clock := s.clock + 2 } ∧
    exec .cld s = .next { s with d := false, pc := s.pc + 1, clock := s.clock + 2 } ∧
    exec .sed s = .next { s with d := true, pc := s.pc + 1, clock := s.clock + 2 } ∧
    exec .nop s = .next { s with pc := s.pc + 1, clock := s.clock + 2 })

/-! ## Frames, for every instruction -/

/-- A flag changes only if R30's table names the instruction as writing it. -/
def Obligations.FlagFrame : Prop :=
  ∀ (i : Instr) (s s' : State), exec i s = .next s' →
    (writesNZ i = false → s'.n = s.n ∧ s'.z = s.z) ∧ (writesV i = false → s'.v = s.v) ∧
    (writesD i = false → s'.d = s.d) ∧ (writesI i = false → s'.i = s.i) ∧ (writesC i = false → s'.c = s.c)

/-- A, X, Y and S change only in the instructions whose rules write them: S in TXS and whatever pushes or pulls. -/
def Obligations.RegisterFrame : Prop :=
  ∀ (i : Instr) (s s' : State), exec i s = .next s' →
    (writesA i = false → s'.a = s.a) ∧ (writesX i = false → s'.x = s.x) ∧ (writesY i = false → s'.y = s.y) ∧
    (writesS i = false → s'.sp = s.sp)

/-- Every byte shows what it showed, but for the bytes the instruction stores to, computed from the state before it with the
meaning's own address functions, with their mirrors, and for the window of a bank register it stores to. An instruction that
stores nothing changes no byte. -/
def Obligations.MemoryFrame : Prop :=
  ∀ (i : Instr) (s s' : State), exec i s = .next s' →
    s'.rom = s.rom ∧
    (∀ b : Addr, (∀ a ∈ storedTo s i, sameCell a b = false ∧ inWindowOf a b = false) → s'.peek b = s.peek b) ∧
    (storedTo s i = [] → s'.ram = s.ram ∧ s'.sram = s.sram)

/-- The APU changes only through the addresses of the sound chip, the bank registers only through theirs, `corrupt` only in an
illegal opcode and the warning slot there or at a bank register; and no instruction touches the Coordinator, the interrupt
inputs, the header or the parameters. -/
def Obligations.DeviceFrame : Prop :=
  ∀ (i : Instr) (s s' : State), exec i s = .next s' →
    ((∀ a ∈ storedTo s i, isApuWrite a = false) → s'.apuLog = s.apuLog ∧
      ((∀ a ∈ readFrom s i, a ≠ apuStatusAddr) → s'.sound = s.sound)) ∧
    ((∀ a ∈ storedTo s i, isBankRegister a = false) → s'.bank = s.bank ∧ (isIllegal i = false → s'.warning = s.warning)) ∧
    (isIllegal i = false → s'.corrupt = s.corrupt) ∧
    s'.mode = s.mode ∧ s'.inRoutine = s.inRoutine ∧ s'.nextPlay = s.nextPlay ∧ s'.playPeriod = s.playPeriod ∧
    s'.tempo = s.tempo ∧ s'.mute = s.mute ∧ s'.track = s.track ∧ s'.rateSet = s.rateSet ∧ s'.sampleRate = s.sampleRate ∧
    s'.header = s.header ∧ s'.params = s.params ∧ s'.irqLine = s.irqLine ∧ s'.nmiPending = s.nmiPending ∧
    s'.activity = s.activity ∧ s'.calls = s.calls ∧ s'.answers = s.answers

/-! ## The APU and the synthesis buffer -/

/-- `RunTo(t)` catches every voice up to t in turn and sets apu_time to t. Catching up voice i, while its due time is at most t:
its oscillator advances, the voice is emitted at that due time, the due time moves on by the delay, and so on from there; a voice
due after t, or never (an infinite delay has no due time: log entry 12), is left as it is. Afterwards every due time lies beyond
t, and nothing but the oscillators, their due times, the levels and the deltas has changed (R305). -/
def Obligations.RunToCatchesUp : Prop :=
  (∀ (env : SoundEnv) (t : Int) (w : Sound),
    runTo env t w =
      (runVoices env t 0 w.voices w).map fun r => { r.2 with voices := r.1, apuTime := t }) ∧
  (∀ (env : SoundEnv) (t : Int) (i : Nat) (w : Sound), runVoices env t i [] w = .ok ([], w)) ∧
  (∀ (env : SoundEnv) (t : Int) (i : Nat) (v : Voice) (vs : List Voice) (w : Sound),
    runVoices env t i (v :: vs) w =
      (catchUp env i t v w).bind fun r => (runVoices env t (i + 1) vs r.2).map fun q => (r.1 :: q.1, q.2)) ∧
  (∀ (env : SoundEnv) (i : Nat) (t due : Int) (v : Voice) (w : Sound), v.due = some due → due ≤ t →
    catchUp env i t v w =
      (emit env i due { v with osc := (env.chip.advance i v.osc).1 } w).bind fun r =>
        catchUp env i t
          { r.1 with due := (env.chip.advance i v.osc).2.map fun (delay : ℕ+) => due + ((delay : Nat) : Int) } r.2) ∧
  (∀ (env : SoundEnv) (i : Nat) (t : Int) (v : Voice) (w : Sound), (∀ due : Int, v.due = some due → t < due) →
    catchUp env i t v w = .ok (v, w)) ∧
  ∀ (env : SoundEnv) (t : Int) (w w' : Sound), runTo env t w = .ok w' →
    w'.apuTime = t ∧ (∀ v ∈ w'.voices, ∀ due : Int, v.due = some due → t < due) ∧
    w'.origin = w.origin ∧ w'.avail = w.avail ∧ w'.left.integ = w.left.integ ∧ w'.right.integ = w.right.integ ∧
    w'.voices.map Voice.outL = w.voices.map Voice.outL ∧ w'.voices.map Voice.outR = w.voices.map Voice.outR

/-- The APU never runs ahead of the CPU's clock, so the block never raises `ApuTimeOrder`; a call from outside with an earlier
clock does (R308). -/
def Obligations.ApuBehindCpuKept : Prop :=
  (∀ s s' : State, ApuBehindCpu s → step s = .next s' → ApuBehindCpu s') ∧
  (∀ s : State, ApuBehindCpu s → step s ≠ .fault .apuTimeOrder) ∧
  (∀ (env : SoundEnv) (c : Int) (reg : Nat) (v openBus : Byte) (w : Sound), c < w.apuTime →
    apuWrite env c reg v w = .error .apuTimeOrder ∧
      apuRead env openBus c reg w = .error .apuTimeOrder)

/-- The level invariant (R310, R324) and the confirmed samples' place before the origin (R328) are kept by every step, for every
chip, kernel and gain; and so is the canonical form of the delta arrays (`BuffersOk`), which is no rule of the spec but the
model's own representation (DEDUCED, log entry 17). -/
def Obligations.SoundInvariantKept : Prop :=
  ∀ s s' : State, BuffersOk s.sound → LevelOk s.sound → AvailOk s.sound → step s = .next s' →
    BuffersOk s'.sound ∧ LevelOk s'.sound ∧ AvailOk s'.sound

/-- `AddDelta` (R321, R322): outside the unconfirmed window it is refused; inside it, the W entries from k(t) on take the delta
times the kernel, whose sum is 1 (R324), and nothing else changes. -/
def Obligations.AddDelta : Prop :=
  (∀ (env : SoundEnv) (b : Side) (t : Int) (d : Rat) (w : Sound) (k : Int) (phi : Rat) (width : Nat),
    k = ⌊w.origin + (t : Rat) * env.ratio⌋ → phi = w.origin + (t : Rat) * env.ratio - (k : Rat) →
    width = kernelWidth env.kernel →
    ((k < (w.avail : Int) ∨ (env.capacity : Int) + width < k + width) → addDelta env b t d w = .error .bufferHorizon) ∧
    (¬(k < (w.avail : Int) ∨ (env.capacity : Int) + width < k + width) →
      ∃ w', addDelta env b t d w = .ok w' ∧
        w' = w.setBuffer b { w.buffer b with acc := (w'.buffer b).acc } ∧
        ∀ n : Nat, sparseRead 0 (w'.buffer b).acc n =
          sparseRead 0 (w.buffer b).acc n +
            (if k ≤ n ∧ (n : Int) < k + width then d * kernelTap env.kernel phi ((n : Int) - k).toNat else 0))) ∧
  (∀ (ker : Kernel) (phi : Rat), ((List.range (kernelWidth ker)).map fun j => kernelTap ker phi j).sum = 1)

/-- `Emit` writes only changes of level: a voice whose level has not changed, and a muted voice, add no delta; a routed voice's
last level becomes its amplitude times its weight, a muted one's is held (R304, R332, R333). -/
def Obligations.EmitOnlyChanges : Prop :=
  (∀ (env : SoundEnv) (i : Nat) (t : Int) (v : Voice) (w : Sound),
    (∀ b, v.out b = true → v.last b = (env.chip.amp i v.osc : Rat) * ((env.chip.weight i v.osc b : ℚ≥0) : Rat)) →
    emit env i t v w = .ok (v, w)) ∧
  (∀ (env : SoundEnv) (i : Nat) (t : Int) (v v' : Voice) (w w' : Sound), emit env i t v w = .ok (v', w') →
    v'.osc = v.osc ∧ v'.due = v.due ∧ v'.outL = v.outL ∧ v'.outR = v.outR ∧
    (∀ b, v'.last b =
      if v.out b = true then (env.chip.amp i v.osc : Rat) * ((env.chip.weight i v.osc b : ℚ≥0) : Rat) else v.last b))

/-- `ReadSamples(n)`: more than is confirmed is refused. Otherwise value 2k is sample k of the left buffer and value 2k + 1 that
of the right, each the buffer's level after entries 0 to k, scaled, floored and saturated; the integrators have taken in n
entries, the delta arrays have moved down by n, `origin` and `avail` have dropped by n, and nothing else has changed (R326,
R335). Reading n1 and then n2 samples gives the same sequence and the same state as reading n1 + n2 at once (R327). -/
def Obligations.ReadOut : Prop :=
  (∀ (gain : Rat) (n : Nat) (w : Sound), w.avail < n → readSamples gain n w = .error .readPastConfirmed) ∧
  (∀ (gain : Rat) (n : Nat) (w : Sound), n ≤ w.avail →
    ∃ pcm w', readSamples gain n w = .ok (pcm, w') ∧ pcm.length = 2 * n ∧ (∀ x ∈ pcm, -32768 ≤ x ∧ x ≤ 32767) ∧
      (∀ k, k < n →
        pcm[2 * k]? = some (max (-32768) (min 32767 ⌊levelAfter w.left (k + 1) * gain⌋)) ∧
        pcm[2 * k + 1]? = some (max (-32768) (min 32767 ⌊levelAfter w.right (k + 1) * gain⌋))) ∧
      (∀ b, (w'.buffer b).integ = levelAfter (w.buffer b) n ∧
        ∀ j, sparseRead 0 (w'.buffer b).acc j = sparseRead 0 (w.buffer b).acc (j + n)) ∧
      w'.origin = w.origin - n ∧ w'.avail = w.avail - n ∧ w'.apuTime = w.apuTime ∧ w'.voices = w.voices) ∧
  (∀ (gain : Rat) (n1 n2 : Nat) (w w1 w2 : Sound) (p1 p2 : List Int), readSamples gain n1 w = .ok (p1, w1) →
    readSamples gain n2 w1 = .ok (p2, w2) → readSamples gain (n1 + n2) w = .ok (p1 ++ p2, w2))

/-- The spec's own example of the reference tone (R340-R343): V = 8 and P = 9 written at clock 0, then a frame of 25 clocks,
gives deltas at 1, 11 and 21 in both buffers; the sample ratio here is 1, so that a sample's index is its clock. -/
def Obligations.RefToneExample : Prop :=
  ∀ env : SoundEnv, env = { chip := refTone, kernel := referenceKernel, ratio := 1, capacity := 100 } →
    ((apuWrite env 0 2 8 (freshSound refTone) >>= apuWrite env 0 0 9 >>= apuEndFrame env 25).map fun w =>
      (w.left.acc, w.right.acc, w.voices.map Voice.due, w.apuTime)) =
    .ok ([(1, 8), (11, -8), (21, 8)], [(1, 8), (11, -8), (21, 8)], [some 6], 0)

/-! ## The Coordinator -/

/-- The reset state meets every invariant of the model. The model's reset header is a design choice (log entry 2). -/
def Obligations.InvariantsAtReset : Prop :=
  MemoryOk State.reset ∧ ApuBehindCpu State.reset ∧ LinesQuiet State.reset ∧ TempoOk State.reset ∧
    BuffersOk State.reset.sound ∧ LevelOk State.reset.sound ∧ AvailOk State.reset.sound

/-- Steps 1-6 of start_track, exactly; what they leave does not depend on what the track before left, and doing them twice is
doing them once (R352, R367). Two clauses are the model's choice and no words of R352: that RAM holds the loader's file data
besides zeros and the sentinel (R452; its form is log entry 21), and that a latched NMI is cleared while the level of the IRQ
input stays (log entry 25). -/
def Obligations.StartTrackResets : Prop :=
  (∀ (s : State) (n : Nat),
    startTrackSteps s n =
      .ok { s with
        a := BitVec.ofNat 8 n, x := 0x00, y := 0x00, sp := 0xFD, pc := s.header.initAddr
        n := false, v := false, d := false, z := false, c := false, i := true
        clock := 0, corrupt := false, warning := none, nmiPending := false
        ram := ((loadedRam s.header.ramData).write 0x1FF 0x5F).write 0x1FE 0xF5, sram := [], bank := s.header.bankInit
        sound := freshSound (chipOf s.params.chip)
        track := n, mute := 0, playPeriod := max 1 ⌊(s.header.basePlayPeriod : Rat) / s.tempo⌋.toNat, nextPlay := 0
        inRoutine := some .init, mode := .trackStarted }) ∧
  (∀ (s t : State) (n : Nat), startTrackSteps s n = .ok t → startTrackSteps t n = .ok t)

/-- The sentinel: a routine entered with it on the stack and ended by RTS, S and the stack as it found them, leaves PC at
IDLE_ADDR and S where it was; and a boundary there answers `Idle` without fetching, whatever the clock (R353, R140). -/
def Obligations.SentinelReturn : Prop :=
  (∀ s s1 s2 : State, pushSentinel s = .ok s1 → s2.ram = s1.ram → s2.sp = s1.sp →
    ∃ s3, exec .rts s2 = .next s3 ∧ s3.pc = idleAddr ∧ s3.sp = s.sp) ∧
  (∀ (s : State) (endClock : Option Int), s.mode ≠ .idle → s.pc = idleAddr → boundary endClock s = .next (some .idle, s))

/-- The Coordinator's turns: a play entry that is due, with its clamp and warning when late by a period; the idle advance; the
routine's return, after init as the first play's time; the frame's end, where every time reference drops by T, the APU's by
`apuEndFrame`, which ApuCalls states in full; and, under a finite INIT_LIMIT that the clock has come to, the end of RunInit with
the warning `InitTimeout`, the answer `Ok`, and the init routine still the one in progress (R354-R359). -/
def Obligations.FrameLoop : Prop :=
  (∀ (s : State) (length : ℕ+) (need : Option Nat), s.activity = .frame length need → s.inRoutine = none →
    s.clock < ((length : Nat) : Int) → s.mode ≠ .idle →
    (s.nextPlay ≤ s.clock →
      step s =
        .next { s with
          nextPlay := if s.nextPlay + s.playPeriod ≤ s.clock then s.clock + s.playPeriod else s.nextPlay + s.playPeriod
          warning := if s.nextPlay + s.playPeriod ≤ s.clock then some .playOverrun else s.warning
          ram := (s.ram.write (0x100 + s.sp.toNat) 0x5F).write (0x100 + (s.sp - 1).toNat) 0xF5
          sp := s.sp - 2, pc := s.header.playAddr, inRoutine := some .play }) ∧
    (s.clock < s.nextPlay → step s = .next { s with clock := min s.nextPlay ((length : Nat) : Int) })) ∧
  (∀ (s : State) (length : ℕ+) (need : Option Nat) (w : Sound), s.activity = .frame length need →
    ((length : Nat) : Int) ≤ s.clock → s.mode ≠ .idle → (s.inRoutine = none ∨ s.pc ≠ idleAddr) →
    apuEndFrame s.soundEnv ((length : Nat) : Int) s.sound = .ok w →
    step s =
      .next { s with
        clock := s.clock - ((length : Nat) : Int), nextPlay := s.nextPlay - ((length : Nat) : Int), sound := w
        mode := .frameBoundary
        activity := need.elim .waiting .playLoop
        answers := if need = none then s.answers ++ [.ok] else s.answers }) ∧
  (∀ (s : State) (length : ℕ+) (need : Option Nat), s.activity = .frame length need → s.inRoutine ≠ none →
    s.mode ≠ .idle → s.pc = idleAddr →
    step s =
      .next { s with nextPlay := if s.inRoutine = some .init then s.clock else s.nextPlay, inRoutine := none }) ∧
  (∀ s : State, s.activity = .initRun → s.mode ≠ .idle → s.pc = idleAddr →
    step s =
      .next { s with
        nextPlay := s.clock, inRoutine := none, activity := .waiting, answers := s.answers ++ [.ok] }) ∧
  (∀ (s : State) (limit : Int), s.activity = .initRun → s.mode ≠ .idle → s.pc ≠ idleAddr →
    s.params.initLimit = some limit → limit ≤ s.clock →
    step s = .next { s with warning := some .initTimeout, activity := .waiting, answers := s.answers ++ [.ok] })

/-- The tempo stays in [0.02, 4] and the play period at one clock or more; set_tempo clamps, and rescales the period by
R361's formula without moving the next play entry (R350, R361, R362). -/
def Obligations.TempoOkKept : Prop :=
  (∀ s s' : State, TempoOk s → step s = .next s' → TempoOk s') ∧
  (∀ (s : State) (t : Rat),
    setTempo s t =
      { s with
        tempo := max (1 / 50) (min 4 t)
        playPeriod := max 1 ⌊(s.header.basePlayPeriod : Rat) / max (1 / 50) (min 4 t)⌋.toNat })

/-- What each host call does. Misused or out of range, it is answered with its error and changes nothing but the lists of calls
and answers (R365, R366, R368). Accepted, start_track does its steps 1-6 and goes on to RunInit (R352); end_frame sets mode
Running and the outputs and begins its loop (R355); play begins its loop (R368); set_tempo sets tempo and period (R362);
set_sample_rate sets the rate (R365); mute_voice sets its voice's bit (R366); and warning answers the slot without clearing it
(R364). With no call pending nothing happens. The lists of calls and answers are the model's own (log entry 6), and that play
checks the count before the mode is DEDUCED (log entry 20). -/
def Obligations.HostAnswers : Prop :=
  ∀ (s : State) (rest : List HostCall), s.activity = .waiting →
    (∀ rate, s.calls = .setSampleRate rate :: rest →
      step s =
        if s.rateSet = true then
          .next { s with calls := rest, answers := s.answers ++ [.error (.misuse .sampleRateTwice)] }
        else .next { s with calls := rest, rateSet := true, sampleRate := rate, answers := s.answers ++ [.ok] }) ∧
    (∀ n, s.calls = .startTrack n :: rest → s.rateSet = false →
      step s = .next { s with calls := rest, answers := s.answers ++ [.error (.misuse .sampleRateUnset)] }) ∧
    (∀ n, s.calls = .startTrack n :: rest → s.rateSet = true → (s.header.trackCount ≤ n ∨ 255 < n) →
      step s = .next { s with calls := rest, answers := s.answers ++ [.error .badTrack] }) ∧
    (∀ length, s.calls = .endFrame length :: rest → s.mode = .idle →
      step s = .next { s with calls := rest, answers := s.answers ++ [.error (.misuse .playBeforeStart)] }) ∧
    (∀ count : Int, s.calls = .play count :: rest → 0 ≤ count → count % 2 = 0 → s.mode = .idle →
      step s = .next { s with calls := rest, answers := s.answers ++ [.error (.misuse .playBeforeStart)] }) ∧
    (∀ count : Int, s.calls = .play count :: rest → (count < 0 ∨ count % 2 ≠ 0) →
      step s = .next { s with calls := rest, answers := s.answers ++ [.error (.misuse .oddCount)] }) ∧
    (∀ i on, s.calls = .muteVoice i on :: rest → (chipOf s.params.chip).voices ≤ i →
      step s = .next { s with calls := rest, answers := s.answers ++ [.error .badVoice] }) ∧
    (∀ i on, s.calls = .muteVoice i on :: rest → i < (chipOf s.params.chip).voices →
      ∃ mask : Nat, step s = .next { s with calls := rest, mute := mask, answers := s.answers ++ [.ok] } ∧
        ∀ j, mask.testBit j = if j = i then on else s.mute.testBit j) ∧
    (s.calls = .warning :: rest →
      step s = .next { s with calls := rest, answers := s.answers ++ [.warning s.warning] }) ∧
    (∀ n, s.calls = .startTrack n :: rest → s.rateSet = true → n < s.header.trackCount → n ≤ 255 →
      ∃ t, startTrackSteps { s with calls := rest } n = .ok t ∧ step s = .next { t with activity := .initRun }) ∧
    (∀ length, s.calls = .endFrame length :: rest → s.mode ≠ .idle →
      step s =
        .next { s with
          calls := rest, mode := .running, sound := setOutputs s.mute s.sound, activity := .frame length none }) ∧
    (∀ count : Int, s.calls = .play count :: rest → 0 ≤ count → count % 2 = 0 → s.mode ≠ .idle →
      step s = .next { s with calls := rest, activity := .playLoop (count / 2).toNat }) ∧
    (∀ t : Rat, s.calls = .setTempo t :: rest →
      step s =
        .next { s with
          calls := rest, answers := s.answers ++ [.ok], tempo := max (1 / 50) (min 4 t)
          playPeriod := max 1 ⌊(s.header.basePlayPeriod : Rat) / max (1 / 50) (min 4 t)⌋.toNat }) ∧
    (s.calls = [] → step s = .next s)

/-- The loop of `play` (R368): while fewer than `need` pairs are confirmed, one more frame of the least length that confirms the
target; then exactly `need` pairs, and reading them is never refused. -/
def Obligations.PlayLoop : Prop :=
  (∀ (s : State) (need : Nat), s.activity = .playLoop need → s.sound.avail < need →
    step s =
      .next { s with
        mode := .running, sound := setOutputs s.mute s.sound
        activity := .frame (frameLength s (min need (s.sound.avail + (s.params.frameSamples : Nat)))) (some need) }) ∧
  (∀ (s : State) (target : Nat) (length : ℕ+),
    (target : Int) ≤ ⌊s.sound.origin + ((length : Nat) : Rat) * s.ratio⌋ ↔ frameLength s target ≤ length) ∧
  (∀ (s : State) (need : Nat), s.activity = .playLoop need → need ≤ s.sound.avail →
    ∃ pcm w, readSamples s.params.gain need s.sound = .ok (pcm, w) ∧ pcm.length = 2 * need ∧
      step s = .next { s with sound := w, activity := .waiting, answers := s.answers ++ [.samples pcm] }) ∧
  (∀ s : State, step s ≠ .fault .readPastConfirmed)

/-! ## The calls of the APU -/

/-- The calls the APU takes. `SetOutputs` routes each voice to both buffers, or to none if its mask bit is set, and changes
nothing else (R334). `ApuWrite` and `ApuRead` run the oscillators up to the clock, then give every voice the oscillator and due
time that the chip's function answers, then emit every voice; a read answers the chip's value of before (R306, R307). Two things
in that are the model's reading, not the spec's words: the chip's functions see the oscillator and due time of every voice and
answer each voice's new ones (DEDUCED, log entry 11), and a read of an undefined register, which answers the open-bus byte,
changes nothing at all, so that not even `RunTo` is run (DEDUCED, log entry 16). Emitting every voice changes no oscillator, takes
each routed voice to amplitude times weight, and puts the sum of the changes of level at the clock into each buffer, by the kernel
(R304, R322). `ApuEndFrame(T)` runs the oscillators up to T, or to apu_time if that is later, and stops where that stops; then it
lowers apu_time and every due time by T and moves the origin on by T times the ratio, and the floor of the new origin is the count
of confirmed samples, unless it exceeds the capacity, which is `BufferHorizon` (R309, R328); as a count it is cut off at 0
(DEDUCED, log entry 17). -/
def Obligations.ApuCalls : Prop :=
  (∀ (mask : Nat) (w : Sound),
    setOutputs mask w =
      { w with voices := w.voices.mapIdx fun i v => { v with outL := !mask.testBit i, outR := !mask.testBit i } }) ∧
  (∀ (env : SoundEnv) (c : Int) (reg : Nat) (v : Byte) (w w1 : Sound), w.apuTime ≤ c → runTo env c w = .ok w1 →
    apuWrite env c reg v w =
      emitAll env c { w1 with
        voices := w1.voices.mapIdx fun i x =>
          { x with
            osc := (env.chip.write i (w1.voices.map Voice.timed) reg v c).osc
            due := (env.chip.write i (w1.voices.map Voice.timed) reg v c).due } }) ∧
  (∀ (env : SoundEnv) (openBus : Byte) (c : Int) (reg : Nat) (w w1 : Sound), w.apuTime ≤ c →
    env.chip.defines reg = true → runTo env c w = .ok w1 →
    apuRead env openBus c reg w =
      (emitAll env c { w1 with
        voices := w1.voices.mapIdx fun i x =>
          { x with
            osc := (env.chip.readEffect i (w1.voices.map Voice.timed) reg c).osc
            due := (env.chip.readEffect i (w1.voices.map Voice.timed) reg c).due } }).map fun w' =>
        (env.chip.readValue (w1.voices.map Voice.timed) reg c, w')) ∧
  (∀ (env : SoundEnv) (openBus : Byte) (c : Int) (reg : Nat) (w : Sound), w.apuTime ≤ c → env.chip.defines reg = false →
    apuRead env openBus c reg w = .ok (openBus, w)) ∧
  (∀ (env : SoundEnv) (length : Int) (w : Sound) (f : Fault), runTo env (max length w.apuTime) w = .error f →
    apuEndFrame env length w = .error f) ∧
  (∀ (env : SoundEnv) (length : Int) (w w1 : Sound) (origin : Rat), runTo env (max length w.apuTime) w = .ok w1 →
    origin = w1.origin + (length : Rat) * env.ratio →
    apuEndFrame env length w =
      if (env.capacity : Int) < ⌊origin⌋ then .error .bufferHorizon
      else .ok { w1 with
        apuTime := w1.apuTime - length
        voices := w1.voices.map fun v => { v with due := v.due.map fun d => d - length }
        origin := origin
        avail := ⌊origin⌋.toNat }) ∧
  (∀ (env : SoundEnv) (t : Int) (w w' : Sound) (k : Int) (phi : Rat), emitAll env t w = .ok w' →
    k = ⌊w.origin + (t : Rat) * env.ratio⌋ → phi = w.origin + (t : Rat) * env.ratio - (k : Rat) →
    w'.apuTime = w.apuTime ∧ w'.origin = w.origin ∧ w'.avail = w.avail ∧
    w'.voices = (w.voices.mapIdx fun i v =>
      { v with
        lastL := if v.outL = true then (env.chip.amp i v.osc : Rat) * ((env.chip.weight i v.osc .left : ℚ≥0) : Rat) else v.lastL
        lastR :=
          if v.outR = true then (env.chip.amp i v.osc : Rat) * ((env.chip.weight i v.osc .right : ℚ≥0) : Rat) else v.lastR }) ∧
    ∀ b, (w'.buffer b).integ = (w.buffer b).integ ∧
      ∀ n : Nat, sparseRead 0 (w'.buffer b).acc n =
        sparseRead 0 (w.buffer b).acc n +
          (if k ≤ n ∧ (n : Int) < k + kernelWidth env.kernel then
            (lastSum w'.voices b - lastSum w.voices b) * kernelTap env.kernel phi ((n : Int) - k).toNat else 0))
end

