-- ==== Sys2Proof/Laws/Memory.lean ====
section
/-! SUPPORT. Sparse arrays: read after write, the canonical form and the bound are kept by every write, and two canonical arrays
that read alike are equal. -/

namespace Sys2Proof.Machine

variable {α : Type}

@[simp] theorem sparseRead_nil (blank : α) (a : Nat) : sparseRead blank [] a = blank := rfl

theorem sparseRead_cons (blank : α) (k : Nat) (v : α) (m : List (Nat × α)) (a : Nat) :
    sparseRead blank ((k, v) :: m) a = if k = a then v else sparseRead blank m a := rfl

theorem sparseErase_cons (k : Nat) (v : α) (m : List (Nat × α)) (a : Nat) :
    sparseErase ((k, v) :: m) a = if k = a then sparseErase m a else (k, v) :: sparseErase m a := by
  unfold sparseErase
  by_cases h : k = a <;> simp [h]

@[simp] theorem sparseRead_erase_same (blank : α) (m : List (Nat × α)) (a : Nat) :
    sparseRead blank (sparseErase m a) a = blank := by
  induction m with
  | nil => rfl
  | cons c m ih =>
    obtain ⟨k, v⟩ := c
    rw [sparseErase_cons]
    split
    · exact ih
    · rw [sparseRead_cons, if_neg (by assumption), ih]

theorem sparseRead_erase_other (blank : α) (m : List (Nat × α)) {a b : Nat} (h : b ≠ a) :
    sparseRead blank (sparseErase m a) b = sparseRead blank m b := by
  induction m with
  | nil => rfl
  | cons c m ih =>
    obtain ⟨k, v⟩ := c
    rw [sparseErase_cons, sparseRead_cons]
    split
    · rw [ih, if_neg (by omega)]
    · rw [sparseRead_cons, ih]

theorem sparseRead_insert_same (blank : α) (m : List (Nat × α)) (a : Nat) (v : α) :
    (∀ c ∈ m, c.1 ≠ a) → sparseRead blank (sparseInsert m a v) a = v := by
  induction m with
  | nil => intro _; simp [sparseInsert, sparseRead_cons]
  | cons c m ih =>
    obtain ⟨k, w⟩ := c
    intro h
    unfold sparseInsert
    split
    · simp [sparseRead_cons]
    · rw [sparseRead_cons, if_neg (h (k, w) (by simp)), ih fun c hc => h c (by simp [hc])]

theorem sparseRead_insert_other (blank : α) (m : List (Nat × α)) {a b : Nat} (v : α) (h : b ≠ a) :
    sparseRead blank (sparseInsert m a v) b = sparseRead blank m b := by
  induction m with
  | nil => simp [sparseInsert, sparseRead_cons, Ne.symm h]
  | cons c m ih =>
    obtain ⟨k, w⟩ := c
    unfold sparseInsert
    split
    · rw [sparseRead_cons, if_neg (Ne.symm h)]
    · rw [sparseRead_cons, sparseRead_cons, ih]

theorem mem_sparseErase {m : List (Nat × α)} {a : Nat} {c : Nat × α} : c ∈ sparseErase m a ↔ c ∈ m ∧ c.1 ≠ a := by
  simp [sparseErase]

theorem mem_sparseInsert {m : List (Nat × α)} {a : Nat} {v : α} {c : Nat × α} :
    c ∈ sparseInsert m a v ↔ c = (a, v) ∨ c ∈ m := by
  induction m with
  | nil => simp [sparseInsert]
  | cons d m ih =>
    obtain ⟨k, w⟩ := d
    unfold sparseInsert
    split
    · simp
    · simp only [List.mem_cons, ih]
      tauto

section Write
variable [DecidableEq α]

@[simp] theorem sparseRead_write_same (blank : α) (m : List (Nat × α)) (a : Nat) (v : α) :
    sparseRead blank (sparseWrite blank m a v) a = v := by
  unfold sparseWrite
  split
  · rename_i h
    rw [sparseRead_erase_same, h]
  · exact sparseRead_insert_same blank _ a v fun c hc => (mem_sparseErase.1 hc).2

theorem sparseRead_write_other (blank : α) (m : List (Nat × α)) {a b : Nat} (v : α) (h : b ≠ a) :
    sparseRead blank (sparseWrite blank m a v) b = sparseRead blank m b := by
  unfold sparseWrite
  split
  · exact sparseRead_erase_other blank m h
  · rw [sparseRead_insert_other blank _ v h, sparseRead_erase_other blank m h]

/-- The canonical form as two properties of the list. -/
theorem sparseWf_iff (blank : α) (m : List (Nat × α)) :
    sparseWf blank m = true ↔ m.Pairwise (fun c d => c.1 < d.1) ∧ ∀ c ∈ m, c.2 ≠ blank := by
  induction m with
  | nil => simp [sparseWf]
  | cons c m ih =>
    obtain ⟨k, v⟩ := c
    cases m with
    | nil => simp [sparseWf]
    | cons d m =>
      obtain ⟨l, w⟩ := d
      simp only [sparseWf, Bool.and_eq_true, decide_eq_true_eq, ih, List.pairwise_cons, List.mem_cons]
      constructor
      · rintro ⟨⟨hv, hkl⟩, ⟨⟨hl, hp⟩, hb⟩⟩
        refine ⟨⟨?_, hl, hp⟩, ?_⟩
        · rintro e (rfl | he)
          · exact hkl
          · exact lt_trans hkl (hl e he)
        · rintro e (rfl | he)
          · exact hv
          · exact hb e he
      · rintro ⟨⟨hk, hl, hp⟩, hb⟩
        exact ⟨⟨hb _ (Or.inl rfl), hk _ (Or.inl rfl)⟩, ⟨hl, hp⟩, fun e he => hb e (Or.inr he)⟩

omit [DecidableEq α] in
theorem pairwise_insert {m : List (Nat × α)} {a : Nat} {v : α} (hm : m.Pairwise (fun c d => c.1 < d.1))
    (ha : ∀ c ∈ m, c.1 ≠ a) : (sparseInsert m a v).Pairwise (fun c d => c.1 < d.1) := by
  induction m with
  | nil => simp [sparseInsert]
  | cons c m ih =>
    obtain ⟨k, w⟩ := c
    rw [List.pairwise_cons] at hm
    have hk : k ≠ a := ha (k, w) (by simp)
    unfold sparseInsert
    split
    · rename_i h
      refine List.pairwise_cons.2 ⟨?_, List.pairwise_cons.2 hm⟩
      intro d hd
      rcases List.mem_cons.1 hd with rfl | hd
      · exact h
      · exact lt_trans h (hm.1 d hd)
    · refine List.pairwise_cons.2 ⟨?_, ih hm.2 fun c hc => ha c (by simp [hc])⟩
      intro d hd
      rcases mem_sparseInsert.1 hd with rfl | hd
      · simp only; omega
      · exact hm.1 d hd

theorem sparseWf_write {blank : α} {m : List (Nat × α)} (h : sparseWf blank m = true) (a : Nat) (v : α) :
    sparseWf blank (sparseWrite blank m a v) = true := by
  rw [sparseWf_iff] at h ⊢
  have he : (sparseErase m a).Pairwise (fun c d => c.1 < d.1) := h.1.filter _
  have hb : ∀ c ∈ sparseErase m a, c.2 ≠ blank := fun c hc => h.2 c (mem_sparseErase.1 hc).1
  unfold sparseWrite
  split
  · exact ⟨he, hb⟩
  · rename_i hv
    refine ⟨pairwise_insert he fun c hc => (mem_sparseErase.1 hc).2, ?_⟩
    intro c hc
    rcases mem_sparseInsert.1 hc with rfl | hc
    · exact hv
    · exact hb c hc

theorem sparseBelow_write {blank : α} {n : Nat} {m : List (Nat × α)} (h : sparseBelow n m = true) {a : Nat} (ha : a < n)
    (v : α) : sparseBelow n (sparseWrite blank m a v) = true := by
  simp only [sparseBelow, List.all_eq_true, decide_eq_true_eq] at h ⊢
  have he : ∀ c ∈ sparseErase m a, c.1 < n := fun c hc => h c (mem_sparseErase.1 hc).1
  unfold sparseWrite
  split
  · exact he
  · intro c hc
    rcases mem_sparseInsert.1 hc with rfl | hc
    · exact ha
    · exact he c hc

omit [DecidableEq α] in
theorem sparseRead_eq_blank {blank : α} {m : List (Nat × α)} {a : Nat} (h : ∀ c ∈ m, c.1 ≠ a) :
    sparseRead blank m a = blank := by
  induction m with
  | nil => rfl
  | cons c m ih =>
    obtain ⟨k, v⟩ := c
    rw [sparseRead_cons, if_neg (h (k, v) (by simp)), ih fun c hc => h c (by simp [hc])]

/-- Canonical arrays that read alike are the same list. -/
theorem sparse_ext {blank : α} {m m' : List (Nat × α)} (h : sparseWf blank m = true) (h' : sparseWf blank m' = true)
    (hr : ∀ a, sparseRead blank m a = sparseRead blank m' a) : m = m' := by
  rw [sparseWf_iff] at h h'
  induction m generalizing m' with
  | nil =>
    cases m' with
    | nil => rfl
    | cons c m' =>
      have := hr c.1
      rw [show c :: m' = (c.1, c.2) :: m' from rfl, sparseRead_cons, if_pos rfl] at this
      exact absurd this.symm (h'.2 c (by simp))
  | cons c m ih =>
    obtain ⟨k, v⟩ := c
    cases m' with
    | nil =>
      have := hr k
      rw [sparseRead_cons, if_pos rfl] at this
      exact absurd this (h.2 (k, v) (by simp))
    | cons d m' =>
      obtain ⟨l, w⟩ := d
      have hp := List.pairwise_cons.1 h.1
      have hp' := List.pairwise_cons.1 h'.1
      have hkl : k = l := by
        rcases lt_trichotomy k l with hlt | heq | hgt
        · have := hr k
          rw [sparseRead_cons, if_pos rfl, sparseRead_cons, if_neg (by omega),
            sparseRead_eq_blank fun c hc => by have := hp'.1 c hc; simp only at this; omega] at this
          exact absurd this (h.2 (k, v) (by simp))
        · exact heq
        · have := hr l
          rw [sparseRead_cons, if_neg (by omega), sparseRead_cons, if_pos rfl,
            sparseRead_eq_blank fun c hc => by have := hp.1 c hc; simp only at this; omega] at this
          exact absurd this.symm (h'.2 (l, w) (by simp))
      subst hkl
      have hvw : v = w := by
        have := hr k
        rwa [sparseRead_cons, if_pos rfl, sparseRead_cons, if_pos rfl] at this
      subst hvw
      congr 1
      refine ih ⟨hp.2, fun c hc => h.2 c (by simp [hc])⟩ ⟨hp'.2, fun c hc => h'.2 c (by simp [hc])⟩ fun a => ?_
      by_cases ha : k = a
      · subst ha
        rw [sparseRead_eq_blank fun c hc => by have := hp.1 c hc; simp only at this; omega,
          sparseRead_eq_blank fun c hc => by have := hp'.1 c hc; simp only at this; omega]
      · have := hr a
        rwa [sparseRead_cons, if_neg ha, sparseRead_cons, if_neg ha] at this

end Write

/-! ## Byte arrays -/

@[simp] theorem Memory.read_write_same (m : Memory) (a : Nat) (v : Byte) : (m.write a v).read a = v :=
  sparseRead_write_same _ _ _ _

theorem Memory.read_write_other (m : Memory) {a b : Nat} (v : Byte) (h : b ≠ a) : (m.write a v).read b = m.read b :=
  sparseRead_write_other _ _ _ h

theorem Memory.read_write (m : Memory) (a b : Nat) (v : Byte) : (m.write a v).read b = if b = a then v else m.read b := by
  by_cases h : b = a
  · rw [if_pos h, h, Memory.read_write_same]
  · rw [if_neg h, Memory.read_write_other m v h]

theorem Memory.wf_write {m : Memory} (h : m.wf = true) (a : Nat) (v : Byte) : (m.write a v).wf = true := sparseWf_write h a v

end Sys2Proof.Machine
end

