-- ==== Sys2Proof/Laws/Ops.lean ====
section
/-! SUPPORT. What each shared operation of `Machine/Ops.lean` can do, said once: where an address lies, what a read and a write
answer, and the exact results of the stack operations and of interrupt entry and return, which never reach the I/O path. -/

namespace Sys2Proof.Machine

/-! ## Answers -/

@[simp] theorem answer_ok (s : State) : answer (.ok s) = .next s := rfl

@[simp] theorem answer_error (f : Fault) : answer (.error f) = .fault f := rfl

theorem answer_eq_next {r : Res State} {s : State} : answer r = .next s ↔ r = .ok s := by
  cases r <;> simp [answer]

theorem answer_ne_refused (r : Res State) (q : Refusal) : answer r ≠ .refused q := by
  cases r <;> simp [answer]

theorem bind_eq_ok {α β : Type} {x : Res α} {f : α → Res β} {b : β} :
    (x >>= f) = .ok b ↔ ∃ a, x = .ok a ∧ f a = .ok b := by
  cases x with
  | error e => simp [bind, Except.bind]
  | ok a => simp [bind, Except.bind]

/-! ## Where an address lies -/

/-- 0x0000-0x1FFF is RAM, mirrored every 0x800 bytes (R66, R67). -/
theorem locate_ram (s : State) {a : Addr} (h : a.toNat < 0x2000) : locate s a = some (.ram, a.toNat % 0x800) := by
  have hp : pageOf a < 4 := by simp only [pageOf, pageSize]; omega
  simp [locate, pageEntry, hp, pageSize]

/-- 0x2000-0x5FFF is the I/O path (R66). -/
theorem locate_io (s : State) {a : Addr} (h : 0x2000 ≤ a.toNat) (h' : a.toNat < 0x6000) : locate s a = none := by
  have h1 : ¬pageOf a < 4 := by simp only [pageOf, pageSize]; omega
  have h2 : pageOf a < 12 := by simp only [pageOf, pageSize]; omega
  simp [locate, pageEntry, h1, h2]

/-- 0x6000-0x7FFF is SRAM, not mirrored (R66, R68). -/
theorem locate_sram (s : State) {a : Addr} (h : 0x6000 ≤ a.toNat) (h' : a.toNat < 0x8000) :
    locate s a = some (.sram, a.toNat - 0x6000) := by
  have h1 : ¬pageOf a < 4 := by simp only [pageOf, pageSize]; omega
  have h2 : ¬pageOf a < 12 := by simp only [pageOf, pageSize]; omega
  have h3 : pageOf a < 16 := by simp only [pageOf, pageSize]; omega
  simp only [locate, pageEntry, h1, h2, h3, if_false, if_true, Option.some.injEq, Prod.mk.injEq, true_and]
  simp only [pageOf, pageSize]
  omega

/-- 0x8000-0xFFFF is the window's ROM bank, or the I/O path if the image has no such bank (R66, R69). -/
theorem locate_rom (s : State) {a : Addr} (h : 0x8000 ≤ a.toNat) :
    locate s a =
      if (s.bankAt (windowOf a)).toNat < s.header.romBanks then
        some (.rom, (s.bankAt (windowOf a)).toNat * 0x1000 + a.toNat % 0x1000)
      else none := by
  have h1 : ¬pageOf a < 4 := by simp only [pageOf, pageSize]; omega
  have h2 : ¬pageOf a < 12 := by simp only [pageOf, pageSize]; omega
  have h3 : ¬pageOf a < 16 := by simp only [pageOf, pageSize]; omega
  have hq : (pageOf a - 16) / 2 = (a.toNat - 0x8000) / 0x1000 := by simp only [pageOf, pageSize]; omega
  have hw : windowOfPage (pageOf a) = windowOf a := by rw [windowOfPage, windowOf, hq]
  simp only [locate, pageEntry, h1, h2, h3, if_false, hw]
  by_cases hb : (s.bankAt (windowOf a)).toNat < s.header.romBanks
  · simp only [hb, if_true, Option.some.injEq, Prod.mk.injEq, true_and]
    simp only [pageOf, pageSize, bankSize]
    omega
  · simp only [hb, if_false]

/-- An address lies in RAM, in SRAM, in ROM or on the I/O path, and only in the places the map gives each. -/
theorem locate_cases (s : State) (a : Addr) :
    (a.toNat < 0x2000 ∧ locate s a = some (.ram, a.toNat % 0x800)) ∨
    (0x2000 ≤ a.toNat ∧ a.toNat < 0x6000 ∧ locate s a = none) ∨
    (0x6000 ≤ a.toNat ∧ a.toNat < 0x8000 ∧ locate s a = some (.sram, a.toNat - 0x6000)) ∨
    (0x8000 ≤ a.toNat ∧ (s.bankAt (windowOf a)).toNat < s.header.romBanks ∧
      locate s a = some (.rom, (s.bankAt (windowOf a)).toNat * 0x1000 + a.toNat % 0x1000)) ∨
    (0x8000 ≤ a.toNat ∧ s.header.romBanks ≤ (s.bankAt (windowOf a)).toNat ∧ locate s a = none) := by
  by_cases h1 : a.toNat < 0x2000
  · exact .inl ⟨h1, locate_ram s h1⟩
  · by_cases h2 : a.toNat < 0x6000
    · exact .inr (.inl ⟨by omega, h2, locate_io s (by omega) h2⟩)
    · by_cases h3 : a.toNat < 0x8000
      · exact .inr (.inr (.inl ⟨by omega, h3, locate_sram s (by omega) h3⟩))
      · have h := locate_rom s (a := a) (by omega)
        by_cases h4 : (s.bankAt (windowOf a)).toNat < s.header.romBanks
        · exact .inr (.inr (.inr (.inl ⟨by omega, h4, by rw [h, if_pos h4]⟩)))
        · exact .inr (.inr (.inr (.inr ⟨by omega, by omega, by rw [h, if_neg h4]⟩)))

/-- Where an address lies depends on the bank registers and the number of ROM banks alone (R61). -/
theorem locate_congr {s s' : State} (hb : s'.bank = s.bank) (hh : s'.header = s.header) (a : Addr) :
    locate s' a = locate s a := by
  have hw : s'.bankAt = s.bankAt := by
    funext w
    unfold State.bankAt
    rw [hb]
  have hp : pageEntry s' = pageEntry s := by
    funext p
    simp only [pageEntry, hw, hh]
  simp only [locate, hp]

/-- What an address shows depends on the memories, the bank registers, the header and the open-bus byte alone. -/
theorem peek_congr {s s' : State} (hb : s'.bank = s.bank) (hh : s'.header = s.header) (hp : s'.params = s.params)
    (h1 : s'.ram = s.ram) (h2 : s'.sram = s.sram) (h3 : s'.rom = s.rom) (a : Addr) : s'.peek a = s.peek a := by
  have hs : regionSize s' = regionSize s := by
    funext r
    cases r <;> simp [regionSize, hh]
  have hr : regionRead s' = regionRead s := by
    funext r o
    cases r <;> simp [regionRead, h1, h2, h3]
  simp only [State.peek, locate_congr hb hh a, hp, hs, hr]

theorem peek_ram (s : State) {a : Addr} (h : a.toNat < 0x2000) : s.peek a = s.ram.read (a.toNat % 0x800) := by
  have ho : a.toNat % 0x800 < 0x800 := Nat.mod_lt _ (by decide)
  simp [State.peek, locate_ram s h, regionSize, regionRead, ramSize, ho]

theorem peek_sram (s : State) {a : Addr} (h : 0x6000 ≤ a.toNat) (h' : a.toNat < 0x8000) :
    s.peek a = s.sram.read (a.toNat - 0x6000) := by
  have ho : a.toNat - 0x6000 < 0x2000 := by omega
  simp [State.peek, locate_sram s h h', regionSize, regionRead, sramSize, ho]

theorem peek_io (s : State) {a : Addr} (h : 0x2000 ≤ a.toNat) (h' : a.toNat < 0x6000) : s.peek a = s.params.openBus := by
  simp [State.peek, locate_io s h h']

theorem peek_rom (s : State) {a : Addr} (h : 0x8000 ≤ a.toNat) :
    s.peek a =
      if (s.bankAt (windowOf a)).toNat < s.header.romBanks then
        s.rom.read ((s.bankAt (windowOf a)).toNat * 0x1000 + a.toNat % 0x1000)
      else s.params.openBus := by
  simp only [State.peek, locate_rom s h]
  by_cases hb : (s.bankAt (windowOf a)).toNat < s.header.romBanks
  · have ho : (s.bankAt (windowOf a)).toNat * 0x1000 + a.toNat % 0x1000 < s.header.romBanks * 0x1000 := by omega
    simp only [hb, if_true, regionSize, regionRead, bankSize, ho]
  · simp only [hb, if_false]

/-! ## Reads -/

/-- A read of any address but the sound chip's has no side effect and shows what the map shows (R62, R82). -/
theorem memRead_quiet (s : State) {a : Addr} (t : Int) (h : a ≠ apuStatusAddr) : memRead s a t = .ok (s.peek a, s) := by
  unfold memRead State.peek
  cases hl : locate s a with
  | none => simp [ioRead, h]
  | some x => rfl

/-- A read of the sound chip's status register (R74). -/
theorem memRead_status (s : State) (t : Int) :
    memRead s apuStatusAddr t =
      (apuRead s.soundEnv s.params.openBus t 0x15 s.sound >>= fun r => pure (r.1, { s with sound := r.2 })) := by
  have : locate s apuStatusAddr = none := locate_io s (by decide) (by decide)
  simp [memRead, this, ioRead]

/-- Everything a read can do: answer what the map shows and change nothing, or ask the sound chip. -/
theorem memRead_cases {s s' : State} {a : Addr} {t : Int} {v : Byte} (h : memRead s a t = .ok (v, s')) :
    (a ≠ apuStatusAddr ∧ v = s.peek a ∧ s' = s) ∨
    (a = apuStatusAddr ∧ ∃ w, apuRead s.soundEnv s.params.openBus t 0x15 s.sound = .ok (v, w) ∧ s' = { s with sound := w }) := by
  by_cases ha : a = apuStatusAddr
  · subst ha
    rw [memRead_status, bind_eq_ok] at h
    obtain ⟨⟨v', w⟩, hr, hp⟩ := h
    simp only [pure, Except.pure, Except.ok.injEq, Prod.mk.injEq] at hp
    obtain ⟨rfl, rfl⟩ := hp
    exact .inr ⟨rfl, w, hr, rfl⟩
  · rw [memRead_quiet s t ha] at h
    simp only [Except.ok.injEq, Prod.mk.injEq] at h
    exact .inl ⟨ha, h.1.symm, h.2.symm⟩

/-- A zero-page read: `MemRead` and `peek` agree there (R167, R168). -/
theorem memRead_zeroPage (s : State) (z : Byte) (t : Int) : memRead s (zeroPage z) t = .ok (s.peek (zeroPage z), s) := by
  refine memRead_quiet s t fun h => ?_
  have hz := z.isLt
  have h1 : (zeroPage z).toNat = z.toNat := by simp [zeroPage]; omega
  have h2 : apuStatusAddr.toNat = 0x4015 := rfl
  rw [h] at h1
  omega

/-! ## Writes -/

/-- Everything a write can do (R63, R65, R70, R72, R73). -/
theorem memWrite_cases {s s' : State} {a : Addr} {t : Int} {v : Byte} (h : memWrite s a v t = .ok s') :
    (a.toNat < 0x2000 ∧ s' = { s with ram := s.ram.write (a.toNat % 0x800) v }) ∨
    (0x6000 ≤ a.toNat ∧ a.toNat < 0x8000 ∧ s' = { s with sram := s.sram.write (a.toNat - 0x6000) v }) ∨
    (isApuWrite a = true ∧ ∃ w, apuWrite s.soundEnv t (a.toNat - 0x4000) v s.sound = .ok w ∧
      s' = { s with sound := w, apuLog := s.apuLog ++ [{ clock := t, reg := a.toNat - 0x4000, value := v }] }) ∨
    (isBankRegister a = true ∧ s' = writeBank s (Fin.ofNat 8 (a.toNat - 0x5FF8)) v) ∨
    (0x2000 ≤ a.toNat ∧ isApuWrite a = false ∧ isBankRegister a = false ∧ (a.toNat < 0x6000 ∨ 0x8000 ≤ a.toNat) ∧ s' = s) := by
  have io : ∀ (hio : ioWrite s a v t = .ok s') (hlo : 0x2000 ≤ a.toNat) (hr : a.toNat < 0x6000 ∨ 0x8000 ≤ a.toNat),
      (isApuWrite a = true ∧ ∃ w, apuWrite s.soundEnv t (a.toNat - 0x4000) v s.sound = .ok w ∧
        s' = { s with sound := w, apuLog := s.apuLog ++ [{ clock := t, reg := a.toNat - 0x4000, value := v }] }) ∨
      (isBankRegister a = true ∧ s' = writeBank s (Fin.ofNat 8 (a.toNat - 0x5FF8)) v) ∨
      (0x2000 ≤ a.toNat ∧ isApuWrite a = false ∧ isBankRegister a = false ∧ (a.toNat < 0x6000 ∨ 0x8000 ≤ a.toNat) ∧
        s' = s) := by
    intro hio hlo hr
    unfold ioWrite at hio
    split at hio
    · rename_i ha
      simp only [bind_eq_ok] at hio
      obtain ⟨w, hw, hp⟩ := hio
      simp only [pure, Except.pure, Except.ok.injEq] at hp
      exact .inl ⟨ha, w, hw, hp.symm⟩
    · rename_i ha
      split at hio
      · rename_i hb
        simp only [Except.ok.injEq] at hio
        exact .inr (.inl ⟨hb, hio.symm⟩)
      · rename_i hb
        simp only [Except.ok.injEq] at hio
        exact .inr (.inr ⟨hlo, by simpa using ha, by simpa using hb, hr, hio.symm⟩)
  unfold memWrite at h
  rcases locate_cases s a with ⟨h1, hl⟩ | ⟨h1, h2, hl⟩ | ⟨h1, h2, hl⟩ | ⟨h1, h2, hl⟩ | ⟨h1, h2, hl⟩
  · simp only [hl, Except.ok.injEq] at h
    exact .inl ⟨h1, h.symm⟩
  · simp only [hl] at h
    exact .inr (.inr (io h h1 (.inl h2)))
  · simp only [hl, Except.ok.injEq] at h
    exact .inr (.inl ⟨h1, h2, h.symm⟩)
  · simp only [hl] at h
    exact .inr (.inr (io h (by omega) (.inr h1)))
  · simp only [hl] at h
    exact .inr (.inr (io h (by omega) (.inr h1)))

/-- A write outside the sound chip's window always completes (R64, R65). -/
theorem memWrite_quiet (s : State) {a : Addr} (v : Byte) (t : Int) (h : isApuWrite a = false) :
    ∃ s', memWrite s a v t = .ok s' := by
  have io : ∃ s', ioWrite s a v t = .ok s' := by
    unfold ioWrite
    rw [h]
    by_cases hb : isBankRegister a = true
    · exact ⟨_, by simp only [hb]; rfl⟩
    · exact ⟨s, by simp only [hb]; rfl⟩
  unfold memWrite
  split
  · exact ⟨_, rfl⟩
  · exact ⟨_, rfl⟩
  · exact io
  · exact io

theorem memWrite_ram (s : State) {a : Addr} (v : Byte) (t : Int) (h : a.toNat < 0x2000) :
    memWrite s a v t = .ok { s with ram := s.ram.write (a.toNat % 0x800) v } := by
  simp [memWrite, locate_ram s h]

/-! ## The stack -/

theorem stackAddr_toNat (sp : Byte) : (stackAddr sp).toNat = 0x100 + sp.toNat := by
  have h : (stackAddr sp) = 0x0100#16 + sp.setWidth 16 := by
    unfold stackAddr
    revert sp
    decide +kernel
  have := sp.isLt
  rw [h, BitVec.toNat_add]
  simp
  omega

/-- `Push(v)`, exactly: the stack is RAM. -/
theorem push_ok (s : State) (v : Byte) (t : Int) :
    push s v t = .ok { s with ram := s.ram.write (stackOffset s.sp) v, sp := s.sp - 1 } := by
  have h := stackAddr_toNat s.sp
  have := s.sp.isLt
  have hlt : (stackAddr s.sp).toNat < 0x2000 := by omega
  have ho : (stackAddr s.sp).toNat % 0x800 = stackOffset s.sp := by unfold stackOffset; omega
  simp [push, memWrite_ram s v t hlt, ho, bind, Except.bind, pure, Except.pure]

/-- `Pull()`, exactly. -/
theorem pull_ok (s : State) (t : Int) :
    pull s t = .ok (s.ram.read (stackOffset (s.sp + 1)), { s with sp := s.sp + 1 }) := by
  have h := stackAddr_toNat (s.sp + 1)
  have := (s.sp + 1).isLt
  have hlt : (stackAddr (s.sp + 1)).toNat < 0x2000 := by omega
  have ho : (stackAddr (s.sp + 1)).toNat % 0x800 = stackOffset (s.sp + 1) := by unfold stackOffset; omega
  have hne : stackAddr (s.sp + 1) ≠ apuStatusAddr := by
    intro hc
    have h2 : apuStatusAddr.toNat = 0x4015 := rfl
    rw [hc] at hlt
    omega
  unfold pull
  rw [memRead_quiet _ t hne, peek_ram _ hlt, ho]

/-- Two pushes, exactly: the high byte at the higher address. -/
theorem pushWord_ok (s : State) (a : Addr) (t : Int) :
    pushWord s a t =
      .ok { s with
        ram := (s.ram.write (stackOffset s.sp) (hiByte a)).write (stackOffset (s.sp - 1)) (loByte a)
        sp := s.sp - 1 - 1 } := by
  simp [pushWord, push_ok, bind, Except.bind]

/-- Two pulls, exactly. -/
theorem pullWord_ok (s : State) (t : Int) :
    pullWord s t =
      .ok (word (s.ram.read (stackOffset (s.sp + 1))) (s.ram.read (stackOffset (s.sp + 1 + 1))),
        { s with sp := s.sp + 1 + 1 }) := by
  simp [pullWord, pull_ok, bind, Except.bind, pure, Except.pure]

/-! ## Interrupt entry and return -/

/-- Two reads away from the sound chip. -/
theorem memReadPair_quiet (s : State) {aLo aHi : Addr} (t : Int) (h1 : aLo ≠ apuStatusAddr) (h2 : aHi ≠ apuStatusAddr) :
    memReadPair s aLo aHi t = .ok (word (s.peek aLo) (s.peek aHi), s) := by
  simp [memReadPair, memRead_quiet, h1, h2, bind, Except.bind, pure, Except.pure]

/-- What an interrupt entry leaves (R405): three bytes pushed, I set, PC at the vector. -/
def afterEntry (s : State) (ret : Addr) (b : Bool) (vector : Addr) : State :=
  { s with
    ram := ((s.ram.write (stackOffset s.sp) (hiByte ret)).write (stackOffset (s.sp - 1)) (loByte ret)).write
      (stackOffset (s.sp - 1 - 1)) (s.packP b)
    sp := s.sp - 1 - 1 - 1
    i := true
    pc := word (s.peek vector) (s.peek (vector + 1)) }

/-- What an address of 0x2000 and above shows does not depend on RAM. -/
theorem peek_of_high {s s' : State} (hb : s'.bank = s.bank) (hh : s'.header = s.header) (hp : s'.params = s.params)
    (h2 : s'.sram = s.sram) (h3 : s'.rom = s.rom) {a : Addr} (ha : 0x2000 ≤ a.toNat) : s'.peek a = s.peek a := by
  have hs : regionSize s' = regionSize s := by
    funext r
    cases r <;> simp [regionSize, hh]
  simp only [State.peek, locate_congr hb hh a, hp, hs]
  rcases locate_cases s a with ⟨h, _⟩ | ⟨_, _, hl⟩ | ⟨_, _, hl⟩ | ⟨_, _, hl⟩ | ⟨_, _, hl⟩
  · omega
  all_goals simp only [hl, regionRead, h2, h3]

/-- An interrupt entry through a vector above 0x8000, exactly. -/
theorem enterInterrupt_ok (s : State) (ret : Addr) (b : Bool) {vector : Addr} (t : Int) (h : 0x8000 ≤ vector.toNat)
    (h' : vector.toNat < 0xFFFF) : enterInterrupt s ret b vector t = .ok (afterEntry s ret b vector) := by
  have h2 : apuStatusAddr.toNat = 0x4015 := rfl
  have hsucc : (vector + 1).toNat = vector.toNat + 1 := by
    rw [BitVec.toNat_add]
    simp
    omega
  have hv : vector ≠ apuStatusAddr := fun hc => by rw [hc] at h; omega
  have hv' : vector + 1 ≠ apuStatusAddr := fun hc => by rw [hc] at hsucc; omega
  simp only [enterInterrupt, pushWord_ok, push_ok, bind, Except.bind, memRead16, memReadPair_quiet _ t hv hv', pure, Except.pure]
  unfold afterEntry
  rw [peek_of_high (s := s) (by rfl) (by rfl) (by rfl) (by rfl) (by rfl) (a := vector) (by omega),
    peek_of_high (s := s) (by rfl) (by rfl) (by rfl) (by rfl) (by rfl) (a := vector + 1) (by omega)]
  rfl

/-- A return from interrupt, exactly (R244). -/
theorem returnFromInterrupt_ok (s : State) (t : Int) :
    returnFromInterrupt s t =
      .ok { s.unpackP (s.ram.read (stackOffset (s.sp + 1))) with
        sp := s.sp + 1 + 1 + 1
        pc := word (s.ram.read (stackOffset (s.sp + 1 + 1))) (s.ram.read (stackOffset (s.sp + 1 + 1 + 1))) } := by
  simp [returnFromInterrupt, pull_ok, pullWord_ok, bind, Except.bind, pure, Except.pure, State.unpackP]

/-- `TakeInterrupt()`, exactly (R405). -/
theorem takeInterrupt_ok (s : State) :
    takeInterrupt s =
      .ok { afterEntry { s with nmiPending := false } s.pc false (if s.nmiPending then nmiVector else irqVector) with
        clock := s.clock + 7 } := by
  have hv : 0x8000 ≤ (if s.nmiPending then nmiVector else irqVector).toNat ∧
      (if s.nmiPending then nmiVector else irqVector).toNat < 0xFFFF := by
    split <;> decide
  simp only [takeInterrupt, enterInterrupt_ok _ _ _ _ hv.1 hv.2, bind, Except.bind, pure, Except.pure]
  rfl

end Sys2Proof.Machine
end

