-- ==== Sys2Proof/Laws/State.lean ====
section
/-! SUPPORT. One lemma per field per named update of the state, each true by definition. -/

namespace Sys2Proof.Machine

/-! ## setNZ -/

@[simp] theorem State.setNZ_a (s : State) (m : Byte) : (s.setNZ m).a = s.a := rfl
@[simp] theorem State.setNZ_x (s : State) (m : Byte) : (s.setNZ m).x = s.x := rfl
@[simp] theorem State.setNZ_y (s : State) (m : Byte) : (s.setNZ m).y = s.y := rfl
@[simp] theorem State.setNZ_sp (s : State) (m : Byte) : (s.setNZ m).sp = s.sp := rfl
@[simp] theorem State.setNZ_pc (s : State) (m : Byte) : (s.setNZ m).pc = s.pc := rfl
@[simp] theorem State.setNZ_n (s : State) (m : Byte) : (s.setNZ m).n = bitOf m 7 := rfl
@[simp] theorem State.setNZ_v (s : State) (m : Byte) : (s.setNZ m).v = s.v := rfl
@[simp] theorem State.setNZ_d (s : State) (m : Byte) : (s.setNZ m).d = s.d := rfl
@[simp] theorem State.setNZ_i (s : State) (m : Byte) : (s.setNZ m).i = s.i := rfl
@[simp] theorem State.setNZ_z (s : State) (m : Byte) : (s.setNZ m).z = (m == 0x00) := rfl
@[simp] theorem State.setNZ_c (s : State) (m : Byte) : (s.setNZ m).c = s.c := rfl
@[simp] theorem State.setNZ_clock (s : State) (m : Byte) : (s.setNZ m).clock = s.clock := rfl
@[simp] theorem State.setNZ_corrupt (s : State) (m : Byte) : (s.setNZ m).corrupt = s.corrupt := rfl
@[simp] theorem State.setNZ_warning (s : State) (m : Byte) : (s.setNZ m).warning = s.warning := rfl
@[simp] theorem State.setNZ_irqLine (s : State) (m : Byte) : (s.setNZ m).irqLine = s.irqLine := rfl
@[simp] theorem State.setNZ_nmiPending (s : State) (m : Byte) : (s.setNZ m).nmiPending = s.nmiPending := rfl
@[simp] theorem State.setNZ_ram (s : State) (m : Byte) : (s.setNZ m).ram = s.ram := rfl
@[simp] theorem State.setNZ_sram (s : State) (m : Byte) : (s.setNZ m).sram = s.sram := rfl
@[simp] theorem State.setNZ_rom (s : State) (m : Byte) : (s.setNZ m).rom = s.rom := rfl
@[simp] theorem State.setNZ_bank (s : State) (m : Byte) : (s.setNZ m).bank = s.bank := rfl
@[simp] theorem State.setNZ_sound (s : State) (m : Byte) : (s.setNZ m).sound = s.sound := rfl
@[simp] theorem State.setNZ_mode (s : State) (m : Byte) : (s.setNZ m).mode = s.mode := rfl
@[simp] theorem State.setNZ_inRoutine (s : State) (m : Byte) : (s.setNZ m).inRoutine = s.inRoutine := rfl
@[simp] theorem State.setNZ_nextPlay (s : State) (m : Byte) : (s.setNZ m).nextPlay = s.nextPlay := rfl
@[simp] theorem State.setNZ_playPeriod (s : State) (m : Byte) : (s.setNZ m).playPeriod = s.playPeriod := rfl
@[simp] theorem State.setNZ_tempo (s : State) (m : Byte) : (s.setNZ m).tempo = s.tempo := rfl
@[simp] theorem State.setNZ_mute (s : State) (m : Byte) : (s.setNZ m).mute = s.mute := rfl
@[simp] theorem State.setNZ_track (s : State) (m : Byte) : (s.setNZ m).track = s.track := rfl
@[simp] theorem State.setNZ_rateSet (s : State) (m : Byte) : (s.setNZ m).rateSet = s.rateSet := rfl
@[simp] theorem State.setNZ_sampleRate (s : State) (m : Byte) : (s.setNZ m).sampleRate = s.sampleRate := rfl
@[simp] theorem State.setNZ_header (s : State) (m : Byte) : (s.setNZ m).header = s.header := rfl
@[simp] theorem State.setNZ_params (s : State) (m : Byte) : (s.setNZ m).params = s.params := rfl
@[simp] theorem State.setNZ_activity (s : State) (m : Byte) : (s.setNZ m).activity = s.activity := rfl
@[simp] theorem State.setNZ_calls (s : State) (m : Byte) : (s.setNZ m).calls = s.calls := rfl
@[simp] theorem State.setNZ_answers (s : State) (m : Byte) : (s.setNZ m).answers = s.answers := rfl
@[simp] theorem State.setNZ_apuLog (s : State) (m : Byte) : (s.setNZ m).apuLog = s.apuLog := rfl

/-! ## unpackP -/

@[simp] theorem State.unpackP_a (s : State) (p : Byte) : (s.unpackP p).a = s.a := rfl
@[simp] theorem State.unpackP_x (s : State) (p : Byte) : (s.unpackP p).x = s.x := rfl
@[simp] theorem State.unpackP_y (s : State) (p : Byte) : (s.unpackP p).y = s.y := rfl
@[simp] theorem State.unpackP_sp (s : State) (p : Byte) : (s.unpackP p).sp = s.sp := rfl
@[simp] theorem State.unpackP_pc (s : State) (p : Byte) : (s.unpackP p).pc = s.pc := rfl
@[simp] theorem State.unpackP_n (s : State) (p : Byte) : (s.unpackP p).n = bitOf p 7 := rfl
@[simp] theorem State.unpackP_v (s : State) (p : Byte) : (s.unpackP p).v = bitOf p 6 := rfl
@[simp] theorem State.unpackP_d (s : State) (p : Byte) : (s.unpackP p).d = bitOf p 3 := rfl
@[simp] theorem State.unpackP_i (s : State) (p : Byte) : (s.unpackP p).i = bitOf p 2 := rfl
@[simp] theorem State.unpackP_z (s : State) (p : Byte) : (s.unpackP p).z = bitOf p 1 := rfl
@[simp] theorem State.unpackP_c (s : State) (p : Byte) : (s.unpackP p).c = bitOf p 0 := rfl
@[simp] theorem State.unpackP_clock (s : State) (p : Byte) : (s.unpackP p).clock = s.clock := rfl
@[simp] theorem State.unpackP_corrupt (s : State) (p : Byte) : (s.unpackP p).corrupt = s.corrupt := rfl
@[simp] theorem State.unpackP_warning (s : State) (p : Byte) : (s.unpackP p).warning = s.warning := rfl
@[simp] theorem State.unpackP_irqLine (s : State) (p : Byte) : (s.unpackP p).irqLine = s.irqLine := rfl
@[simp] theorem State.unpackP_nmiPending (s : State) (p : Byte) : (s.unpackP p).nmiPending = s.nmiPending := rfl
@[simp] theorem State.unpackP_ram (s : State) (p : Byte) : (s.unpackP p).ram = s.ram := rfl
@[simp] theorem State.unpackP_sram (s : State) (p : Byte) : (s.unpackP p).sram = s.sram := rfl
@[simp] theorem State.unpackP_rom (s : State) (p : Byte) : (s.unpackP p).rom = s.rom := rfl
@[simp] theorem State.unpackP_bank (s : State) (p : Byte) : (s.unpackP p).bank = s.bank := rfl
@[simp] theorem State.unpackP_sound (s : State) (p : Byte) : (s.unpackP p).sound = s.sound := rfl
@[simp] theorem State.unpackP_mode (s : State) (p : Byte) : (s.unpackP p).mode = s.mode := rfl
@[simp] theorem State.unpackP_inRoutine (s : State) (p : Byte) : (s.unpackP p).inRoutine = s.inRoutine := rfl
@[simp] theorem State.unpackP_nextPlay (s : State) (p : Byte) : (s.unpackP p).nextPlay = s.nextPlay := rfl
@[simp] theorem State.unpackP_playPeriod (s : State) (p : Byte) : (s.unpackP p).playPeriod = s.playPeriod := rfl
@[simp] theorem State.unpackP_tempo (s : State) (p : Byte) : (s.unpackP p).tempo = s.tempo := rfl
@[simp] theorem State.unpackP_mute (s : State) (p : Byte) : (s.unpackP p).mute = s.mute := rfl
@[simp] theorem State.unpackP_track (s : State) (p : Byte) : (s.unpackP p).track = s.track := rfl
@[simp] theorem State.unpackP_rateSet (s : State) (p : Byte) : (s.unpackP p).rateSet = s.rateSet := rfl
@[simp] theorem State.unpackP_sampleRate (s : State) (p : Byte) : (s.unpackP p).sampleRate = s.sampleRate := rfl
@[simp] theorem State.unpackP_header (s : State) (p : Byte) : (s.unpackP p).header = s.header := rfl
@[simp] theorem State.unpackP_params (s : State) (p : Byte) : (s.unpackP p).params = s.params := rfl
@[simp] theorem State.unpackP_activity (s : State) (p : Byte) : (s.unpackP p).activity = s.activity := rfl
@[simp] theorem State.unpackP_calls (s : State) (p : Byte) : (s.unpackP p).calls = s.calls := rfl
@[simp] theorem State.unpackP_answers (s : State) (p : Byte) : (s.unpackP p).answers = s.answers := rfl
@[simp] theorem State.unpackP_apuLog (s : State) (p : Byte) : (s.unpackP p).apuLog = s.apuLog := rfl

/-! ## compare -/

@[simp] theorem State.compare_a (s : State) (r m : Byte) : (s.compare r m).a = s.a := rfl
@[simp] theorem State.compare_x (s : State) (r m : Byte) : (s.compare r m).x = s.x := rfl
@[simp] theorem State.compare_y (s : State) (r m : Byte) : (s.compare r m).y = s.y := rfl
@[simp] theorem State.compare_sp (s : State) (r m : Byte) : (s.compare r m).sp = s.sp := rfl
@[simp] theorem State.compare_pc (s : State) (r m : Byte) : (s.compare r m).pc = s.pc := rfl
@[simp] theorem State.compare_n (s : State) (r m : Byte) : (s.compare r m).n = bitOf (r - m) 7 := rfl
@[simp] theorem State.compare_v (s : State) (r m : Byte) : (s.compare r m).v = s.v := rfl
@[simp] theorem State.compare_d (s : State) (r m : Byte) : (s.compare r m).d = s.d := rfl
@[simp] theorem State.compare_i (s : State) (r m : Byte) : (s.compare r m).i = s.i := rfl
@[simp] theorem State.compare_z (s : State) (r m : Byte) : (s.compare r m).z = (r == m) := rfl
@[simp] theorem State.compare_c (s : State) (r m : Byte) : (s.compare r m).c = decide (m.toNat ≤ r.toNat) := rfl
@[simp] theorem State.compare_clock (s : State) (r m : Byte) : (s.compare r m).clock = s.clock := rfl
@[simp] theorem State.compare_corrupt (s : State) (r m : Byte) : (s.compare r m).corrupt = s.corrupt := rfl
@[simp] theorem State.compare_warning (s : State) (r m : Byte) : (s.compare r m).warning = s.warning := rfl
@[simp] theorem State.compare_irqLine (s : State) (r m : Byte) : (s.compare r m).irqLine = s.irqLine := rfl
@[simp] theorem State.compare_nmiPending (s : State) (r m : Byte) : (s.compare r m).nmiPending = s.nmiPending := rfl
@[simp] theorem State.compare_ram (s : State) (r m : Byte) : (s.compare r m).ram = s.ram := rfl
@[simp] theorem State.compare_sram (s : State) (r m : Byte) : (s.compare r m).sram = s.sram := rfl
@[simp] theorem State.compare_rom (s : State) (r m : Byte) : (s.compare r m).rom = s.rom := rfl
@[simp] theorem State.compare_bank (s : State) (r m : Byte) : (s.compare r m).bank = s.bank := rfl
@[simp] theorem State.compare_sound (s : State) (r m : Byte) : (s.compare r m).sound = s.sound := rfl
@[simp] theorem State.compare_mode (s : State) (r m : Byte) : (s.compare r m).mode = s.mode := rfl
@[simp] theorem State.compare_inRoutine (s : State) (r m : Byte) : (s.compare r m).inRoutine = s.inRoutine := rfl
@[simp] theorem State.compare_nextPlay (s : State) (r m : Byte) : (s.compare r m).nextPlay = s.nextPlay := rfl
@[simp] theorem State.compare_playPeriod (s : State) (r m : Byte) : (s.compare r m).playPeriod = s.playPeriod := rfl
@[simp] theorem State.compare_tempo (s : State) (r m : Byte) : (s.compare r m).tempo = s.tempo := rfl
@[simp] theorem State.compare_mute (s : State) (r m : Byte) : (s.compare r m).mute = s.mute := rfl
@[simp] theorem State.compare_track (s : State) (r m : Byte) : (s.compare r m).track = s.track := rfl
@[simp] theorem State.compare_rateSet (s : State) (r m : Byte) : (s.compare r m).rateSet = s.rateSet := rfl
@[simp] theorem State.compare_sampleRate (s : State) (r m : Byte) : (s.compare r m).sampleRate = s.sampleRate := rfl
@[simp] theorem State.compare_header (s : State) (r m : Byte) : (s.compare r m).header = s.header := rfl
@[simp] theorem State.compare_params (s : State) (r m : Byte) : (s.compare r m).params = s.params := rfl
@[simp] theorem State.compare_activity (s : State) (r m : Byte) : (s.compare r m).activity = s.activity := rfl
@[simp] theorem State.compare_calls (s : State) (r m : Byte) : (s.compare r m).calls = s.calls := rfl
@[simp] theorem State.compare_answers (s : State) (r m : Byte) : (s.compare r m).answers = s.answers := rfl
@[simp] theorem State.compare_apuLog (s : State) (r m : Byte) : (s.compare r m).apuLog = s.apuLog := rfl

/-! ## testBits -/

@[simp] theorem State.testBits_a (s : State) (r m : Byte) : (s.testBits r m).a = s.a := rfl
@[simp] theorem State.testBits_x (s : State) (r m : Byte) : (s.testBits r m).x = s.x := rfl
@[simp] theorem State.testBits_y (s : State) (r m : Byte) : (s.testBits r m).y = s.y := rfl
@[simp] theorem State.testBits_sp (s : State) (r m : Byte) : (s.testBits r m).sp = s.sp := rfl
@[simp] theorem State.testBits_pc (s : State) (r m : Byte) : (s.testBits r m).pc = s.pc := rfl
@[simp] theorem State.testBits_n (s : State) (r m : Byte) : (s.testBits r m).n = bitOf m 7 := rfl
@[simp] theorem State.testBits_v (s : State) (r m : Byte) : (s.testBits r m).v = bitOf m 6 := rfl
@[simp] theorem State.testBits_d (s : State) (r m : Byte) : (s.testBits r m).d = s.d := rfl
@[simp] theorem State.testBits_i (s : State) (r m : Byte) : (s.testBits r m).i = s.i := rfl
@[simp] theorem State.testBits_z (s : State) (r m : Byte) : (s.testBits r m).z = ((r &&& m) == 0x00) := rfl
@[simp] theorem State.testBits_c (s : State) (r m : Byte) : (s.testBits r m).c = s.c := rfl
@[simp] theorem State.testBits_clock (s : State) (r m : Byte) : (s.testBits r m).clock = s.clock := rfl
@[simp] theorem State.testBits_corrupt (s : State) (r m : Byte) : (s.testBits r m).corrupt = s.corrupt := rfl
@[simp] theorem State.testBits_warning (s : State) (r m : Byte) : (s.testBits r m).warning = s.warning := rfl
@[simp] theorem State.testBits_irqLine (s : State) (r m : Byte) : (s.testBits r m).irqLine = s.irqLine := rfl
@[simp] theorem State.testBits_nmiPending (s : State) (r m : Byte) : (s.testBits r m).nmiPending = s.nmiPending := rfl
@[simp] theorem State.testBits_ram (s : State) (r m : Byte) : (s.testBits r m).ram = s.ram := rfl
@[simp] theorem State.testBits_sram (s : State) (r m : Byte) : (s.testBits r m).sram = s.sram := rfl
@[simp] theorem State.testBits_rom (s : State) (r m : Byte) : (s.testBits r m).rom = s.rom := rfl
@[simp] theorem State.testBits_bank (s : State) (r m : Byte) : (s.testBits r m).bank = s.bank := rfl
@[simp] theorem State.testBits_sound (s : State) (r m : Byte) : (s.testBits r m).sound = s.sound := rfl
@[simp] theorem State.testBits_mode (s : State) (r m : Byte) : (s.testBits r m).mode = s.mode := rfl
@[simp] theorem State.testBits_inRoutine (s : State) (r m : Byte) : (s.testBits r m).inRoutine = s.inRoutine := rfl
@[simp] theorem State.testBits_nextPlay (s : State) (r m : Byte) : (s.testBits r m).nextPlay = s.nextPlay := rfl
@[simp] theorem State.testBits_playPeriod (s : State) (r m : Byte) : (s.testBits r m).playPeriod = s.playPeriod := rfl
@[simp] theorem State.testBits_tempo (s : State) (r m : Byte) : (s.testBits r m).tempo = s.tempo := rfl
@[simp] theorem State.testBits_mute (s : State) (r m : Byte) : (s.testBits r m).mute = s.mute := rfl
@[simp] theorem State.testBits_track (s : State) (r m : Byte) : (s.testBits r m).track = s.track := rfl
@[simp] theorem State.testBits_rateSet (s : State) (r m : Byte) : (s.testBits r m).rateSet = s.rateSet := rfl
@[simp] theorem State.testBits_sampleRate (s : State) (r m : Byte) : (s.testBits r m).sampleRate = s.sampleRate := rfl
@[simp] theorem State.testBits_header (s : State) (r m : Byte) : (s.testBits r m).header = s.header := rfl
@[simp] theorem State.testBits_params (s : State) (r m : Byte) : (s.testBits r m).params = s.params := rfl
@[simp] theorem State.testBits_activity (s : State) (r m : Byte) : (s.testBits r m).activity = s.activity := rfl
@[simp] theorem State.testBits_calls (s : State) (r m : Byte) : (s.testBits r m).calls = s.calls := rfl
@[simp] theorem State.testBits_answers (s : State) (r m : Byte) : (s.testBits r m).answers = s.answers := rfl
@[simp] theorem State.testBits_apuLog (s : State) (r m : Byte) : (s.testBits r m).apuLog = s.apuLog := rfl

/-! ## setBank -/

@[simp] theorem State.setBank_a (s : State) (w : Fin 8) (b : Byte) : (s.setBank w b).a = s.a := rfl
@[simp] theorem State.setBank_x (s : State) (w : Fin 8) (b : Byte) : (s.setBank w b).x = s.x := rfl
@[simp] theorem State.setBank_y (s : State) (w : Fin 8) (b : Byte) : (s.setBank w b).y = s.y := rfl
@[simp] theorem State.setBank_sp (s : State) (w : Fin 8) (b : Byte) : (s.setBank w b).sp = s.sp := rfl
@[simp] theorem State.setBank_pc (s : State) (w : Fin 8) (b : Byte) : (s.setBank w b).pc = s.pc := rfl
@[simp] theorem State.setBank_n (s : State) (w : Fin 8) (b : Byte) : (s.setBank w b).n = s.n := rfl
@[simp] theorem State.setBank_v (s : State) (w : Fin 8) (b : Byte) : (s.setBank w b).v = s.v := rfl
@[simp] theorem State.setBank_d (s : State) (w : Fin 8) (b : Byte) : (s.setBank w b).d = s.d := rfl
@[simp] theorem State.setBank_i (s : State) (w : Fin 8) (b : Byte) : (s.setBank w b).i = s.i := rfl
@[simp] theorem State.setBank_z (s : State) (w : Fin 8) (b : Byte) : (s.setBank w b).z = s.z := rfl
@[simp] theorem State.setBank_c (s : State) (w : Fin 8) (b : Byte) : (s.setBank w b).c = s.c := rfl
@[simp] theorem State.setBank_clock (s : State) (w : Fin 8) (b : Byte) : (s.setBank w b).clock = s.clock := rfl
@[simp] theorem State.setBank_corrupt (s : State) (w : Fin 8) (b : Byte) : (s.setBank w b).corrupt = s.corrupt := rfl
@[simp] theorem State.setBank_warning (s : State) (w : Fin 8) (b : Byte) : (s.setBank w b).warning = s.warning := rfl
@[simp] theorem State.setBank_irqLine (s : State) (w : Fin 8) (b : Byte) : (s.setBank w b).irqLine = s.irqLine := rfl
@[simp] theorem State.setBank_nmiPending (s : State) (w : Fin 8) (b : Byte) : (s.setBank w b).nmiPending = s.nmiPending := rfl
@[simp] theorem State.setBank_ram (s : State) (w : Fin 8) (b : Byte) : (s.setBank w b).ram = s.ram := rfl
@[simp] theorem State.setBank_sram (s : State) (w : Fin 8) (b : Byte) : (s.setBank w b).sram = s.sram := rfl
@[simp] theorem State.setBank_rom (s : State) (w : Fin 8) (b : Byte) : (s.setBank w b).rom = s.rom := rfl
@[simp] theorem State.setBank_bank (s : State) (w : Fin 8) (b : Byte) : (s.setBank w b).bank = s.bank.set w.val b w.isLt := rfl
@[simp] theorem State.setBank_sound (s : State) (w : Fin 8) (b : Byte) : (s.setBank w b).sound = s.sound := rfl
@[simp] theorem State.setBank_mode (s : State) (w : Fin 8) (b : Byte) : (s.setBank w b).mode = s.mode := rfl
@[simp] theorem State.setBank_inRoutine (s : State) (w : Fin 8) (b : Byte) : (s.setBank w b).inRoutine = s.inRoutine := rfl
@[simp] theorem State.setBank_nextPlay (s : State) (w : Fin 8) (b : Byte) : (s.setBank w b).nextPlay = s.nextPlay := rfl
@[simp] theorem State.setBank_playPeriod (s : State) (w : Fin 8) (b : Byte) : (s.setBank w b).playPeriod = s.playPeriod := rfl
@[simp] theorem State.setBank_tempo (s : State) (w : Fin 8) (b : Byte) : (s.setBank w b).tempo = s.tempo := rfl
@[simp] theorem State.setBank_mute (s : State) (w : Fin 8) (b : Byte) : (s.setBank w b).mute = s.mute := rfl
@[simp] theorem State.setBank_track (s : State) (w : Fin 8) (b : Byte) : (s.setBank w b).track = s.track := rfl
@[simp] theorem State.setBank_rateSet (s : State) (w : Fin 8) (b : Byte) : (s.setBank w b).rateSet = s.rateSet := rfl
@[simp] theorem State.setBank_sampleRate (s : State) (w : Fin 8) (b : Byte) : (s.setBank w b).sampleRate = s.sampleRate := rfl
@[simp] theorem State.setBank_header (s : State) (w : Fin 8) (b : Byte) : (s.setBank w b).header = s.header := rfl
@[simp] theorem State.setBank_params (s : State) (w : Fin 8) (b : Byte) : (s.setBank w b).params = s.params := rfl
@[simp] theorem State.setBank_activity (s : State) (w : Fin 8) (b : Byte) : (s.setBank w b).activity = s.activity := rfl
@[simp] theorem State.setBank_calls (s : State) (w : Fin 8) (b : Byte) : (s.setBank w b).calls = s.calls := rfl
@[simp] theorem State.setBank_answers (s : State) (w : Fin 8) (b : Byte) : (s.setBank w b).answers = s.answers := rfl
@[simp] theorem State.setBank_apuLog (s : State) (w : Fin 8) (b : Byte) : (s.setBank w b).apuLog = s.apuLog := rfl

/-! ## retire -/

@[simp] theorem State.retire_a (s : State) (len cost : Nat) : (s.retire len cost).a = s.a := rfl
@[simp] theorem State.retire_x (s : State) (len cost : Nat) : (s.retire len cost).x = s.x := rfl
@[simp] theorem State.retire_y (s : State) (len cost : Nat) : (s.retire len cost).y = s.y := rfl
@[simp] theorem State.retire_sp (s : State) (len cost : Nat) : (s.retire len cost).sp = s.sp := rfl
@[simp] theorem State.retire_pc (s : State) (len cost : Nat) : (s.retire len cost).pc = s.pc + BitVec.ofNat 16 len := rfl
@[simp] theorem State.retire_n (s : State) (len cost : Nat) : (s.retire len cost).n = s.n := rfl
@[simp] theorem State.retire_v (s : State) (len cost : Nat) : (s.retire len cost).v = s.v := rfl
@[simp] theorem State.retire_d (s : State) (len cost : Nat) : (s.retire len cost).d = s.d := rfl
@[simp] theorem State.retire_i (s : State) (len cost : Nat) : (s.retire len cost).i = s.i := rfl
@[simp] theorem State.retire_z (s : State) (len cost : Nat) : (s.retire len cost).z = s.z := rfl
@[simp] theorem State.retire_c (s : State) (len cost : Nat) : (s.retire len cost).c = s.c := rfl
@[simp] theorem State.retire_clock (s : State) (len cost : Nat) : (s.retire len cost).clock = s.clock + cost := rfl
@[simp] theorem State.retire_corrupt (s : State) (len cost : Nat) : (s.retire len cost).corrupt = s.corrupt := rfl
@[simp] theorem State.retire_warning (s : State) (len cost : Nat) : (s.retire len cost).warning = s.warning := rfl
@[simp] theorem State.retire_irqLine (s : State) (len cost : Nat) : (s.retire len cost).irqLine = s.irqLine := rfl
@[simp] theorem State.retire_nmiPending (s : State) (len cost : Nat) : (s.retire len cost).nmiPending = s.nmiPending := rfl
@[simp] theorem State.retire_ram (s : State) (len cost : Nat) : (s.retire len cost).ram = s.ram := rfl
@[simp] theorem State.retire_sram (s : State) (len cost : Nat) : (s.retire len cost).sram = s.sram := rfl
@[simp] theorem State.retire_rom (s : State) (len cost : Nat) : (s.retire len cost).rom = s.rom := rfl
@[simp] theorem State.retire_bank (s : State) (len cost : Nat) : (s.retire len cost).bank = s.bank := rfl
@[simp] theorem State.retire_sound (s : State) (len cost : Nat) : (s.retire len cost).sound = s.sound := rfl
@[simp] theorem State.retire_mode (s : State) (len cost : Nat) : (s.retire len cost).mode = s.mode := rfl
@[simp] theorem State.retire_inRoutine (s : State) (len cost : Nat) : (s.retire len cost).inRoutine = s.inRoutine := rfl
@[simp] theorem State.retire_nextPlay (s : State) (len cost : Nat) : (s.retire len cost).nextPlay = s.nextPlay := rfl
@[simp] theorem State.retire_playPeriod (s : State) (len cost : Nat) : (s.retire len cost).playPeriod = s.playPeriod := rfl
@[simp] theorem State.retire_tempo (s : State) (len cost : Nat) : (s.retire len cost).tempo = s.tempo := rfl
@[simp] theorem State.retire_mute (s : State) (len cost : Nat) : (s.retire len cost).mute = s.mute := rfl
@[simp] theorem State.retire_track (s : State) (len cost : Nat) : (s.retire len cost).track = s.track := rfl
@[simp] theorem State.retire_rateSet (s : State) (len cost : Nat) : (s.retire len cost).rateSet = s.rateSet := rfl
@[simp] theorem State.retire_sampleRate (s : State) (len cost : Nat) : (s.retire len cost).sampleRate = s.sampleRate := rfl
@[simp] theorem State.retire_header (s : State) (len cost : Nat) : (s.retire len cost).header = s.header := rfl
@[simp] theorem State.retire_params (s : State) (len cost : Nat) : (s.retire len cost).params = s.params := rfl
@[simp] theorem State.retire_activity (s : State) (len cost : Nat) : (s.retire len cost).activity = s.activity := rfl
@[simp] theorem State.retire_calls (s : State) (len cost : Nat) : (s.retire len cost).calls = s.calls := rfl
@[simp] theorem State.retire_answers (s : State) (len cost : Nat) : (s.retire len cost).answers = s.answers := rfl
@[simp] theorem State.retire_apuLog (s : State) (len cost : Nat) : (s.retire len cost).apuLog = s.apuLog := rfl

/-! ## jump -/

@[simp] theorem State.jump_a (s : State) (target : Addr) (cost : Nat) : (s.jump target cost).a = s.a := rfl
@[simp] theorem State.jump_x (s : State) (target : Addr) (cost : Nat) : (s.jump target cost).x = s.x := rfl
@[simp] theorem State.jump_y (s : State) (target : Addr) (cost : Nat) : (s.jump target cost).y = s.y := rfl
@[simp] theorem State.jump_sp (s : State) (target : Addr) (cost : Nat) : (s.jump target cost).sp = s.sp := rfl
@[simp] theorem State.jump_pc (s : State) (target : Addr) (cost : Nat) : (s.jump target cost).pc = target := rfl
@[simp] theorem State.jump_n (s : State) (target : Addr) (cost : Nat) : (s.jump target cost).n = s.n := rfl
@[simp] theorem State.jump_v (s : State) (target : Addr) (cost : Nat) : (s.jump target cost).v = s.v := rfl
@[simp] theorem State.jump_d (s : State) (target : Addr) (cost : Nat) : (s.jump target cost).d = s.d := rfl
@[simp] theorem State.jump_i (s : State) (target : Addr) (cost : Nat) : (s.jump target cost).i = s.i := rfl
@[simp] theorem State.jump_z (s : State) (target : Addr) (cost : Nat) : (s.jump target cost).z = s.z := rfl
@[simp] theorem State.jump_c (s : State) (target : Addr) (cost : Nat) : (s.jump target cost).c = s.c := rfl
@[simp] theorem State.jump_clock (s : State) (target : Addr) (cost : Nat) : (s.jump target cost).clock = s.clock + cost := rfl
@[simp] theorem State.jump_corrupt (s : State) (target : Addr) (cost : Nat) : (s.jump target cost).corrupt = s.corrupt := rfl
@[simp] theorem State.jump_warning (s : State) (target : Addr) (cost : Nat) : (s.jump target cost).warning = s.warning := rfl
@[simp] theorem State.jump_irqLine (s : State) (target : Addr) (cost : Nat) : (s.jump target cost).irqLine = s.irqLine := rfl
@[simp] theorem State.jump_nmiPending (s : State) (target : Addr) (cost : Nat) :
    (s.jump target cost).nmiPending = s.nmiPending := rfl
@[simp] theorem State.jump_ram (s : State) (target : Addr) (cost : Nat) : (s.jump target cost).ram = s.ram := rfl
@[simp] theorem State.jump_sram (s : State) (target : Addr) (cost : Nat) : (s.jump target cost).sram = s.sram := rfl
@[simp] theorem State.jump_rom (s : State) (target : Addr) (cost : Nat) : (s.jump target cost).rom = s.rom := rfl
@[simp] theorem State.jump_bank (s : State) (target : Addr) (cost : Nat) : (s.jump target cost).bank = s.bank := rfl
@[simp] theorem State.jump_sound (s : State) (target : Addr) (cost : Nat) : (s.jump target cost).sound = s.sound := rfl
@[simp] theorem State.jump_mode (s : State) (target : Addr) (cost : Nat) : (s.jump target cost).mode = s.mode := rfl
@[simp] theorem State.jump_inRoutine (s : State) (target : Addr) (cost : Nat) :
    (s.jump target cost).inRoutine = s.inRoutine := rfl
@[simp] theorem State.jump_nextPlay (s : State) (target : Addr) (cost : Nat) : (s.jump target cost).nextPlay = s.nextPlay := rfl
@[simp] theorem State.jump_playPeriod (s : State) (target : Addr) (cost : Nat) :
    (s.jump target cost).playPeriod = s.playPeriod := rfl
@[simp] theorem State.jump_tempo (s : State) (target : Addr) (cost : Nat) : (s.jump target cost).tempo = s.tempo := rfl
@[simp] theorem State.jump_mute (s : State) (target : Addr) (cost : Nat) : (s.jump target cost).mute = s.mute := rfl
@[simp] theorem State.jump_track (s : State) (target : Addr) (cost : Nat) : (s.jump target cost).track = s.track := rfl
@[simp] theorem State.jump_rateSet (s : State) (target : Addr) (cost : Nat) : (s.jump target cost).rateSet = s.rateSet := rfl
@[simp] theorem State.jump_sampleRate (s : State) (target : Addr) (cost : Nat) :
    (s.jump target cost).sampleRate = s.sampleRate := rfl
@[simp] theorem State.jump_header (s : State) (target : Addr) (cost : Nat) : (s.jump target cost).header = s.header := rfl
@[simp] theorem State.jump_params (s : State) (target : Addr) (cost : Nat) : (s.jump target cost).params = s.params := rfl
@[simp] theorem State.jump_activity (s : State) (target : Addr) (cost : Nat) : (s.jump target cost).activity = s.activity := rfl
@[simp] theorem State.jump_calls (s : State) (target : Addr) (cost : Nat) : (s.jump target cost).calls = s.calls := rfl
@[simp] theorem State.jump_answers (s : State) (target : Addr) (cost : Nat) : (s.jump target cost).answers = s.answers := rfl
@[simp] theorem State.jump_apuLog (s : State) (target : Addr) (cost : Nat) : (s.jump target cost).apuLog = s.apuLog := rfl

/-! ## retireInstr -/

@[simp] theorem State.retireInstr_a (s : State) (j : Instr) (extra : Nat) : (s.retireInstr j extra).a = s.a := rfl
@[simp] theorem State.retireInstr_x (s : State) (j : Instr) (extra : Nat) : (s.retireInstr j extra).x = s.x := rfl
@[simp] theorem State.retireInstr_y (s : State) (j : Instr) (extra : Nat) : (s.retireInstr j extra).y = s.y := rfl
@[simp] theorem State.retireInstr_sp (s : State) (j : Instr) (extra : Nat) : (s.retireInstr j extra).sp = s.sp := rfl
@[simp] theorem State.retireInstr_pc (s : State) (j : Instr) (extra : Nat) :
    (s.retireInstr j extra).pc = s.pc + BitVec.ofNat 16 (instrLength j) := rfl
@[simp] theorem State.retireInstr_n (s : State) (j : Instr) (extra : Nat) : (s.retireInstr j extra).n = s.n := rfl
@[simp] theorem State.retireInstr_v (s : State) (j : Instr) (extra : Nat) : (s.retireInstr j extra).v = s.v := rfl
@[simp] theorem State.retireInstr_d (s : State) (j : Instr) (extra : Nat) : (s.retireInstr j extra).d = s.d := rfl
@[simp] theorem State.retireInstr_i (s : State) (j : Instr) (extra : Nat) : (s.retireInstr j extra).i = s.i := rfl
@[simp] theorem State.retireInstr_z (s : State) (j : Instr) (extra : Nat) : (s.retireInstr j extra).z = s.z := rfl
@[simp] theorem State.retireInstr_c (s : State) (j : Instr) (extra : Nat) : (s.retireInstr j extra).c = s.c := rfl
@[simp] theorem State.retireInstr_clock (s : State) (j : Instr) (extra : Nat) :
    (s.retireInstr j extra).clock = s.clock + ((baseCycles j + extra : Nat) : Int) := rfl
@[simp] theorem State.retireInstr_corrupt (s : State) (j : Instr) (extra : Nat) :
    (s.retireInstr j extra).corrupt = s.corrupt := rfl
@[simp] theorem State.retireInstr_warning (s : State) (j : Instr) (extra : Nat) :
    (s.retireInstr j extra).warning = s.warning := rfl
@[simp] theorem State.retireInstr_irqLine (s : State) (j : Instr) (extra : Nat) :
    (s.retireInstr j extra).irqLine = s.irqLine := rfl
@[simp] theorem State.retireInstr_nmiPending (s : State) (j : Instr) (extra : Nat) :
    (s.retireInstr j extra).nmiPending = s.nmiPending := rfl
@[simp] theorem State.retireInstr_ram (s : State) (j : Instr) (extra : Nat) : (s.retireInstr j extra).ram = s.ram := rfl
@[simp] theorem State.retireInstr_sram (s : State) (j : Instr) (extra : Nat) : (s.retireInstr j extra).sram = s.sram := rfl
@[simp] theorem State.retireInstr_rom (s : State) (j : Instr) (extra : Nat) : (s.retireInstr j extra).rom = s.rom := rfl
@[simp] theorem State.retireInstr_bank (s : State) (j : Instr) (extra : Nat) : (s.retireInstr j extra).bank = s.bank := rfl
@[simp] theorem State.retireInstr_sound (s : State) (j : Instr) (extra : Nat) : (s.retireInstr j extra).sound = s.sound := rfl
@[simp] theorem State.retireInstr_mode (s : State) (j : Instr) (extra : Nat) : (s.retireInstr j extra).mode = s.mode := rfl
@[simp] theorem State.retireInstr_inRoutine (s : State) (j : Instr) (extra : Nat) :
    (s.retireInstr j extra).inRoutine = s.inRoutine := rfl
@[simp] theorem State.retireInstr_nextPlay (s : State) (j : Instr) (extra : Nat) :
    (s.retireInstr j extra).nextPlay = s.nextPlay := rfl
@[simp] theorem State.retireInstr_playPeriod (s : State) (j : Instr) (extra : Nat) :
    (s.retireInstr j extra).playPeriod = s.playPeriod := rfl
@[simp] theorem State.retireInstr_tempo (s : State) (j : Instr) (extra : Nat) : (s.retireInstr j extra).tempo = s.tempo := rfl
@[simp] theorem State.retireInstr_mute (s : State) (j : Instr) (extra : Nat) : (s.retireInstr j extra).mute = s.mute := rfl
@[simp] theorem State.retireInstr_track (s : State) (j : Instr) (extra : Nat) : (s.retireInstr j extra).track = s.track := rfl
@[simp] theorem State.retireInstr_rateSet (s : State) (j : Instr) (extra : Nat) :
    (s.retireInstr j extra).rateSet = s.rateSet := rfl
@[simp] theorem State.retireInstr_sampleRate (s : State) (j : Instr) (extra : Nat) :
    (s.retireInstr j extra).sampleRate = s.sampleRate := rfl
@[simp] theorem State.retireInstr_header (s : State) (j : Instr) (extra : Nat) :
    (s.retireInstr j extra).header = s.header := rfl
@[simp] theorem State.retireInstr_params (s : State) (j : Instr) (extra : Nat) :
    (s.retireInstr j extra).params = s.params := rfl
@[simp] theorem State.retireInstr_activity (s : State) (j : Instr) (extra : Nat) :
    (s.retireInstr j extra).activity = s.activity := rfl
@[simp] theorem State.retireInstr_calls (s : State) (j : Instr) (extra : Nat) : (s.retireInstr j extra).calls = s.calls := rfl
@[simp] theorem State.retireInstr_answers (s : State) (j : Instr) (extra : Nat) :
    (s.retireInstr j extra).answers = s.answers := rfl
@[simp] theorem State.retireInstr_apuLog (s : State) (j : Instr) (extra : Nat) :
    (s.retireInstr j extra).apuLog = s.apuLog := rfl

/-! ## finish -/

@[simp] theorem State.finish_a (s : State) (r : HostAnswer) : (s.finish r).a = s.a := rfl
@[simp] theorem State.finish_x (s : State) (r : HostAnswer) : (s.finish r).x = s.x := rfl
@[simp] theorem State.finish_y (s : State) (r : HostAnswer) : (s.finish r).y = s.y := rfl
@[simp] theorem State.finish_sp (s : State) (r : HostAnswer) : (s.finish r).sp = s.sp := rfl
@[simp] theorem State.finish_pc (s : State) (r : HostAnswer) : (s.finish r).pc = s.pc := rfl
@[simp] theorem State.finish_n (s : State) (r : HostAnswer) : (s.finish r).n = s.n := rfl
@[simp] theorem State.finish_v (s : State) (r : HostAnswer) : (s.finish r).v = s.v := rfl
@[simp] theorem State.finish_d (s : State) (r : HostAnswer) : (s.finish r).d = s.d := rfl
@[simp] theorem State.finish_i (s : State) (r : HostAnswer) : (s.finish r).i = s.i := rfl
@[simp] theorem State.finish_z (s : State) (r : HostAnswer) : (s.finish r).z = s.z := rfl
@[simp] theorem State.finish_c (s : State) (r : HostAnswer) : (s.finish r).c = s.c := rfl
@[simp] theorem State.finish_clock (s : State) (r : HostAnswer) : (s.finish r).clock = s.clock := rfl
@[simp] theorem State.finish_corrupt (s : State) (r : HostAnswer) : (s.finish r).corrupt = s.corrupt := rfl
@[simp] theorem State.finish_warning (s : State) (r : HostAnswer) : (s.finish r).warning = s.warning := rfl
@[simp] theorem State.finish_irqLine (s : State) (r : HostAnswer) : (s.finish r).irqLine = s.irqLine := rfl
@[simp] theorem State.finish_nmiPending (s : State) (r : HostAnswer) : (s.finish r).nmiPending = s.nmiPending := rfl
@[simp] theorem State.finish_ram (s : State) (r : HostAnswer) : (s.finish r).ram = s.ram := rfl
@[simp] theorem State.finish_sram (s : State) (r : HostAnswer) : (s.finish r).sram = s.sram := rfl
@[simp] theorem State.finish_rom (s : State) (r : HostAnswer) : (s.finish r).rom = s.rom := rfl
@[simp] theorem State.finish_bank (s : State) (r : HostAnswer) : (s.finish r).bank = s.bank := rfl
@[simp] theorem State.finish_sound (s : State) (r : HostAnswer) : (s.finish r).sound = s.sound := rfl
@[simp] theorem State.finish_mode (s : State) (r : HostAnswer) : (s.finish r).mode = s.mode := rfl
@[simp] theorem State.finish_inRoutine (s : State) (r : HostAnswer) : (s.finish r).inRoutine = s.inRoutine := rfl
@[simp] theorem State.finish_nextPlay (s : State) (r : HostAnswer) : (s.finish r).nextPlay = s.nextPlay := rfl
@[simp] theorem State.finish_playPeriod (s : State) (r : HostAnswer) : (s.finish r).playPeriod = s.playPeriod := rfl
@[simp] theorem State.finish_tempo (s : State) (r : HostAnswer) : (s.finish r).tempo = s.tempo := rfl
@[simp] theorem State.finish_mute (s : State) (r : HostAnswer) : (s.finish r).mute = s.mute := rfl
@[simp] theorem State.finish_track (s : State) (r : HostAnswer) : (s.finish r).track = s.track := rfl
@[simp] theorem State.finish_rateSet (s : State) (r : HostAnswer) : (s.finish r).rateSet = s.rateSet := rfl
@[simp] theorem State.finish_sampleRate (s : State) (r : HostAnswer) : (s.finish r).sampleRate = s.sampleRate := rfl
@[simp] theorem State.finish_header (s : State) (r : HostAnswer) : (s.finish r).header = s.header := rfl
@[simp] theorem State.finish_params (s : State) (r : HostAnswer) : (s.finish r).params = s.params := rfl
@[simp] theorem State.finish_activity (s : State) (r : HostAnswer) : (s.finish r).activity = .waiting := rfl
@[simp] theorem State.finish_calls (s : State) (r : HostAnswer) : (s.finish r).calls = s.calls := rfl
@[simp] theorem State.finish_answers (s : State) (r : HostAnswer) : (s.finish r).answers = s.answers ++ [r] := rfl
@[simp] theorem State.finish_apuLog (s : State) (r : HostAnswer) : (s.finish r).apuLog = s.apuLog := rfl

end Sys2Proof.Machine
end

