-- ==== Sys2Proof/Laws/Instr.lean ====
section
/-! SUPPORT. What the shapes of `Machine/Operands.lean` can do, said once: reads and writes as frames, and each shape as an
equation from what its accesses answer and as an inversion of what it answered. -/

namespace Sys2Proof.Machine

/-! ## Sequencing -/

@[simp] theorem ok_bind {α β : Type} (a : α) (f : α → Res β) : ((.ok a : Res α) >>= f) = f a := rfl

@[simp] theorem error_bind {α β : Type} (e : Fault) (f : α → Res β) : ((.error e : Res α) >>= f) = .error e := rfl

@[simp] theorem pure_eq_ok {α : Type} (a : α) : (pure a : Res α) = .ok a := rfl

/-! ## Accesses as frames -/

/-- A read changes nothing but the APU. -/
theorem memRead_frame {s s1 : State} {a : Addr} {t : Int} {v : Byte} (h : memRead s a t = .ok (v, s1)) :
    s1 = { s with sound := s1.sound } := by
  obtain ⟨-, -, rfl⟩ | ⟨-, w, -, rfl⟩ := memRead_cases h <;> rfl

/-- An operand read changes nothing but the APU. -/
theorem operand_frame {s s1 : State} {src : Source} {t : Int} {m : Byte} (h : operand s src t = .ok (m, s1)) :
    s1 = { s with sound := s1.sound } := by
  cases src with
  | imm v =>
    simp only [operand, Except.ok.injEq, Prod.mk.injEq] at h
    obtain ⟨-, rfl⟩ := h
    rfl
  | mem mode => exact memRead_frame h

/-- A write changes nothing but the memories, the bank registers, the warning slot, the APU and its record. -/
theorem memWrite_frame {s s1 : State} {a : Addr} {t : Int} {v : Byte} (h : memWrite s a v t = .ok s1) :
    s1 = { s with
      ram := s1.ram, sram := s1.sram, bank := s1.bank, warning := s1.warning, sound := s1.sound, apuLog := s1.apuLog } := by
  obtain ⟨-, rfl⟩ | ⟨-, -, rfl⟩ | ⟨-, w, -, rfl⟩ | ⟨-, rfl⟩ | ⟨-, -, -, -, rfl⟩ := memWrite_cases h
  · rfl
  · rfl
  · rfl
  · unfold writeBank
    split <;> rfl
  · rfl

/-! ## Shapes -/

theorem readInstr_ok {i : Instr} {src : Source} {f : Byte → State → State} {s s1 : State} {m : Byte}
    (h : operand s src (s.dataTime i) = .ok (m, s1)) :
    readInstr i src f s = .ok ((f m s1).retireInstr i (readExtra s src)) := by
  simp [readInstr, h]

theorem readInstr_error {i : Instr} {src : Source} {f : Byte → State → State} {s : State} {e : Fault}
    (h : operand s src (s.dataTime i) = .error e) : readInstr i src f s = .error e := by
  simp [readInstr, h]

theorem readInstr_cases {i : Instr} {src : Source} {f : Byte → State → State} {s s' : State}
    (h : readInstr i src f s = .ok s') :
    ∃ m s1, operand s src (s.dataTime i) = .ok (m, s1) ∧ s' = (f m s1).retireInstr i (readExtra s src) := by
  simp only [readInstr, bind_eq_ok, Prod.exists, pure_eq_ok, Except.ok.injEq] at h
  obtain ⟨m, s1, h1, h2⟩ := h
  exact ⟨m, s1, h1, h2.symm⟩

theorem storeInstr_ok {i : Instr} {dst : MemMode} {v : Byte} {s s1 : State}
    (h : memWrite s (effAddr s dst).addr v (s.dataTime i) = .ok s1) : storeInstr i dst v s = .ok (s1.retireInstr i 0) := by
  simp [storeInstr, h]

theorem storeInstr_error {i : Instr} {dst : MemMode} {v : Byte} {s : State} {e : Fault}
    (h : memWrite s (effAddr s dst).addr v (s.dataTime i) = .error e) : storeInstr i dst v s = .error e := by
  simp [storeInstr, h]

theorem storeInstr_cases {i : Instr} {dst : MemMode} {v : Byte} {s s' : State} (h : storeInstr i dst v s = .ok s') :
    ∃ s1, memWrite s (effAddr s dst).addr v (s.dataTime i) = .ok s1 ∧ s' = s1.retireInstr i 0 := by
  simp only [storeInstr, bind_eq_ok, pure_eq_ok, Except.ok.injEq] at h
  obtain ⟨s1, h1, h2⟩ := h
  exact ⟨s1, h1, h2.symm⟩

theorem rmwInstr_ok {i : Instr} {m : RmwMode} {f : Byte → Byte} {g : Byte → State → State} {s s1 s2 : State} {old : Byte}
    (h1 : memRead s (rmwAddr s m) (s.dataTime i) = .ok (old, s1))
    (h2 : memWrite s1 (rmwAddr s m) (f old) (s.dataTime i) = .ok s2) :
    rmwInstr i m f g s = .ok ((g old s2).retireInstr i 0) := by
  simp [rmwInstr, h1, h2]

theorem rmwInstr_error_read {i : Instr} {m : RmwMode} {f : Byte → Byte} {g : Byte → State → State} {s : State} {e : Fault}
    (h : memRead s (rmwAddr s m) (s.dataTime i) = .error e) : rmwInstr i m f g s = .error e := by
  simp [rmwInstr, h]

theorem rmwInstr_error_write {i : Instr} {m : RmwMode} {f : Byte → Byte} {g : Byte → State → State} {s s1 : State}
    {old : Byte} {e : Fault} (h1 : memRead s (rmwAddr s m) (s.dataTime i) = .ok (old, s1))
    (h2 : memWrite s1 (rmwAddr s m) (f old) (s.dataTime i) = .error e) : rmwInstr i m f g s = .error e := by
  simp [rmwInstr, h1, h2]

theorem rmwInstr_cases {i : Instr} {m : RmwMode} {f : Byte → Byte} {g : Byte → State → State} {s s' : State}
    (h : rmwInstr i m f g s = .ok s') :
    ∃ old s1 s2, memRead s (rmwAddr s m) (s.dataTime i) = .ok (old, s1) ∧
      memWrite s1 (rmwAddr s m) (f old) (s.dataTime i) = .ok s2 ∧ s' = (g old s2).retireInstr i 0 := by
  simp only [rmwInstr, bind_eq_ok, Prod.exists, pure_eq_ok, Except.ok.injEq] at h
  obtain ⟨old, s1, h1, s2, h2, h3⟩ := h
  exact ⟨old, s1, s2, h1, h2, h3.symm⟩

theorem impliedInstr_eq (i : Instr) (f : State → State) (s : State) :
    impliedInstr i f s = .ok ((f s).retireInstr i 0) := rfl

/-- ADC and SBC where decimal arithmetic is not refused: an ordinary reading instruction (R221). -/
theorem addInstr_binary {i : Instr} {src : Source} {sum : Byte → Byte → Bool → AluOut} {s : State}
    (h : ¬(s.params.decimal = .refused ∧ s.d = true)) :
    addInstr i src sum s =
      readInstr i src (fun m s =>
        { s with a := (sum s.a m s.c).value, c := (sum s.a m s.c).carry, v := (sum s.a m s.c).overflow }.setNZ
          (sum s.a m s.c).value) s := by
  simp only [addInstr, if_neg h]

theorem addInstr_refused {i : Instr} {src : Source} {sum : Byte → Byte → Bool → AluOut} {s : State}
    (h : s.params.decimal = .refused ∧ s.d = true) : addInstr i src sum s = .error .decimalUnmodelled := by
  simp only [addInstr, if_pos h]

/-! ## Shapes as frames -/

/-- A reading instruction leaves its effect on the state with some APU, retired. -/
theorem readInstr_frame {i : Instr} {src : Source} {f : Byte → State → State} {s s' : State}
    (h : answer (readInstr i src f s) = .next s') :
    ∃ m w, s' = (f m { s with sound := w }).retireInstr i (readExtra s src) := by
  obtain ⟨m, s1, h1, rfl⟩ := readInstr_cases (answer_eq_next.1 h)
  exact ⟨m, s1.sound, by rw [← operand_frame h1]⟩

/-- ADC and SBC leave A, C, V, N and Z changed, and some APU, retired. -/
theorem addInstr_frame {i : Instr} {src : Source} {sum : Byte → Byte → Bool → AluOut} {s s' : State}
    (h : answer (addInstr i src sum s) = .next s') :
    ∃ (r : AluOut) (w : Sound),
      s' = ({ s with sound := w, a := r.value, c := r.carry, v := r.overflow }.setNZ r.value).retireInstr i
        (readExtra s src) := by
  rw [answer_eq_next] at h
  unfold addInstr at h
  split at h
  · cases h
  · obtain ⟨m, s1, h1, rfl⟩ := readInstr_cases h
    refine ⟨sum s1.a m s1.c, s1.sound, ?_⟩
    have hs := operand_frame h1
    generalize s1.sound = w at hs
    subst hs
    rfl

/-- A store leaves the memories, the bank registers, the warning slot, the APU and its record changed, retired. -/
theorem storeInstr_frame {i : Instr} {dst : MemMode} {v : Byte} {s s' : State}
    (h : answer (storeInstr i dst v s) = .next s') :
    ∃ ram sram bank warning sound apuLog,
      s' = State.retireInstr
        { s with ram := ram, sram := sram, bank := bank, warning := warning, sound := sound, apuLog := apuLog } i 0 := by
  obtain ⟨s1, h1, rfl⟩ := storeInstr_cases (answer_eq_next.1 h)
  exact ⟨_, _, _, _, _, _, by rw [← memWrite_frame h1]⟩

/-- A read-modify-write leaves what a store does, and its flags. -/
theorem rmwInstr_frame {i : Instr} {m : RmwMode} {f : Byte → Byte} {g : Byte → State → State} {s s' : State}
    (h : answer (rmwInstr i m f g s) = .next s') :
    ∃ old ram sram bank warning sound apuLog,
      s' = (g old
        { s with
          ram := ram, sram := sram, bank := bank, warning := warning, sound := sound, apuLog := apuLog }).retireInstr i 0 := by
  obtain ⟨old, s1, s2, h1, h2, rfl⟩ := rmwInstr_cases (answer_eq_next.1 h)
  refine ⟨old, s2.ram, s2.sram, s2.bank, s2.warning, s2.sound, s2.apuLog, ?_⟩
  have hs := memWrite_frame h2
  rw [memRead_frame h1] at hs
  rw [← hs]

/-- A branch changes PC and the clock. -/
theorem branchInstr_frame {i : Instr} {cond : Bool} {rel : Byte} {s s' : State}
    (h : answer (branchInstr i cond rel s) = .next s') : ∃ pc clock, s' = { s with pc := pc, clock := clock } := by
  unfold branchInstr at h
  split at h <;> exact ⟨_, _, (Host.Outcome.next.inj h).symm⟩

/-- An indirect jump changes PC, the clock and, by its pointer reads, the APU. -/
theorem execJmpInd_frame {ptr : Addr} {s s' : State} (h : execJmpInd ptr s = .next s') :
    ∃ pc w, s' = State.jump { s with sound := w } pc (baseCycles (.jmpInd ptr)) := by
  simp only [execJmpInd, answer_eq_next, memReadPair, bind_eq_ok, Prod.exists, pure_eq_ok, Except.ok.injEq,
    Prod.mk.injEq] at h
  obtain ⟨pc, s1, ⟨lo, s2, h1, hi, s3, h2, -, rfl⟩, rfl⟩ := h
  have hs := memRead_frame h2
  rw [memRead_frame h1] at hs
  exact ⟨pc, s3.sound, by rw [← hs]⟩

end Sys2Proof.Machine
end

