-- ==== Sys2Proof/Laws/Run.lean ====
section
/-! SUPPORT. What a fetch, a CPU step, a boundary, a turn of the Coordinator and a step of the block can do, said once each as
an inversion, with the exact results of the operations that only push to the stack. -/

namespace Sys2Proof.Machine

/-! ## Answers -/

theorem andThen_eq_next {α β : Type} {o : Answer α} {f : α → Answer β} {b : β} :
    andThen o f = .next b ↔ ∃ a, o = .next a ∧ f a = .next b := by
  cases o <;> simp [andThen]

theorem andThen_eq_fault {α β : Type} {o : Answer α} {f : α → Answer β} {e : Fault} :
    andThen o f = .fault e ↔ o = .fault e ∨ ∃ a, o = .next a ∧ f a = .fault e := by
  cases o <;> simp [andThen]

theorem answer_eq_fault {r : Res State} {e : Fault} : answer r = .fault e ↔ r = .error e := by
  cases r <;> simp [answer]

/-! ## The fetch -/

theorem fetchOperand_frame {s s1 : State} {k len : Nat} {pc : Addr} {t : Int} {b : Byte}
    (h : fetchOperand s k len pc t = .ok (b, s1)) : s1 = { s with sound := s1.sound } := by
  unfold fetchOperand at h
  split at h
  · exact memRead_frame h
  · simp only [Except.ok.injEq, Prod.mk.injEq] at h
    rw [← h.2]

/-- A fetch changes nothing but the APU. -/
theorem fetch_frame {s s1 : State} {f : Fetched} (h : fetch s = .ok (f, s1)) : s1 = { s with sound := s1.sound } := by
  simp only [fetch, bind_eq_ok, Prod.exists] at h
  obtain ⟨op, s2, h2, h⟩ := h
  split at h
  · simp only [pure_eq_ok, Except.ok.injEq, Prod.mk.injEq] at h
    rw [← h.2]
    exact memRead_frame h2
  · split at h
    · simp only [pure_eq_ok, Except.ok.injEq, Prod.mk.injEq] at h
      rw [← h.2]
      exact memRead_frame h2
    · simp only [bind_eq_ok, Prod.exists, pure_eq_ok, Except.ok.injEq, Prod.mk.injEq] at h
      obtain ⟨b1, s3, h3, b2, s4, h4, -, rfl⟩ := h
      have e := fetchOperand_frame h4
      rw [fetchOperand_frame h3, memRead_frame h2] at e
      exact e

/-- What a CPU step answers: a wrap no-op, or the meaning of the fetched instruction. -/
theorem cpuStep_cases {s s' : State} {r : StepResult} (h : cpuStep s = .next (r, s')) :
    ∃ w, (fetch s = .ok (.wrapped, { s with sound := w }) ∧ r = .wrap ∧
        s' = corruptionNoop { s with sound := w } .pcWrap) ∨
      (∃ i, fetch s = .ok (.instr i, { s with sound := w }) ∧ exec i { s with sound := w } = .next s' ∧ r = resultOf i) := by
  unfold cpuStep at h
  split at h
  · cases h
  · rename_i s1 hf
    have e := fetch_frame hf
    simp only [Host.Outcome.next.injEq, Prod.mk.injEq] at h
    refine ⟨s1.sound, .inl ⟨?_, h.1.symm, ?_⟩⟩
    · rw [← e]
      exact hf
    · rw [← e]
      exact h.2.symm
  · rename_i i s1 hf
    have e := fetch_frame hf
    simp only [andThen_eq_next, Host.Outcome.next.injEq, Prod.mk.injEq] at h
    obtain ⟨s2, h1, rfl, rfl⟩ := h
    refine ⟨s1.sound, .inr ⟨i, ?_, ?_, rfl⟩⟩ <;> rw [← e] <;> assumption

/-! ## A boundary -/

/-- What a turn of the run loop answers. -/
theorem boundary_cases {endClock : Option Int} {s s' : State} {r : Option RunResult}
    (h : boundary endClock s = .next (r, s')) :
    s.mode ≠ .idle ∧
      ((s.pc = idleAddr ∧ r = some .idle ∧ s' = s) ∨
       (s.pc ≠ idleAddr ∧ reachedEnd s endClock = true ∧ r = some .reached ∧ s' = s) ∨
       (s.pc ≠ idleAddr ∧ reachedEnd s endClock = false ∧ s.interruptPending = true ∧ r = some .interrupt ∧
        takeInterrupt s = .ok s') ∨
       (s.pc ≠ idleAddr ∧ reachedEnd s endClock = false ∧ s.interruptPending = false ∧
        ∃ sr, cpuStep s = .next (sr, s') ∧ r = endOfStep sr)) := by
  unfold boundary at h
  split at h
  · cases h
  rename_i hm
  refine ⟨hm, ?_⟩
  split at h
  · rename_i hp
    simp only [Host.Outcome.next.injEq, Prod.mk.injEq] at h
    exact .inl ⟨hp, h.1.symm, h.2.symm⟩
  rename_i hp
  split at h
  · rename_i hr
    simp only [Host.Outcome.next.injEq, Prod.mk.injEq] at h
    exact .inr (.inl ⟨hp, hr, h.1.symm, h.2.symm⟩)
  rename_i hr
  have hr' : reachedEnd s endClock = false := by simpa using hr
  split at h
  · rename_i hi
    simp only [andThen_eq_next, answer_eq_next, Host.Outcome.next.injEq, Prod.mk.injEq] at h
    obtain ⟨s1, h1, rfl, rfl⟩ := h
    exact .inr (.inr (.inl ⟨hp, hr', hi, rfl, h1⟩))
  · rename_i hi
    simp only [andThen_eq_next, Host.Outcome.next.injEq, Prod.mk.injEq] at h
    obtain ⟨⟨sr, s1⟩, h1, rfl, rfl⟩ := h
    exact .inr (.inr (.inr ⟨hp, hr', by simpa using hi, sr, h1, rfl⟩))

/-! ## The Coordinator -/

/-- The sentinel push, exactly: it is two RAM bytes (R353). -/
theorem pushSentinel_ok (s : State) :
    pushSentinel s =
      .ok { s with
        ram := (s.ram.write (stackOffset s.sp) 0x5F).write (stackOffset (s.sp - 1)) 0xF5
        sp := s.sp - 1 - 1 } := by
  unfold pushSentinel
  rw [pushWord_ok]
  rfl

/-- What one turn of `end_frame`'s loop answers. -/
theorem frameTurn_cases {s s' : State} {length : ℕ+} {need : Option Nat} (h : frameTurn s length need = .next s') :
    (s.inRoutine = none ∧
      ((((length : Nat) : Int) ≤ s.clock ∧ leaveFrame s length need = .ok s') ∨
       (s.clock < ((length : Nat) : Int) ∧ s.nextPlay ≤ s.clock ∧ playEntry s = .ok s') ∨
       (s.clock < ((length : Nat) : Int) ∧ s.clock < s.nextPlay ∧ s' = idleAdvance s length))) ∨
    (s.inRoutine ≠ none ∧ ∃ r s1, boundary (some ((length : Nat) : Int)) s = .next (r, s1) ∧
      ((r = some .reached ∧ leaveFrame s1 length need = .ok s') ∨ (r = some .idle ∧ s' = routineReturned s1) ∨
       (r ≠ some .reached ∧ r ≠ some .idle ∧ s' = s1))) := by
  unfold frameTurn at h
  split at h
  · rename_i hr
    refine .inl ⟨hr, ?_⟩
    split at h
    · exact .inl ⟨by assumption, answer_eq_next.1 h⟩
    · rename_i hc
      split at h
      · exact .inr (.inl ⟨by omega, by assumption, answer_eq_next.1 h⟩)
      · rename_i hn
        exact .inr (.inr ⟨by omega, by omega, (Host.Outcome.next.inj h).symm⟩)
  · rename_i hr
    rw [andThen_eq_next] at h
    obtain ⟨⟨r, s1⟩, hb, h⟩ := h
    refine .inr ⟨hr, r, s1, hb, ?_⟩
    rcases r with _ | r
    · exact .inr (.inr ⟨by simp, by simp, (Host.Outcome.next.inj h).symm⟩)
    · cases r with
      | reached => exact .inl ⟨rfl, answer_eq_next.1 h⟩
      | idle => exact .inr (.inl ⟨rfl, (Host.Outcome.next.inj h).symm⟩)
      | illegal => exact .inr (.inr ⟨by simp, by simp, (Host.Outcome.next.inj h).symm⟩)
      | wrap => exact .inr (.inr ⟨by simp, by simp, (Host.Outcome.next.inj h).symm⟩)
      | interrupt => exact .inr (.inr ⟨by simp, by simp, (Host.Outcome.next.inj h).symm⟩)

/-- What one turn of `RunInit` answers. -/
theorem initTurn_cases {s s' : State} (h : initTurn s = .next s') :
    ∃ r s1, boundary s.params.initLimit s = .next (r, s1) ∧
      ((r = some .idle ∧ s' = { s1 with inRoutine := none, nextPlay := s1.clock }.finish .ok) ∨
       (r = some .reached ∧ s' = { s1 with warning := some .initTimeout }.finish .ok) ∨
       (r ≠ some .reached ∧ r ≠ some .idle ∧ s' = s1)) := by
  unfold initTurn at h
  rw [andThen_eq_next] at h
  obtain ⟨⟨r, s1⟩, hb, h⟩ := h
  refine ⟨r, s1, hb, ?_⟩
  rcases r with _ | r
  · exact .inr (.inr ⟨by simp, by simp, (Host.Outcome.next.inj h).symm⟩)
  · cases r with
    | idle => exact .inl ⟨rfl, (Host.Outcome.next.inj h).symm⟩
    | reached => exact .inr (.inl ⟨rfl, (Host.Outcome.next.inj h).symm⟩)
    | illegal => exact .inr (.inr ⟨by simp, by simp, (Host.Outcome.next.inj h).symm⟩)
    | wrap => exact .inr (.inr ⟨by simp, by simp, (Host.Outcome.next.inj h).symm⟩)
    | interrupt => exact .inr (.inr ⟨by simp, by simp, (Host.Outcome.next.inj h).symm⟩)

/-- What a step of the block answers. -/
theorem step_cases {s s' : State} (h : step s = .next s') :
    (s.activity = .waiting ∧ s.calls = [] ∧ s' = s) ∨
    (s.activity = .waiting ∧ ∃ call rest, s.calls = call :: rest ∧ hostCall { s with calls := rest } call = .ok s') ∨
    (s.activity = .initRun ∧ initTurn s = .next s') ∨
    (∃ length need, s.activity = .frame length need ∧ frameTurn s length need = .next s') ∨
    (∃ need, s.activity = .playLoop need ∧ playTurn s need = .ok s') := by
  unfold step blockStep at h
  split at h
  · rename_i ha
    unfold waitTurn at h
    split at h
    · rename_i hc
      exact .inl ⟨ha, hc, (Host.Outcome.next.inj h).symm⟩
    · rename_i call rest hc
      exact .inr (.inl ⟨ha, call, rest, hc, answer_eq_next.1 h⟩)
  · rename_i ha
    exact .inr (.inr (.inl ⟨ha, h⟩))
  · rename_i length need ha
    exact .inr (.inr (.inr (.inl ⟨length, need, ha, h⟩)))
  · rename_i need ha
    exact .inr (.inr (.inr (.inr ⟨need, ha, answer_eq_next.1 h⟩)))

end Sys2Proof.Machine
end

