-- ==== Sys2Proof/Laws/Canonical.lean ====
section
/-! SUPPORT. The canonical form of the byte arrays: the reset state has it, and every memory operation of the machine keeps it. -/

namespace Sys2Proof.Machine

/-- The reset state's byte arrays are canonical. -/
theorem reset_memory_wf : State.reset.ram.wf = true ∧ State.reset.sram.wf = true ∧ State.reset.rom.wf = true := by
  refine ⟨?_, rfl, rfl⟩
  decide

theorem MemoryOk.of_eq {s s' : State} (h : MemoryOk s) (h1 : s'.ram = s.ram) (h2 : s'.sram = s.sram) (h3 : s'.rom = s.rom)
    (h4 : s'.header = s.header) : MemoryOk s' := by
  unfold MemoryOk
  rw [h1, h2, h3, h4]
  exact h

/-- A RAM write within the region keeps the form. -/
theorem MemoryOk.write_ram {s : State} (h : MemoryOk s) {o : Nat} (ho : o < ramSize) (v : Byte) :
    MemoryOk { s with ram := s.ram.write o v } :=
  ⟨Memory.wf_write h.1 o v, sparseBelow_write h.2.1 ho v, h.2.2⟩

/-- An SRAM write within the region keeps the form. -/
theorem MemoryOk.write_sram {s : State} (h : MemoryOk s) {o : Nat} (ho : o < sramSize) (v : Byte) :
    MemoryOk { s with sram := s.sram.write o v } :=
  ⟨h.1, h.2.1, Memory.wf_write h.2.2.1 o v, sparseBelow_write h.2.2.2.1 ho v, h.2.2.2.2⟩

/-- A memory read keeps the form. -/
theorem memRead_memoryOk {s s1 : State} {a : Addr} {t : Int} {v : Byte} (h : MemoryOk s) (hr : memRead s a t = .ok (v, s1)) :
    MemoryOk s1 := by
  rw [memRead_frame hr]
  exact h.of_eq rfl rfl rfl rfl

/-- A memory write keeps the form. -/
theorem memWrite_memoryOk {s s1 : State} {a : Addr} {t : Int} {v : Byte} (h : MemoryOk s) (hw : memWrite s a v t = .ok s1) :
    MemoryOk s1 := by
  obtain ⟨-, rfl⟩ | ⟨h1, h2, rfl⟩ | ⟨-, w, -, rfl⟩ | ⟨-, rfl⟩ | ⟨-, -, -, -, rfl⟩ := memWrite_cases hw
  · exact h.write_ram (Nat.mod_lt _ (by decide)) v
  · exact h.write_sram (by unfold sramSize; omega) v
  · exact h.of_eq rfl rfl rfl rfl
  · unfold writeBank
    split <;> exact h.of_eq rfl rfl rfl rfl
  · exact h

theorem stackOffset_lt (sp : Byte) : stackOffset sp < ramSize := by
  unfold stackOffset ramSize
  have := sp.isLt
  omega

/-- A push keeps the form. -/
theorem push_memoryOk {s s1 : State} {v : Byte} {t : Int} (h : MemoryOk s) (hp : push s v t = .ok s1) : MemoryOk s1 := by
  rw [push_ok] at hp
  rw [← Except.ok.inj hp]
  exact (h.write_ram (stackOffset_lt s.sp) v).of_eq rfl rfl rfl rfl

/-- The loader's RAM data (R452) are canonical and within RAM. -/
theorem loadedRam_ok (cells : List Host.Cell) : (loadedRam cells).wf = true ∧ sparseBelow ramSize (loadedRam cells) = true := by
  induction cells with
  | nil => exact ⟨rfl, rfl⟩
  | cons c cells ih =>
    obtain ⟨o, v⟩ := c
    unfold loadedRam
    split
    · rename_i ho
      exact ⟨Memory.wf_write ih.1 o v, sparseBelow_write ih.2 ho v⟩
    · exact ih

end Sys2Proof.Machine
end

