-- ==== Sys2Proof/Laws/PerInstr.lean ====
section
/-! SUPPORT. The family `EncodedRow`, one lemma per instruction: a well-formed instruction's encoding begins with an opcode whose
row has the instruction's length and base cycles, and is as long as that row says; an illegal opcode's has no row. -/

namespace Sys2Proof.Laws.EncodedRow

open Sys2Proof.Machine

/-- What the row that an opcode selects says of an instruction. -/
def RowOf (op : Byte) (i : Instr) : Prop :=
  opcodeLength op = instrLength i ∧
    match opcodeRow op with
    | some r => r.cycles = baseCycles i ∧ isIllegal i = false
    | none => isIllegal i = true

/-- The statement of the family. -/
def Statement (i : Instr) : Prop :=
  i.wellFormed = true → ∃ op operands, encode i = op :: operands ∧ (encode i).length = instrLength i ∧ RowOf op i

theorem documented {op : Byte} {i : Instr} {bs : List Byte} (he : encode i = op :: bs) (hl : bs.length + 1 = instrLength i)
    (hr : RowOf op i) : Statement i :=
  fun _ => ⟨op, bs, he, by rw [he]; exact hl, hr⟩

theorem illegalRow : ∀ op : Byte, illegalOpcodes.contains op = true → opcodeRow op = none := by decide +kernel

theorem lda (src : Source) : Statement (.lda src) := by
  rcases src with _ | (_ | _ | _ | _ | _ | _ | _ | _) <;>
    first | exact documented rfl rfl ⟨rfl, rfl, rfl⟩ | exact fun h => nomatch h

theorem ldx (src : Source) : Statement (.ldx src) := by
  rcases src with _ | (_ | _ | _ | _ | _ | _ | _ | _) <;>
    first | exact documented rfl rfl ⟨rfl, rfl, rfl⟩ | exact fun h => nomatch h

theorem ldy (src : Source) : Statement (.ldy src) := by
  rcases src with _ | (_ | _ | _ | _ | _ | _ | _ | _) <;>
    first | exact documented rfl rfl ⟨rfl, rfl, rfl⟩ | exact fun h => nomatch h

theorem sta (dst : MemMode) : Statement (.sta dst) := by
  cases dst <;> first | exact documented rfl rfl ⟨rfl, rfl, rfl⟩ | exact fun h => nomatch h

theorem stx (dst : MemMode) : Statement (.stx dst) := by
  cases dst <;> first | exact documented rfl rfl ⟨rfl, rfl, rfl⟩ | exact fun h => nomatch h

theorem sty (dst : MemMode) : Statement (.sty dst) := by
  cases dst <;> first | exact documented rfl rfl ⟨rfl, rfl, rfl⟩ | exact fun h => nomatch h

theorem tax : Statement .tax := documented rfl rfl ⟨rfl, rfl, rfl⟩

theorem tay : Statement .tay := documented rfl rfl ⟨rfl, rfl, rfl⟩

theorem txa : Statement .txa := documented rfl rfl ⟨rfl, rfl, rfl⟩

theorem tya : Statement .tya := documented rfl rfl ⟨rfl, rfl, rfl⟩

theorem tsx : Statement .tsx := documented rfl rfl ⟨rfl, rfl, rfl⟩

theorem txs : Statement .txs := documented rfl rfl ⟨rfl, rfl, rfl⟩

theorem pha : Statement .pha := documented rfl rfl ⟨rfl, rfl, rfl⟩

theorem php : Statement .php := documented rfl rfl ⟨rfl, rfl, rfl⟩

theorem pla : Statement .pla := documented rfl rfl ⟨rfl, rfl, rfl⟩

theorem plp : Statement .plp := documented rfl rfl ⟨rfl, rfl, rfl⟩

theorem adc (src : Source) : Statement (.adc src) := by
  rcases src with _ | (_ | _ | _ | _ | _ | _ | _ | _) <;>
    first | exact documented rfl rfl ⟨rfl, rfl, rfl⟩ | exact fun h => nomatch h

theorem sbc (src : Source) : Statement (.sbc src) := by
  rcases src with _ | (_ | _ | _ | _ | _ | _ | _ | _) <;>
    first | exact documented rfl rfl ⟨rfl, rfl, rfl⟩ | exact fun h => nomatch h

theorem and (src : Source) : Statement (.and src) := by
  rcases src with _ | (_ | _ | _ | _ | _ | _ | _ | _) <;>
    first | exact documented rfl rfl ⟨rfl, rfl, rfl⟩ | exact fun h => nomatch h

theorem ora (src : Source) : Statement (.ora src) := by
  rcases src with _ | (_ | _ | _ | _ | _ | _ | _ | _) <;>
    first | exact documented rfl rfl ⟨rfl, rfl, rfl⟩ | exact fun h => nomatch h

theorem eor (src : Source) : Statement (.eor src) := by
  rcases src with _ | (_ | _ | _ | _ | _ | _ | _ | _) <;>
    first | exact documented rfl rfl ⟨rfl, rfl, rfl⟩ | exact fun h => nomatch h

theorem bit (m : MemMode) : Statement (.bit m) := by
  cases m <;> first | exact documented rfl rfl ⟨rfl, rfl, rfl⟩ | exact fun h => nomatch h

theorem cmp (src : Source) : Statement (.cmp src) := by
  rcases src with _ | (_ | _ | _ | _ | _ | _ | _ | _) <;>
    first | exact documented rfl rfl ⟨rfl, rfl, rfl⟩ | exact fun h => nomatch h

theorem cpx (src : Source) : Statement (.cpx src) := by
  rcases src with _ | (_ | _ | _ | _ | _ | _ | _ | _) <;>
    first | exact documented rfl rfl ⟨rfl, rfl, rfl⟩ | exact fun h => nomatch h

theorem cpy (src : Source) : Statement (.cpy src) := by
  rcases src with _ | (_ | _ | _ | _ | _ | _ | _ | _) <;>
    first | exact documented rfl rfl ⟨rfl, rfl, rfl⟩ | exact fun h => nomatch h

theorem inc (m : RmwMode) : Statement (.inc m) := by
  cases m <;> exact documented rfl rfl ⟨rfl, rfl, rfl⟩

theorem dec (m : RmwMode) : Statement (.dec m) := by
  cases m <;> exact documented rfl rfl ⟨rfl, rfl, rfl⟩

theorem inx : Statement .inx := documented rfl rfl ⟨rfl, rfl, rfl⟩

theorem iny : Statement .iny := documented rfl rfl ⟨rfl, rfl, rfl⟩

theorem dex : Statement .dex := documented rfl rfl ⟨rfl, rfl, rfl⟩

theorem dey : Statement .dey := documented rfl rfl ⟨rfl, rfl, rfl⟩

theorem asl (opd : ShiftOperand) : Statement (.asl opd) := by
  rcases opd with _ | (_ | _ | _ | _) <;> exact documented rfl rfl ⟨rfl, rfl, rfl⟩

theorem lsr (opd : ShiftOperand) : Statement (.lsr opd) := by
  rcases opd with _ | (_ | _ | _ | _) <;> exact documented rfl rfl ⟨rfl, rfl, rfl⟩

theorem rol (opd : ShiftOperand) : Statement (.rol opd) := by
  rcases opd with _ | (_ | _ | _ | _) <;> exact documented rfl rfl ⟨rfl, rfl, rfl⟩

theorem ror (opd : ShiftOperand) : Statement (.ror opd) := by
  rcases opd with _ | (_ | _ | _ | _) <;> exact documented rfl rfl ⟨rfl, rfl, rfl⟩

theorem jmpAbs (target : Addr) : Statement (.jmpAbs target) := documented rfl rfl ⟨rfl, rfl, rfl⟩

theorem jmpInd (ptr : Addr) : Statement (.jmpInd ptr) := documented rfl rfl ⟨rfl, rfl, rfl⟩

theorem jsr (target : Addr) : Statement (.jsr target) := documented rfl rfl ⟨rfl, rfl, rfl⟩

theorem rts : Statement .rts := documented rfl rfl ⟨rfl, rfl, rfl⟩

theorem rti : Statement .rti := documented rfl rfl ⟨rfl, rfl, rfl⟩

theorem brk : Statement .brk := documented rfl rfl ⟨rfl, rfl, rfl⟩

theorem bpl (rel : Byte) : Statement (.bpl rel) := documented rfl rfl ⟨rfl, rfl, rfl⟩

theorem bmi (rel : Byte) : Statement (.bmi rel) := documented rfl rfl ⟨rfl, rfl, rfl⟩

theorem bvc (rel : Byte) : Statement (.bvc rel) := documented rfl rfl ⟨rfl, rfl, rfl⟩

theorem bvs (rel : Byte) : Statement (.bvs rel) := documented rfl rfl ⟨rfl, rfl, rfl⟩

theorem bcc (rel : Byte) : Statement (.bcc rel) := documented rfl rfl ⟨rfl, rfl, rfl⟩

theorem bcs (rel : Byte) : Statement (.bcs rel) := documented rfl rfl ⟨rfl, rfl, rfl⟩

theorem bne (rel : Byte) : Statement (.bne rel) := documented rfl rfl ⟨rfl, rfl, rfl⟩

theorem beq (rel : Byte) : Statement (.beq rel) := documented rfl rfl ⟨rfl, rfl, rfl⟩

theorem clc : Statement .clc := documented rfl rfl ⟨rfl, rfl, rfl⟩

theorem sec : Statement .sec := documented rfl rfl ⟨rfl, rfl, rfl⟩

theorem cli : Statement .cli := documented rfl rfl ⟨rfl, rfl, rfl⟩

theorem sei : Statement .sei := documented rfl rfl ⟨rfl, rfl, rfl⟩

theorem clv : Statement .clv := documented rfl rfl ⟨rfl, rfl, rfl⟩

theorem cld : Statement .cld := documented rfl rfl ⟨rfl, rfl, rfl⟩

theorem sed : Statement .sed := documented rfl rfl ⟨rfl, rfl, rfl⟩

theorem nop : Statement .nop := documented rfl rfl ⟨rfl, rfl, rfl⟩

theorem illegal (op : Byte) : Statement (.illegal op) := by
  intro h
  have hr := illegalRow op h
  exact ⟨op, [], rfl, rfl, by simp [RowOf, opcodeLength, hr, instrLength, isIllegal]⟩

end Sys2Proof.Laws.EncodedRow
end

