-- ==== Sys2Proof/Laws/Sound.lean ====
section
/-! SUPPORT. What the operations of the APU and the synthesis buffer can do, said once: what a delta adds, what `Emit`, `RunTo`,
writes, reads and frame ends keep, and that no operation answers a reason that is not its own. -/

namespace Sys2Proof.Machine

/-! ## Buffers -/

@[simp] theorem Sound.buffer_setBuffer_same (w : Sound) (b : Side) (x : SampleBuffer) : (w.setBuffer b x).buffer b = x := by
  cases b <;> rfl

theorem Sound.buffer_setBuffer_other (w : Sound) {b b' : Side} (x : SampleBuffer) (h : b' ≠ b) :
    (w.setBuffer b x).buffer b' = w.buffer b' := by
  cases b <;> cases b' <;> first | rfl | exact absurd rfl h

@[simp] theorem Sound.setBuffer_apuTime (w : Sound) (b : Side) (x : SampleBuffer) :
    (w.setBuffer b x).apuTime = w.apuTime := by cases b <;> rfl

@[simp] theorem Sound.setBuffer_voices (w : Sound) (b : Side) (x : SampleBuffer) : (w.setBuffer b x).voices = w.voices := by
  cases b <;> rfl

@[simp] theorem Sound.setBuffer_origin (w : Sound) (b : Side) (x : SampleBuffer) : (w.setBuffer b x).origin = w.origin := by
  cases b <;> rfl

@[simp] theorem Sound.setBuffer_avail (w : Sound) (b : Side) (x : SampleBuffer) : (w.setBuffer b x).avail = w.avail := by
  cases b <;> rfl

@[simp] theorem Voice.last_setLast_same (v : Voice) (b : Side) (x : Rat) : (v.setLast b x).last b = x := by cases b <;> rfl

theorem Voice.last_setLast_other (v : Voice) {b b' : Side} (x : Rat) (h : b' ≠ b) : (v.setLast b x).last b' = v.last b' := by
  cases b <;> cases b' <;> first | rfl | exact absurd rfl h

@[simp] theorem Voice.setLast_osc (v : Voice) (b : Side) (x : Rat) : (v.setLast b x).osc = v.osc := by cases b <;> rfl

@[simp] theorem Voice.setLast_due (v : Voice) (b : Side) (x : Rat) : (v.setLast b x).due = v.due := by cases b <;> rfl

@[simp] theorem Voice.setLast_outL (v : Voice) (b : Side) (x : Rat) : (v.setLast b x).outL = v.outL := by cases b <;> rfl

@[simp] theorem Voice.setLast_outR (v : Voice) (b : Side) (x : Rat) : (v.setLast b x).outR = v.outR := by cases b <;> rfl

/-! ## Sums of delta arrays -/

theorem accSum_cons (k : Nat) (v : Rat) (m : List (Nat × Rat)) : accSum ((k, v) :: m) = v + accSum m := by simp [accSum]

theorem accSum_insert (m : List (Nat × Rat)) (a : Nat) (v : Rat) : accSum (sparseInsert m a v) = accSum m + v := by
  induction m with
  | nil => simp [sparseInsert, accSum]
  | cons c m ih =>
    obtain ⟨k, w⟩ := c
    unfold sparseInsert
    split
    · rw [accSum_cons, accSum_cons]; ring
    · rw [accSum_cons, accSum_cons, ih]; ring

theorem accSum_erase {m : List (Nat × Rat)} (h : m.Pairwise fun c d => c.1 < d.1) (a : Nat) :
    accSum (sparseErase m a) = accSum m - sparseRead 0 m a := by
  induction m with
  | nil => simp [sparseErase, accSum]
  | cons c m ih =>
    obtain ⟨k, w⟩ := c
    rw [List.pairwise_cons] at h
    rw [sparseErase_cons, sparseRead_cons, accSum_cons]
    split
    · rename_i hk
      subst hk
      rw [ih h.2, sparseRead_eq_blank]
      · ring
      · intro c hc
        have := h.1 c hc
        simp only at this
        omega
    · rw [accSum_cons, ih h.2]
      ring

/-- A write changes the sum by what it changes the entry by. -/
theorem accSum_write {m : List (Nat × Rat)} (h : sparseWf 0 m = true) (a : Nat) (v : Rat) :
    accSum (sparseWrite 0 m a v) = accSum m - sparseRead 0 m a + v := by
  have hp := ((sparseWf_iff 0 m).1 h).1
  unfold sparseWrite
  split
  · rename_i hv
    rw [accSum_erase hp, hv, add_zero]
  · rw [accSum_insert, accSum_erase hp]

theorem spreadDelta_wf {ker : Kernel} {phi d : Rat} {k : Nat} (n : Nat) {m : List (Nat × Rat)} (h : sparseWf 0 m = true) :
    sparseWf 0 (spreadDelta ker phi d k n m) = true := by
  induction n with
  | zero => exact h
  | succ n ih => exact sparseWf_write ih _ _

/-- What spreading a delta does to one entry (R322). -/
theorem spreadDelta_read (ker : Kernel) (phi d : Rat) (k n : Nat) (m : List (Nat × Rat)) (j : Nat) :
    sparseRead 0 (spreadDelta ker phi d k n m) j =
      sparseRead 0 m j + if k ≤ j ∧ j < k + n then d * kernelTap ker phi (j - k) else 0 := by
  induction n with
  | zero => simp [spreadDelta]
  | succ n ih =>
    unfold spreadDelta
    by_cases h : j = k + n
    · subst h
      rw [sparseRead_write_same, ih]
      simp
    · rw [sparseRead_write_other _ _ _ h, ih]
      have : (k ≤ j ∧ j < k + n) ↔ (k ≤ j ∧ j < k + (n + 1)) := by omega
      simp [this]

theorem accSum_spreadDelta {ker : Kernel} {phi d : Rat} {k : Nat} (n : Nat) {m : List (Nat × Rat)}
    (h : sparseWf 0 m = true) :
    accSum (spreadDelta ker phi d k n m) = accSum m + d * ((List.range n).map fun j => kernelTap ker phi j).sum := by
  induction n with
  | zero => simp [spreadDelta]
  | succ n ih =>
    unfold spreadDelta
    rw [accSum_write (spreadDelta_wf n h), ih, List.range_succ, List.map_append, List.sum_append]
    simp
    ring

theorem kernelTailSum_eq (ker : Kernel) (phi : Rat) (n : Nat) :
    ((List.range n).map fun j => kernelTap ker phi (j + 1)).sum = kernelTailSum ker phi n := by
  induction n with
  | zero => rfl
  | succ n ih =>
    rw [List.range_succ, List.map_append, List.sum_append, ih]
    simp [kernelTailSum, kernelTap]

/-! ## Deltas -/

/-- What `AddDelta` can do: add to one buffer's delta array, inside the unconfirmed window. -/
theorem addDelta_cases {env : SoundEnv} {b : Side} {t : Int} {d : Rat} {w w' : Sound} (h : addDelta env b t d w = .ok w') :
    (w.avail : Int) ≤ ⌊samplePos env w t⌋ ∧
      w' = w.setBuffer b { w.buffer b with
        acc := spreadDelta env.kernel (samplePos env w t - (⌊samplePos env w t⌋ : Rat)) d ⌊samplePos env w t⌋.toNat
          (kernelWidth env.kernel) (w.buffer b).acc } := by
  unfold addDelta at h
  simp only at h
  split at h
  · cases h
  · rename_i hk
    rw [not_or] at hk
    exact ⟨not_lt.1 hk.1, (Except.ok.inj h).symm⟩

/-- `AddDelta` refuses with one reason only. -/
theorem addDelta_error {env : SoundEnv} {b : Side} {t : Int} {d : Rat} {w : Sound} {f : Fault}
    (h : addDelta env b t d w = .error f) : f = .bufferHorizon := by
  unfold addDelta at h
  simp only at h
  split at h
  · exact (Except.error.inj h).symm
  · cases h

/-! ## What the operations on voices keep -/

/-- What every operation on the voices leaves of the rest: the time, the origin, the confirmed samples and the integrators. -/
def SameFrame (w w' : Sound) : Prop :=
  w'.apuTime = w.apuTime ∧ w'.origin = w.origin ∧ w'.avail = w.avail ∧ w'.voices = w.voices ∧
    ∀ b, (w'.buffer b).integ = (w.buffer b).integ

theorem SameFrame.refl (w : Sound) : SameFrame w w := ⟨rfl, rfl, rfl, rfl, fun _ => rfl⟩

theorem SameFrame.trans {w w' w'' : Sound} (h : SameFrame w w') (h' : SameFrame w' w'') : SameFrame w w'' :=
  ⟨h'.1.trans h.1, h'.2.1.trans h.2.1, h'.2.2.1.trans h.2.2.1, h'.2.2.2.1.trans h.2.2.2.1,
    fun b => (h'.2.2.2.2 b).trans (h.2.2.2.2 b)⟩

theorem addDelta_sameFrame {env : SoundEnv} {b : Side} {t : Int} {d : Rat} {w w' : Sound}
    (h : addDelta env b t d w = .ok w') : SameFrame w w' := by
  obtain ⟨-, rfl⟩ := addDelta_cases h
  refine ⟨by simp, by simp, by simp, by simp, fun b' => ?_⟩
  by_cases hb : b' = b
  · subst hb
    simp
  · rw [Sound.buffer_setBuffer_other _ _ hb]

/-- What one turn of `Emit`'s loop can do. -/
theorem emitSide_cases {env : SoundEnv} {i : Nat} {t : Int} {b : Side} {v v' : Voice} {w w' : Sound}
    (h : emitSide env i t b v w = .ok (v', w')) :
    (targetLevel env i v b = v.last b ∧ v' = v ∧ w' = w) ∨
    (targetLevel env i v b ≠ v.last b ∧ v' = v.setLast b (targetLevel env i v b) ∧
      addDelta env b t (targetLevel env i v b - v.last b) w = .ok w') := by
  unfold emitSide at h
  simp only at h
  split at h
  · rename_i he
    simp only [Except.ok.injEq, Prod.mk.injEq] at h
    exact .inl ⟨he, h.1.symm, h.2.symm⟩
  · rename_i he
    cases ha : addDelta env b t (targetLevel env i v b - v.last b) w with
    | error f => rw [ha] at h; cases h
    | ok w1 =>
      rw [ha] at h
      simp only [bind, Except.bind, pure, Except.pure, Except.ok.injEq, Prod.mk.injEq] at h
      exact .inr ⟨he, h.1.symm, by rw [h.2]⟩

/-- `Emit` is its two turns. -/
theorem emit_cases {env : SoundEnv} {i : Nat} {t : Int} {v v' : Voice} {w w' : Sound} (h : emit env i t v w = .ok (v', w')) :
    ∃ v1 w1, emitSide env i t .left v w = .ok (v1, w1) ∧ emitSide env i t .right v1 w1 = .ok (v', w') := by
  unfold emit at h
  cases ha : emitSide env i t .left v w with
  | error f => rw [ha] at h; cases h
  | ok r =>
    rw [ha] at h
    exact ⟨r.1, r.2, rfl, h⟩

/-! ## Levels -/

/-- The level a buffer comes to: what it has integrated and what it still holds. -/
def Sound.total (w : Sound) (b : Side) : Rat := (w.buffer b).integ + accSum (w.buffer b).acc

/-- An operation that adds `d b` to the level of each buffer b and keeps the rest. -/
def Adds (w w' : Sound) (d : Side → Rat) : Prop :=
  SameFrame w w' ∧ (BuffersOk w → BuffersOk w' ∧ ∀ b, w'.total b = w.total b + d b)

theorem Adds.refl (w : Sound) : Adds w w fun _ => 0 := ⟨SameFrame.refl w, fun h => ⟨h, fun b => by simp⟩⟩

theorem Adds.trans {w w' w'' : Sound} {d d' : Side → Rat} (h : Adds w w' d) (h' : Adds w' w'' d') :
    Adds w w'' fun b => d b + d' b := by
  refine ⟨h.1.trans h'.1, fun hw => ?_⟩
  obtain ⟨h1, h2⟩ := h.2 hw
  obtain ⟨h3, h4⟩ := h'.2 h1
  exact ⟨h3, fun b => by rw [h4, h2]; ring⟩

theorem Adds.congr {w w' : Sound} {d d' : Side → Rat} (h : Adds w w' d) (hd : ∀ b, d b = d' b) : Adds w w' d' :=
  ⟨h.1, fun hw => ⟨(h.2 hw).1, fun b => by rw [(h.2 hw).2, hd]⟩⟩

/-- A kernel's values sum to 1: unit DC gain (R324) holds by construction. -/
theorem kernelTap_sum (ker : Kernel) (phi : Rat) : ((List.range (kernelWidth ker)).map (kernelTap ker phi)).sum = 1 := by
  unfold kernelWidth
  rw [List.range_succ_eq_map, List.map_cons, List.sum_cons, List.map_map]
  have h := kernelTailSum_eq ker phi ker.tailWidth
  simp only [Function.comp_def, Nat.succ_eq_add_one] at h ⊢
  rw [h]
  simp [kernelTap]

theorem addDelta_adds {env : SoundEnv} {b : Side} {t : Int} {d : Rat} {w w' : Sound} (h : addDelta env b t d w = .ok w') :
    Adds w w' fun b' => if b' = b then d else 0 := by
  refine ⟨addDelta_sameFrame h, fun hw => ?_⟩
  obtain ⟨-, rfl⟩ := addDelta_cases h
  constructor
  · intro b'
    by_cases hb : b' = b
    · subst hb
      rw [Sound.buffer_setBuffer_same]
      exact spreadDelta_wf _ (hw _)
    · rw [Sound.buffer_setBuffer_other _ _ hb]
      exact hw b'
  · intro b'
    by_cases hb : b' = b
    · subst hb
      simp only [Sound.total, Sound.buffer_setBuffer_same, accSum_spreadDelta _ (hw b'), kernelTap_sum, if_true]
      ring
    · simp only [Sound.total, Sound.buffer_setBuffer_other _ _ hb, if_neg hb, add_zero]

theorem emitSide_adds {env : SoundEnv} {i : Nat} {t : Int} {b : Side} {v v' : Voice} {w w' : Sound}
    (h : emitSide env i t b v w = .ok (v', w')) :
    Adds w w' (fun b' => v'.last b' - v.last b') ∧ v'.osc = v.osc ∧ v'.due = v.due ∧ v'.outL = v.outL ∧ v'.outR = v.outR := by
  obtain ⟨-, rfl, rfl⟩ | ⟨-, rfl, ha⟩ := emitSide_cases h
  · exact ⟨(Adds.refl w').congr fun b => by simp, rfl, rfl, rfl, rfl⟩
  · refine ⟨(addDelta_adds ha).congr fun b' => ?_, by simp, by simp, by simp, by simp⟩
    by_cases hb : b' = b
    · subst hb
      simp
    · rw [if_neg hb, Voice.last_setLast_other _ _ hb, sub_self]

/-- `Emit` adds to each buffer what it adds to the voice's last level there, and keeps the voice's oscillator and routing. -/
theorem emit_adds {env : SoundEnv} {i : Nat} {t : Int} {v v' : Voice} {w w' : Sound} (h : emit env i t v w = .ok (v', w')) :
    Adds w w' (fun b => v'.last b - v.last b) ∧ v'.osc = v.osc ∧ v'.due = v.due ∧ v'.outL = v.outL ∧ v'.outR = v.outR := by
  obtain ⟨v1, w1, h1, h2⟩ := emit_cases h
  obtain ⟨a1, o1, d1, l1, r1⟩ := emitSide_adds h1
  obtain ⟨a2, o2, d2, l2, r2⟩ := emitSide_adds h2
  exact ⟨(a1.trans a2).congr fun b => by ring, o2.trans o1, d2.trans d1, l2.trans l1, r2.trans r1⟩

/-- What running one voice can do: add what it adds to the voice's last levels, and, given the turns it can need, leave the
voice due after t. -/
theorem runVoice_adds {env : SoundEnv} {i : Nat} {t : Int} {fuel : Nat} {v v' : Voice} {w w' : Sound}
    (h : runVoice env i t fuel v w = .ok (v', w')) :
    Adds w w' (fun b => v'.last b - v.last b) ∧ v'.outL = v.outL ∧ v'.outR = v.outR ∧
      (runFuel v.due t ≤ fuel → ∀ due, v'.due = some due → t < due) := by
  induction fuel generalizing v w with
  | zero =>
    simp only [runVoice, Except.ok.injEq, Prod.mk.injEq] at h
    obtain ⟨rfl, rfl⟩ := h
    refine ⟨(Adds.refl w).congr fun b => by simp, rfl, rfl, fun hf due hd => ?_⟩
    rw [hd] at hf
    simp only [runFuel] at hf
    omega
  | succ n ih =>
    unfold runVoice at h
    split at h
    · rename_i hd
      simp only [Except.ok.injEq, Prod.mk.injEq] at h
      obtain ⟨rfl, rfl⟩ := h
      exact ⟨(Adds.refl w).congr fun b => by simp, rfl, rfl, fun _ due hdue => by rw [hd] at hdue; cases hdue⟩
    · rename_i due hd
      split at h
      · rename_i hle
        cases he : emit env i due { v with osc := (env.chip.advance i v.osc).1 } w with
        | error f => simp only [he] at h; cases h
        | ok r =>
          obtain ⟨v1, w1⟩ := r
          simp only [he] at h
          obtain ⟨a1, -, -, l1, r1⟩ := emit_adds he
          obtain ⟨a2, l2, r2, f2⟩ := ih h
          refine ⟨(a1.trans a2).congr fun b => ?_, l2.trans l1, r2.trans r1, fun hf => f2 ?_⟩
          · cases b <;> simp [Voice.last]
          · rw [hd] at hf
            simp only at hf ⊢
            cases hn : (env.chip.advance i v.osc).2 with
            | none => simp [runFuel]
            | some delay =>
              have := delay.pos
              simp only [runFuel, Option.map_some] at hf ⊢
              omega
      · rename_i hle
        simp only [Except.ok.injEq, Prod.mk.injEq] at h
        obtain ⟨rfl, rfl⟩ := h
        refine ⟨(Adds.refl w).congr fun b => by simp, rfl, rfl, fun _ due' hd' => ?_⟩
        rw [hd] at hd'
        injection hd' with hd'
        omega

/-- A voice that is not due by t is left as it is, whatever the turns allowed (R305). -/
theorem runVoice_of_not_due {env : SoundEnv} {i : Nat} {t : Int} (n : Nat) {v : Voice} (w : Sound)
    (h : ∀ due, v.due = some due → t < due) : runVoice env i t n v w = .ok (v, w) := by
  cases n with
  | zero => rfl
  | succ n =>
    unfold runVoice
    split
    · rfl
    · rename_i due hd
      rw [if_neg (by have := h due hd; omega)]

/-- Turns beyond those that the loop can need change nothing, so the bound on them is not to be seen (R305, log entry 12). -/
theorem runVoice_enough {env : SoundEnv} {i : Nat} {t : Int} {n m : Nat} {v : Voice} {w : Sound}
    (hn : runFuel v.due t ≤ n) (hm : runFuel v.due t ≤ m) : runVoice env i t n v w = runVoice env i t m v w := by
  induction n generalizing m v w with
  | zero =>
    have hd : ∀ due, v.due = some due → t < due := fun due hd => by
      rw [hd] at hn
      simp only [runFuel] at hn
      omega
    rw [runVoice_of_not_due 0 w hd, runVoice_of_not_due m w hd]
  | succ n ih =>
    by_cases hd : ∀ due, v.due = some due → t < due
    · rw [runVoice_of_not_due (n + 1) w hd, runVoice_of_not_due m w hd]
    · push Not at hd
      obtain ⟨due, hd, hle⟩ := hd
      rw [hd] at hn hm
      simp only [runFuel] at hn hm
      obtain ⟨m, rfl⟩ : ∃ k, m = k + 1 := ⟨m - 1, by omega⟩
      simp only [runVoice, hd, if_pos hle]
      congr 1
      funext r
      apply ih <;>
      · cases (env.chip.advance i v.osc).2 with
        | none => simp [runFuel]
        | some delay =>
          have := delay.pos
          simp only [runFuel, Option.map_some]
          omega

theorem lastSum_cons (v : Voice) (vs : List Voice) (b : Side) : lastSum (v :: vs) b = v.last b + lastSum vs b := by
  simp [lastSum]

/-- What running the voices can do. -/
theorem runVoices_adds {env : SoundEnv} {t : Int} {i : Nat} {vs vs' : List Voice} {w w' : Sound}
    (h : runVoices env t i vs w = .ok (vs', w')) :
    Adds w w' (fun b => lastSum vs' b - lastSum vs b) ∧ vs'.map Voice.outL = vs.map Voice.outL ∧
      vs'.map Voice.outR = vs.map Voice.outR ∧ ∀ v ∈ vs', ∀ due, v.due = some due → t < due := by
  induction vs generalizing i w vs' with
  | nil =>
    simp only [runVoices, Except.ok.injEq, Prod.mk.injEq] at h
    obtain ⟨rfl, rfl⟩ := h
    exact ⟨(Adds.refl w).congr fun b => by simp, rfl, rfl, by simp⟩
  | cons v vs ih =>
    unfold runVoices catchUp at h
    cases h1 : runVoice env i t (runFuel v.due t) v w with
    | error f => rw [h1] at h; cases h
    | ok r1 =>
      rw [h1] at h
      cases h2 : runVoices env t (i + 1) vs r1.2 with
      | error f => simp only [bind, Except.bind, h2] at h; cases h
      | ok r2 =>
        simp only [bind, Except.bind, h2, pure, Except.pure, Except.ok.injEq, Prod.mk.injEq] at h
        obtain ⟨rfl, rfl⟩ := h
        obtain ⟨a1, l1, q1, f1⟩ := runVoice_adds h1
        obtain ⟨a2, l2, q2, f2⟩ := ih h2
        refine ⟨(a1.trans a2).congr fun b => ?_, by simp [l1, l2], by simp [q1, q2], ?_⟩
        · rw [lastSum_cons, lastSum_cons]
          ring
        · intro u hu
          rcases List.mem_cons.1 hu with rfl | hu
          · exact f1 le_rfl
          · exact f2 u hu

/-- What emitting for every voice can do. -/
theorem emitVoices_adds {env : SoundEnv} {t : Int} {i : Nat} {vs vs' : List Voice} {w w' : Sound}
    (h : emitVoices env t i vs w = .ok (vs', w')) : Adds w w' (fun b => lastSum vs' b - lastSum vs b) := by
  induction vs generalizing i w vs' with
  | nil =>
    simp only [emitVoices, Except.ok.injEq, Prod.mk.injEq] at h
    obtain ⟨rfl, rfl⟩ := h
    exact (Adds.refl w).congr fun b => by simp
  | cons v vs ih =>
    unfold emitVoices at h
    cases h1 : emit env i t v w with
    | error f => rw [h1] at h; cases h
    | ok r1 =>
      rw [h1] at h
      cases h2 : emitVoices env t (i + 1) vs r1.2 with
      | error f => simp only [bind, Except.bind, h2] at h; cases h
      | ok r2 =>
        simp only [bind, Except.bind, h2, pure, Except.pure, Except.ok.injEq, Prod.mk.injEq] at h
        obtain ⟨rfl, rfl⟩ := h
        refine ((emit_adds h1).1.trans (ih h2)).congr fun b => ?_
        rw [lastSum_cons, lastSum_cons]
        ring

/-! ## The operations of the APU -/

/-- What every operation keeps of the buffers: their canonical form, the level invariant of R310, the origin and the confirmed
samples. -/
def Keeps (w w' : Sound) : Prop :=
  w'.origin = w.origin ∧ w'.avail = w.avail ∧
    (BuffersOk w → BuffersOk w' ∧ (LevelOk w → LevelOk w'))

theorem Keeps.trans {w w' w'' : Sound} (h : Keeps w w') (h' : Keeps w' w'') : Keeps w w'' := by
  refine ⟨h'.1.trans h.1, h'.2.1.trans h.2.1, fun hw => ?_⟩
  obtain ⟨h1, h2⟩ := h.2.2 hw
  obtain ⟨h3, h4⟩ := h'.2.2 h1
  exact ⟨h3, fun hl => h4 (h2 hl)⟩

/-- Deltas that add to the buffers what the new voices' last levels add keep the level invariant. -/
theorem keeps_of_adds {w w' : Sound} {vs : List Voice} (h : Adds w w' fun b => lastSum vs b - lastSum w.voices b) :
    Keeps w { w' with voices := vs } := by
  refine ⟨h.1.2.1, h.1.2.2.1, fun hw => ?_⟩
  obtain ⟨h1, h2⟩ := h.2 hw
  refine ⟨h1, fun hl b => ?_⟩
  have e1 := hl b
  have e2 := h2 b
  simp only [Sound.total] at e2
  change (w'.buffer b).integ + accSum (w'.buffer b).acc = lastSum vs b
  rw [e2, e1]
  ring

/-- What `RunTo` can do (R305). -/
theorem runTo_cases {env : SoundEnv} {t : Int} {w w' : Sound} (h : runTo env t w = .ok w') :
    ∃ w1, runVoices env t 0 w.voices w = .ok (w'.voices, w1) ∧ w' = { w1 with voices := w'.voices, apuTime := t } := by
  unfold runTo at h
  cases h1 : runVoices env t 0 w.voices w with
  | error f => rw [h1] at h; cases h
  | ok r =>
    rw [h1] at h
    simp only [bind, Except.bind, pure, Except.pure, Except.ok.injEq] at h
    subst h
    exact ⟨r.2, rfl, rfl⟩

theorem runTo_keeps {env : SoundEnv} {t : Int} {w w' : Sound} (h : runTo env t w = .ok w') :
    Keeps w w' ∧ w'.apuTime = t := by
  obtain ⟨w1, h1, e⟩ := runTo_cases h
  have k := keeps_of_adds (runVoices_adds h1).1
  rw [e]
  exact ⟨k, rfl⟩

theorem emitAll_keeps {env : SoundEnv} {t : Int} {w w' : Sound} (h : emitAll env t w = .ok w') :
    Keeps w w' ∧ w'.apuTime = w.apuTime := by
  unfold emitAll at h
  cases h1 : emitVoices env t 0 w.voices w with
  | error f => rw [h1] at h; cases h
  | ok r =>
    rw [h1] at h
    simp only [bind, Except.bind, pure, Except.pure, Except.ok.injEq] at h
    subst h
    exact ⟨keeps_of_adds (emitVoices_adds h1), (emitVoices_adds h1).1.1⟩

theorem lastSum_setTimed (f : Nat → TimedOsc) (i : Nat) (vs : List Voice) (b : Side) :
    lastSum (setTimed f i vs) b = lastSum vs b := by
  induction vs generalizing i with
  | nil => rfl
  | cons v vs ih =>
    rw [setTimed, lastSum_cons, lastSum_cons, ih]
    cases b <;> rfl

theorem setTimed_keeps (f : Nat → TimedOsc) (w : Sound) : Keeps w { w with voices := setTimed f 0 w.voices } := by
  refine ⟨rfl, rfl, fun hw => ⟨hw, fun hl b => ?_⟩⟩
  change (w.buffer b).integ + accSum (w.buffer b).acc = lastSum (setTimed f 0 w.voices) b
  rw [lastSum_setTimed]
  exact hl b

/-- What an APU write can do (R306): never before `apu_time`, which it moves to its own clock. -/
theorem apuWrite_keeps {env : SoundEnv} {c : Int} {reg : Nat} {v : Byte} {w w' : Sound}
    (h : apuWrite env c reg v w = .ok w') : Keeps w w' ∧ w.apuTime ≤ c ∧ w'.apuTime = c := by
  unfold apuWrite at h
  split at h
  · cases h
  · cases h1 : runTo env c w with
    | error f => rw [h1] at h; cases h
    | ok w1 =>
      rw [h1] at h
      simp only [bind, Except.bind] at h
      obtain ⟨k1, t1⟩ := runTo_keeps h1
      obtain ⟨k2, t2⟩ := emitAll_keeps h
      exact ⟨k1.trans ((setTimed_keeps _ w1).trans k2), by omega, t2.trans t1⟩

/-- What an APU read can do (R307): nothing for a register the chip does not define. -/
theorem apuRead_keeps {env : SoundEnv} {openBus v : Byte} {c : Int} {reg : Nat} {w w' : Sound}
    (h : apuRead env openBus c reg w = .ok (v, w')) : Keeps w w' ∧ (w' = w ∨ w.apuTime ≤ c ∧ w'.apuTime = c) := by
  unfold apuRead at h
  split at h
  · cases h
  · split at h
    · simp only [Except.ok.injEq, Prod.mk.injEq] at h
      obtain ⟨-, rfl⟩ := h
      exact ⟨⟨rfl, rfl, fun hw => ⟨hw, id⟩⟩, .inl rfl⟩
    · cases h1 : runTo env c w with
      | error f => rw [h1] at h; cases h
      | ok w1 =>
        rw [h1] at h
        simp only [bind, Except.bind] at h
        split at h
        · cases h
        · rename_i w2 h2
          simp only [pure, Except.pure, Except.ok.injEq, Prod.mk.injEq] at h
          obtain ⟨-, rfl⟩ := h
          obtain ⟨k1, t1⟩ := runTo_keeps h1
          obtain ⟨k2, t2⟩ := emitAll_keeps h2
          exact ⟨k1.trans ((setTimed_keeps _ w1).trans k2), .inr ⟨by omega, t2.trans t1⟩⟩

/-- What `ApuEndFrame` can do (R309, R328): run the oscillators to the frame's end or beyond, lower the times, and confirm samples
within the capacity. -/
theorem apuEndFrame_cases {env : SoundEnv} {length : Int} {w w' : Sound} (h : apuEndFrame env length w = .ok w') :
    ∃ w1, runTo env (max length w.apuTime) w = .ok w1 ∧ w'.avail ≤ env.capacity ∧
      w' = { w1 with
        apuTime := w1.apuTime - length, voices := w1.voices.map (rebaseVoice length)
        origin := w1.origin + (length : Rat) * env.ratio, avail := ⌊w1.origin + (length : Rat) * env.ratio⌋.toNat } := by
  unfold apuEndFrame at h
  cases h1 : runTo env (max length w.apuTime) w with
  | error f => rw [h1] at h; cases h
  | ok w1 =>
    rw [h1] at h
    simp only [bind, Except.bind, bufferEndFrame] at h
    split at h
    · cases h
    · rename_i hc
      obtain rfl := Except.ok.inj h
      exact ⟨w1, rfl, not_lt.1 hc, rfl⟩

/-! ## What the loops over voices and samples compute -/

theorem setTimed_eq_mapIdx (f : Nat → TimedOsc) (i : Nat) (vs : List Voice) :
    setTimed f i vs = vs.mapIdx fun k v => { v with osc := (f (k + i)).osc, due := (f (k + i)).due } := by
  induction vs generalizing i with
  | nil => rfl
  | cons v vs ih => simp [setTimed, ih, List.mapIdx_cons, Nat.add_assoc, Nat.add_comm 1]

theorem routeVoices_eq_mapIdx (mask i : Nat) (vs : List Voice) :
    routeVoices mask i vs = vs.mapIdx fun k v => { v with outL := !mask.testBit (k + i), outR := !mask.testBit (k + i) } := by
  induction vs generalizing i with
  | nil => rfl
  | cons v vs ih => simp [routeVoices, ih, List.mapIdx_cons, Nat.add_assoc, Nat.add_comm 1]

/-- One turn of `Emit`'s loop takes the voice to its level in that buffer (R304). -/
theorem emitSide_level {env : SoundEnv} {i : Nat} {t : Int} {b : Side} {v v' : Voice} {w w' : Sound}
    (h : emitSide env i t b v w = .ok (v', w')) : v' = v.setLast b (targetLevel env i v b) := by
  obtain ⟨he, rfl, rfl⟩ | ⟨-, rfl, -⟩ := emitSide_cases h
  · rw [he]
    cases b <;> rfl
  · rfl

/-- Moving a delta array down moves what each entry reads (R326). -/
theorem sparseRead_shiftDown (n : Nat) (m : List (Nat × Rat)) (k : Nat) :
    sparseRead 0 (shiftDown n m) k = sparseRead 0 m (k + n) := by
  induction m with
  | nil => rfl
  | cons c m ih =>
    obtain ⟨a, v⟩ := c
    rw [sparseRead_cons]
    unfold shiftDown at *
    by_cases h : n ≤ a
    · simp only [List.filter_cons, h, decide_true, if_true, List.map_cons, sparseRead_cons]
      by_cases h2 : a - n = k
      · rw [if_pos h2, if_pos (by omega)]
      · rw [if_neg h2, if_neg (by omega)]
        exact ih
    · simp only [List.filter_cons, h, decide_false, Bool.false_eq_true, if_false]
      rw [if_neg (by omega)]
      exact ih

/-- The samples of a run of entries and the level after it (R326): each sample is made from the level after its own entry. -/
theorem integrate_eq (gain : Rat) (acc : List (Nat × Rat)) (n k : Nat) (level : Rat) :
    integrate gain acc n k level =
      ((List.range n).map fun j =>
        pcmSample gain (level + ((List.range (j + 1)).map fun i => sparseRead 0 acc (k + i)).sum),
       level + ((List.range n).map fun i => sparseRead 0 acc (k + i)).sum) := by
  induction n generalizing k level with
  | zero => simp [integrate]
  | succ n ih =>
    have key : ∀ m, level + ((List.range (m + 1)).map fun i => sparseRead 0 acc (k + i)).sum =
        level + sparseRead 0 acc k + ((List.range m).map fun i => sparseRead 0 acc (k + 1 + i)).sum := by
      intro m
      rw [List.range_succ_eq_map]
      simp [Function.comp_def, Nat.add_comm 1, add_assoc]
    simp only [integrate, ih, key]
    rw [List.range_succ_eq_map]
    simp [Function.comp_def]

/-- Interleaving puts sample k of the left channel at 2k and that of the right at 2k + 1 (R335). -/
theorem interleave_get (n : Nat) (f g : Nat → Int) {k : Nat} (h : k < n) :
    (interleave ((List.range n).map f) ((List.range n).map g))[2 * k]? = some (f k) ∧
      (interleave ((List.range n).map f) ((List.range n).map g))[2 * k + 1]? = some (g k) := by
  induction n generalizing f g k with
  | zero => omega
  | succ n ih =>
    rw [List.range_succ_eq_map]
    cases k with
    | zero => simp [interleave]
    | succ k =>
      have := ih (f ∘ Nat.succ) (g ∘ Nat.succ) (k := k) (by omega)
      simp only [List.map_cons, interleave, List.map_map]
      rw [show 2 * (k + 1) = 2 * k + 1 + 1 by omega]
      simpa using this

end Sys2Proof.Machine
end

