-- ==== Sys2Proof/Tests/Slice0.lean ====
section
/-! SUPPORT. The model's own tests: the WellFormed smoke test, the decoding of every instruction from a word written out from the
spec's encoding, single steps from the vectors of spec/95_test_vectors.md, and, for every statement with hypotheses, a
concrete state and operands that meet them. -/

namespace Sys2Proof.Tests

set_option Elab.async false

open Sys2Proof.Machine

/-! ## The bench -/

/-- The next value, if there is one. -/
def nextOf {α : Type} (o : Host.Outcome α Fault Refusal) : Option α :=
  match o with
  | .next s => some s
  | .fault _ | .refused _ => none

/-- The reason of a fault, if there is one. -/
def faultOf {α : Type} (o : Host.Outcome α Fault Refusal) : Option Fault :=
  match o with
  | .fault f => some f
  | .next _ | .refused _ => none

/-- The six flags in the order of R30. -/
def flagsOf (s : State) : List Bool := [s.n, s.v, s.d, s.i, s.z, s.c]

/-- The four flags an addition writes. -/
def nvzc (s : State) : List Bool := [s.n, s.v, s.z, s.c]

/-- The result, if there is one. -/
def okOf {α : Type} (r : Res α) : Option α :=
  match r with
  | .ok x => some x
  | .error _ => none

/-- The reason of a refused access, if it is refused. -/
def errorOf {α : Type} (r : Res α) : Option Fault :=
  match r with
  | .ok _ => none
  | .error f => some f

/-- What is computed of the next value holds of a next value. -/
theorem next_of {α : Type} {o : Host.Outcome α Fault Refusal} {p : α → Bool} (h : (nextOf o).any p = true) :
    ∃ x, o = .next x ∧ p x = true := by
  cases o with
  | next x => exact ⟨x, rfl, h⟩
  | fault f => cases h
  | refused r => cases h

/-- What is computed of a result holds of a result. -/
theorem ok_of {α : Type} {r : Res α} {p : α → Bool} (h : (okOf r).any p = true) : ∃ x, r = .ok x ∧ p x = true := by
  cases r with
  | ok x => exact ⟨x, rfl, h⟩
  | error f => cases h

/-- A refusal that is computed is one. -/
theorem error_of {α : Type} {r : Res α} {f : Fault} (h : errorOf r = some f) : r = .error f := by
  cases r with
  | ok x => cases h
  | error g => cases h; rfl

/-- A member found by computing is a member. -/
theorem mem_of_any {α : Type} {l : List α} {p : α → Bool} (h : l.any p = true) : ∃ x ∈ l, p x = true := List.any_eq_true.1 h

/-- What holds of the one member of a list holds of its members. -/
theorem only {a : Addr} {l : List Addr} {p : Addr → Prop} (h : l = [a]) (k : p a) : ∀ b ∈ l, p b := by simpa [h] using k

/-- The spec's test configuration: the reference tone and kernel, GAIN 1, F = 1/5 (spec/95_test_vectors.md). -/
def benchParams : Params :=
  { openBus := 0xA7, decimal := .ignored, chip := .refTone, kernel := .reference, gain := 1, clockRate := (220500, 1)
    bufSamples := 1000, frameSamples := 100, initLimit := none }

/-- The start state of the spec's vectors, with the reference tone: two ROM banks, every window showing bank 0. -/
def bench : State :=
  { State.reset with
    params := benchParams, sound := freshSound refTone, sampleRate := 44100, bank := #v[0, 0, 0, 0, 0, 0, 0, 0]
    header := { resetHeader with romBanks := 2, bankInit := #v[0, 0, 0, 0, 0, 0, 0, 0], basePlayPeriod := 50 } }

/-- The bench with bytes in RAM. -/
def ramOf (cells : List Host.Cell) : State := { bench with ram := cells }

/-- The bench with bytes at the start of the ROM image, where PC stands. -/
def codeOf (bytes : List Byte) : State := { bench with rom := bytes.zipIdx.map fun c => (c.2, c.1) }

/-- A voice that is about to change level, and no room in the buffer: the sound chip's own stop is near (R322). -/
def tight : State :=
  { bench with
    params := { benchParams with bufSamples := 0 }
    sound := { freshSound refTone with
      voices := [{ osc := refToneOsc 0 8 0, due := some 50, lastL := 0, lastR := 0, outL := true, outR := true }] }
    clock := 100 }

/-! ## WellFormed: an ill-formed term for each check -/

theorem test_wf_accForm : (Instr.lda (.mem (.zpy 0x10))).wellFormed = false ∧ (Instr.adc (.mem (.zpy 0))).wellFormed = false ∧
    (Instr.cmp (.mem (.zpy 0))).wellFormed = false ∧ (Instr.lda (.mem (.izy 0x10))).wellFormed = true := by decide

theorem test_wf_ldxForm : (Instr.ldx (.mem (.zpx 0x10))).wellFormed = false ∧ (Instr.ldx (.mem (.abx 0x1234))).wellFormed = false ∧
    (Instr.ldx (.mem (.zpy 0x10))).wellFormed = true := by decide

theorem test_wf_ldyForm : (Instr.ldy (.mem (.zpy 0x10))).wellFormed = false ∧ (Instr.ldy (.mem (.aby 0x1234))).wellFormed = false ∧
    (Instr.ldy (.mem (.abx 0x1234))).wellFormed = true := by decide

theorem test_wf_indexCompareForm : (Instr.cpx (.mem (.zpx 0))).wellFormed = false ∧ (Instr.cpy (.mem (.abx 0))).wellFormed = false ∧
    (Instr.cpy (.imm 0)).wellFormed = true := by decide

theorem test_wf_staForm : (Instr.sta (.zpy 0)).wellFormed = false ∧ (Instr.sta (.izx 0)).wellFormed = true := by decide

theorem test_wf_stxForm : (Instr.stx (.zpx 0)).wellFormed = false ∧ (Instr.stx (.zpy 0)).wellFormed = true := by decide

theorem test_wf_styForm : (Instr.sty (.zpy 0)).wellFormed = false ∧ (Instr.sty (.zpx 0)).wellFormed = true := by decide

theorem test_wf_bitForm : (Instr.bit (.zpx 0)).wellFormed = false ∧ (Instr.bit (.abs 0x4015)).wellFormed = true := by decide

theorem test_wf_illegal : (Instr.illegal 0xEA).wellFormed = false ∧ (Instr.illegal 0x02).wellFormed = true ∧
    illegalOpcodes.length = 105 := by decide

/-! ## Decoding: each opcode byte written out from the `Encoding` line of its rule -/

theorem test_decode_loads :
    decode [0b10101001, 0x80] = .ok (.lda (.imm 0x80), []) ∧ decode [0b10100001, 0xFF] = .ok (.lda (.mem (.izx 0xFF)), []) ∧
    decode [0b10110110, 0xF0] = .ok (.ldx (.mem (.zpy 0xF0)), []) ∧
    decode [0b10111100, 0xFF, 0x12] = .ok (.ldy (.mem (.abx 0x12FF)), []) := by decide +kernel

theorem test_decode_stores :
    decode [0b10010001, 0x20] = .ok (.sta (.izy 0x20), []) ∧ decode [0b10001110, 0xF9, 0x5F] = .ok (.stx (.abs 0x5FF9), []) ∧
    decode [0b10010100, 0x10] = .ok (.sty (.zpx 0x10), []) := by decide +kernel

theorem test_decode_transfers :
    decode [0b10101010] = .ok (.tax, []) ∧ decode [0b10101000] = .ok (.tay, []) ∧ decode [0b10001010] = .ok (.txa, []) ∧
    decode [0b10011000] = .ok (.tya, []) ∧ decode [0b10111010] = .ok (.tsx, []) ∧ decode [0b10011010] = .ok (.txs, []) := by
  decide +kernel

theorem test_decode_stack :
    decode [0b01001000] = .ok (.pha, []) ∧ decode [0b00001000] = .ok (.php, []) ∧ decode [0b01101000] = .ok (.pla, []) ∧
    decode [0b00101000] = .ok (.plp, []) := by decide +kernel

theorem test_decode_arithmetic :
    decode [0b01101001, 0x03] = .ok (.adc (.imm 0x03), []) ∧ decode [0b11110101, 0x44] = .ok (.sbc (.mem (.zpx 0x44)), []) ∧
    decode [0b00100101, 0x44] = .ok (.and (.mem (.zp 0x44)), []) ∧
    decode [0b00001101, 0x34, 0x12] = .ok (.ora (.mem (.abs 0x1234)), []) ∧
    decode [0b01011001, 0x34, 0x12] = .ok (.eor (.mem (.aby 0x1234)), []) ∧
    decode [0b00101100, 0x15, 0x40] = .ok (.bit (.abs 0x4015), []) := by decide +kernel

theorem test_decode_compares :
    decode [0b11010001, 0x44] = .ok (.cmp (.mem (.izy 0x44)), []) ∧ decode [0b11100000, 0x06] = .ok (.cpx (.imm 0x06), []) ∧
    decode [0b11000100, 0x20] = .ok (.cpy (.mem (.zp 0x20)), []) := by decide +kernel

theorem test_decode_steps :
    decode [0b11101110, 0x00, 0x02] = .ok (.inc (.abs 0x0200), []) ∧ decode [0b11010110, 0x10] = .ok (.dec (.zpx 0x10), []) ∧
    decode [0b11101000] = .ok (.inx, []) ∧ decode [0b11001000] = .ok (.iny, []) ∧ decode [0b11001010] = .ok (.dex, []) ∧
    decode [0b10001000] = .ok (.dey, []) := by decide +kernel

theorem test_decode_shifts :
    decode [0b00001010] = .ok (.asl .acc, []) ∧ decode [0b01001110, 0x00, 0x03] = .ok (.lsr (.mem (.abs 0x0300)), []) ∧
    decode [0b00110110, 0x10] = .ok (.rol (.mem (.zpx 0x10)), []) ∧
    decode [0b01111110, 0x34, 0x12] = .ok (.ror (.mem (.abx 0x1234)), []) := by decide +kernel

theorem test_decode_jumps :
    decode [0b01001100, 0x00, 0x80] = .ok (.jmpAbs 0x8000, []) ∧ decode [0b01101100, 0xFF, 0x10] = .ok (.jmpInd 0x10FF, []) ∧
    decode [0b00100000, 0x00, 0x90] = .ok (.jsr 0x9000, []) ∧ decode [0b01100000] = .ok (.rts, []) ∧
    decode [0b01000000] = .ok (.rti, []) ∧ decode [0b00000000] = .ok (.brk, []) := by decide +kernel

theorem test_decode_branches :
    decode [0b00010000, 0x20] = .ok (.bpl 0x20, []) ∧ decode [0b00110000, 0x20] = .ok (.bmi 0x20, []) ∧
    decode [0b01010000, 0x10] = .ok (.bvc 0x10, []) ∧ decode [0b01110000, 0x80] = .ok (.bvs 0x80, []) ∧
    decode [0b10010000, 0x01] = .ok (.bcc 0x01, []) ∧ decode [0b10110000, 0xFE] = .ok (.bcs 0xFE, []) ∧
    decode [0b11010000, 0xFB] = .ok (.bne 0xFB, []) ∧ decode [0b11110000, 0x20] = .ok (.beq 0x20, []) := by decide +kernel

theorem test_decode_flags :
    decode [0b00011000] = .ok (.clc, []) ∧ decode [0b00111000] = .ok (.sec, []) ∧ decode [0b01011000] = .ok (.cli, []) ∧
    decode [0b01111000] = .ok (.sei, []) ∧ decode [0b10111000] = .ok (.clv, []) ∧ decode [0b11011000] = .ok (.cld, []) ∧
    decode [0b11111000] = .ok (.sed, []) ∧ decode [0b11101010] = .ok (.nop, []) := by decide +kernel

theorem test_decode_illegal :
    decode [0b00000010, 0xEA] = .ok (.illegal 0x02, [0xEA]) ∧ decode [0b11111111] = .ok (.illegal 0xFF, []) ∧
    decode [] = .error .noBytes ∧ decode [0xAD, 0x00] = .error (.truncated 0xAD) := by decide +kernel

theorem test_decode_table_word :
    decodeTableWord 24 0x40008D = some (.sta (.abs 0x4000)) ∧ decodeTableWord 8 0x8D = some (.sta (.abs 0x0000)) ∧
    decodeTableWord 16 0x80A9 = some (.lda (.imm 0x80)) := by decide +kernel

theorem test_rows : opcodeRows.length = 151 ∧ illegalOpcodes.length + opcodeRows.length = 256 := by decide +kernel

/-! ## Loads, stores, transfers, stack (spec/95_test_vectors.md, 2.3) -/

/-- V-L-1. -/
theorem test_lda_zero : (nextOf (exec (.lda (.imm 0x00)) { bench with n := true })).map (fun s => (s.a, s.n, s.z, s.pc, s.clock)) =
    some (0x00, false, true, 0x8002, 2) := by decide +kernel

/-- V-L-4: both pointer bytes come from the zero page. -/
theorem test_lda_izx : (nextOf (exec (.lda (.mem (.izx 0xFF)))
    (ramOf [(0x00, 0x03), (0xFF, 0x05), (0x305, 0x42)]))).map (fun s => (s.a, s.clock)) = some (0x42, 6) := by decide +kernel

/-- V-L-5: the page-cross cycle of IZY. -/
theorem test_ldx_zpy : (nextOf (exec (.ldx (.mem (.zpy 0xF0))) { ramOf [(0x10, 0x80)] with y := 0x20 })).map
    (fun s => (s.x, s.n, s.z, s.clock)) = some (0x80, true, false, 4) := by decide +kernel

/-- V-L-22, and R174's corner: `LDY $12FF,X` with X = 1 costs 5. -/
theorem test_ldy : (nextOf (exec (.ldy (.mem (.zpx 0x10))) { bench with x := 0xF5, y := 0x55 })).map (fun s => (s.y, s.z, s.clock)) =
      some (0x00, true, 4) ∧
    (nextOf (exec (.ldy (.mem (.abx 0x12FF))) { bench with x := 0x01 })).map (fun s => s.clock) = some 5 := by decide +kernel

/-- V-L-8: no extra cycle for a store that crosses a page. -/
theorem test_sta_abx : (nextOf (exec (.sta (.abx 0x02FF)) { bench with x := 0x01, a := 0x5A, ram := [] })).map
    (fun s => (s.ram, s.clock, s.pc)) = some ([(0x300, 0x5A)], 5, 0x8003) := by decide +kernel

/-- V-M-11: an APU write carries the instruction's base end time. -/
theorem test_sta_apu : (nextOf (exec (.sta (.abs 0x4000)) { bench with clock := 10, a := 0x3C })).map (fun s => s.apuLog) =
    some [{ clock := 14, reg := 0x00, value := 0x3C }] := by decide +kernel

/-- V-L-9. -/
theorem test_stx_zpy : (nextOf (exec (.stx (.zpy 0xFF)) { bench with y := 0x02, x := 0x11, ram := [] })).map
    (fun s => (s.ram, s.clock)) = some ([(0x001, 0x11)], 4) := by decide +kernel

/-- R176's example: a bank register; 5 is beyond the image, as in V-M-9. -/
theorem test_stx_bank : (nextOf (exec (.stx (.abs 0x5FF9)) { bench with x := 0x05 })).map
    (fun s => (s.bankAt 1, s.bankAt 0, s.warning, s.peek 0x9123)) = some (0x05, 0x00, some .invalidBank, 0xA7) := by
  decide +kernel

/-- V-L-10. -/
theorem test_sty_zp : (nextOf (exec (.sty (.zp 0x10)) { bench with y := 0x07, ram := [] })).map (fun s => (s.ram, s.clock)) =
    some ([(0x10, 0x07)], 3) := by decide +kernel

/-- V-L-18 to V-L-21, V-L-11, V-L-12. -/
theorem test_transfers :
    (nextOf (exec .tax { bench with x := 0x55, a := 0x00 })).map (fun s => (s.x, s.z)) = some (0x00, true) ∧
    (nextOf (exec .tay { bench with a := 0x90 })).map (fun s => (s.y, s.n)) = some (0x90, true) ∧
    (nextOf (exec .txa { bench with x := 0x01 })).map (fun s => (s.a, s.n, s.z)) = some (0x01, false, false) ∧
    (nextOf (exec .tya { bench with y := 0xFF })).map (fun s => (s.a, s.n)) = some (0xFF, true) ∧
    (nextOf (exec .tsx { bench with sp := 0x80 })).map (fun s => (s.x, s.n)) = some (0x80, true) ∧
    (nextOf (exec .txs { bench with x := 0x00 })).map (fun s => (s.sp, s.z, s.clock)) = some (0x00, false, 2) := by
  decide +kernel

/-- V-L-13: the stack pointer wraps within page 1. -/
theorem test_pha_wraps : (nextOf (exec .pha { bench with sp := 0x00, a := 0x12, ram := [] })).map
    (fun s => (s.ram, s.sp, s.clock)) = some ([(0x100, 0x12)], 0xFF, 3) := by decide +kernel

/-- V-L-15. -/
theorem test_php : (nextOf (exec .php { bench with c := true, z := true, i := false, ram := [] })).map (fun s => s.ram) =
    some [(0x1FD, 0x33)] := by decide +kernel

/-- V-L-14. -/
theorem test_pla_wraps : (nextOf (exec .pla { ramOf [(0x100, 0x80)] with sp := 0xFF })).map
    (fun s => (s.a, s.sp, s.n, s.clock)) = some (0x80, 0x00, true, 4) := by decide +kernel

/-- V-L-17 and V-L-16: bits 5 and 4 of a pulled byte are ignored. -/
theorem test_plp : (nextOf (exec .plp { ramOf [(0x1FE, 0x30)] with n := true, c := true })).map
      (flagsOf) = some [false, false, false, false, false, false] ∧
    (nextOf (exec .plp (ramOf [(0x1FE, 0xFF)]))).map (flagsOf) =
      some [true, true, true, true, true, true] := by decide +kernel

/-! ## Arithmetic, logic, compare, shift (2.4) -/

/-- V-A-1 to V-A-5: value, N, V, Z, C. -/
theorem test_adc :
    (nextOf (exec (.adc (.imm 0x50)) { bench with a := 0x50 })).map (fun s => (s.a, nvzc s)) =
      some (0xA0, [true, true, false, false]) ∧
    (nextOf (exec (.adc (.imm 0x01)) { bench with a := 0xFF })).map (fun s => (s.a, nvzc s)) =
      some (0x00, [false, false, true, true]) ∧
    (nextOf (exec (.adc (.imm 0x00)) { bench with a := 0x7F, c := true })).map (fun s => (s.a, nvzc s)) =
      some (0x80, [true, true, false, false]) ∧
    (nextOf (exec (.adc (.imm 0x80)) { bench with a := 0x80 })).map (fun s => (s.a, nvzc s)) =
      some (0x00, [false, true, true, true]) := by decide +kernel

/-- V-A-31 and V-A-32. -/
theorem test_adc_decimal :
    (nextOf (exec (.adc (.imm 0x01)) { bench with a := 0x09, d := true })).map (fun s => s.a) = some 0x0A ∧
    faultOf (exec (.adc (.imm 0x01)) { bench with d := true, params := { benchParams with decimal := .refused } }) =
      some .decimalUnmodelled := by decide +kernel

/-- V-A-6 to V-A-10. -/
theorem test_sbc :
    (nextOf (exec (.sbc (.imm 0xF0)) { bench with a := 0x50, c := true })).map (fun s => (s.a, s.v, s.c)) =
      some (0x60, false, false) ∧
    (nextOf (exec (.sbc (.imm 0xB0)) { bench with a := 0x50, c := true })).map (fun s => (s.a, s.n, s.v, s.c)) =
      some (0xA0, true, true, false) ∧
    (nextOf (exec (.sbc (.imm 0x03)) { bench with a := 0x05 })).map (fun s => (s.a, s.c)) = some (0x01, true) ∧
    (nextOf (exec (.sbc (.imm 0x01)) { bench with a := 0x80, c := true })).map (fun s => (s.a, s.v, s.c)) =
      some (0x7F, true, true) := by decide +kernel

/-- V-A-11 to V-A-13. -/
theorem test_logic :
    (nextOf (exec (.and (.imm 0x0F)) { bench with a := 0xF0 })).map (fun s => (s.a, s.z)) = some (0x00, true) ∧
    (nextOf (exec (.ora (.imm 0x80)) { bench with a := 0x01 })).map (fun s => (s.a, s.n)) = some (0x81, true) ∧
    (nextOf (exec (.eor (.imm 0x0F)) { bench with a := 0xFF })).map (fun s => (s.a, s.n)) = some (0xF0, true) := by
  decide +kernel

/-- V-A-19. -/
theorem test_bit : (nextOf (exec (.bit (.zp 0x10)) { ramOf [(0x10, 0xC0)] with a := 0x01 })).map
    (fun s => (s.a, s.n, s.v, s.z, s.clock)) = some (0x01, true, true, true, 3) := by decide +kernel

/-- V-A-14 to V-A-18. -/
theorem test_compares :
    (nextOf (exec (.cmp (.imm 0x40)) { bench with a := 0x40 })).map (fun s => (s.n, s.z, s.c)) = some (false, true, true) ∧
    (nextOf (exec (.cmp (.imm 0x41)) { bench with a := 0x40 })).map (fun s => (s.n, s.z, s.c)) = some (true, false, false) ∧
    (nextOf (exec (.cmp (.imm 0x01)) { bench with a := 0x80 })).map (fun s => (s.a, s.n, s.c)) = some (0x80, false, true) ∧
    (nextOf (exec (.cpx (.imm 0x05)) { bench with x := 0x04 })).map (fun s => (s.n, s.c)) = some (true, false) ∧
    (nextOf (exec (.cpy (.imm 0x00)) bench)).map (fun s => (s.z, s.c)) = some (true, true) := by decide +kernel

/-- V-A-20, and R209's corner: on ROM the write is ignored and the flags still come from the result. -/
theorem test_inc :
    (nextOf (exec (.inc (.zp 0x10)) (ramOf [(0x10, 0xFF)]))).map (fun s => (s.ram, s.z, s.clock)) = some ([], true, 5) ∧
    (nextOf (exec (.inc (.abs 0x8000)) (codeOf [0x7F]))).map (fun s => (s.rom, s.n)) = some ([(0, 0x7F)], true) := by
  decide +kernel

/-- V-A-22. -/
theorem test_dec : (nextOf (exec (.dec (.zp 0x10)) (ramOf []))).map (fun s => (s.ram, s.n, s.z)) =
    some ([(0x10, 0xFF)], true, false) := by decide +kernel

/-- V-A-23, V-A-24, and the examples of R212 and R213. -/
theorem test_index_steps :
    (nextOf (exec .inx { bench with x := 0xFF })).map (fun s => (s.x, s.z)) = some (0x00, true) ∧
    (nextOf (exec .iny { bench with y := 0x05 })).map (fun s => s.y) = some 0x06 ∧
    (nextOf (exec .dex { bench with x := 0x01 })).map (fun s => (s.x, s.z)) = some (0x00, true) ∧
    (nextOf (exec .dey { bench with y := 0x00 })).map (fun s => (s.y, s.n)) = some (0xFF, true) := by decide +kernel

/-- V-A-25, V-A-26, V-A-28 to V-A-30. -/
theorem test_shifts_acc :
    (nextOf (exec (.asl .acc) { bench with a := 0x81 })).map (fun s => (s.a, s.c)) = some (0x02, true) ∧
    (nextOf (exec (.lsr .acc) { bench with a := 0x01 })).map (fun s => (s.a, s.z, s.c)) = some (0x00, true, true) ∧
    (nextOf (exec (.rol .acc) { bench with a := 0x80, c := true })).map (fun s => (s.a, s.c)) = some (0x01, true) ∧
    (nextOf (exec (.ror .acc) { bench with a := 0x01 })).map (fun s => (s.a, s.z, s.c)) = some (0x00, true, true) ∧
    (nextOf (exec (.ror .acc) { bench with c := true })).map (fun s => (s.a, s.n, s.c)) = some (0x80, true, false) := by
  decide +kernel

/-- V-A-27, and the rotates' examples of R217 and R218 on memory. -/
theorem test_shifts_mem :
    (nextOf (exec (.lsr (.mem (.abs 0x0300))) (ramOf [(0x300, 0x02)]))).map (fun s => (s.ram, s.c, s.clock)) =
      some ([(0x300, 0x01)], false, 6) ∧
    (nextOf (exec (.rol (.mem (.zp 0x10))) { ramOf [(0x10, 0x40)] with c := true })).map (fun s => (s.ram, s.c, s.n)) =
      some ([(0x10, 0x81)], false, true) ∧
    (nextOf (exec (.ror (.mem (.zp 0x10))) (ramOf [(0x10, 0x02)]))).map (fun s => (s.ram, s.c)) =
      some ([(0x10, 0x01)], false) ∧
    (nextOf (exec (.asl (.mem (.abx 0x0300))) { ramOf [(0x301, 0x80)] with x := 0x01 })).map (fun s => (s.ram, s.c, s.clock)) =
      some ([], true, 7) := by decide +kernel

/-! ## Control transfer and flags (2.5) -/

/-- V-C-1 and V-C-2: the pointer does not cross its page. -/
theorem test_jumps :
    (nextOf (exec (.jmpAbs 0x8000) bench)).map (fun s => (s.pc, s.clock)) = some (0x8000, 3) ∧
    (nextOf (exec (.jmpInd 0x07FF) (ramOf [(0x000, 0x99), (0x700, 0x12), (0x7FF, 0x34)]))).map (fun s => (s.pc, s.clock)) =
      some (0x1234, 5) := by decide +kernel

/-- V-C-3. -/
theorem test_jsr : (nextOf (exec (.jsr 0x9000) (ramOf []))).map (fun s => (s.ram, s.sp, s.pc, s.clock)) =
    some ([(0x1FC, 0x02), (0x1FD, 0x80)], 0xFB, 0x9000, 6) := by decide +kernel

/-- V-C-4 and V-I-5. -/
theorem test_rts :
    (nextOf (exec .rts { ramOf [(0x1FC, 0x02), (0x1FD, 0x80)] with sp := 0xFB })).map (fun s => (s.pc, s.sp, s.clock)) =
      some (0x8003, 0xFD, 6) ∧
    (nextOf (exec .rts { ramOf [(0x1FC, 0xFF), (0x1FD, 0xFF)] with sp := 0xFB })).map (fun s => (s.pc, s.corrupt)) =
      some (0x0000, false) := by decide +kernel

/-- V-C-5. -/
theorem test_rti : (nextOf (exec .rti { ramOf [(0x1FB, 0x24), (0x1FC, 0x02), (0x1FD, 0x80)] with sp := 0xFA, n := true })).map
    (fun s => (s.pc, s.sp, s.n, s.i, s.z, s.clock)) = some (0x8002, 0xFD, false, true, false, 6) := by decide +kernel

/-- V-C-6, the vector being in ROM window 7. -/
theorem test_brk : (nextOf (exec .brk { ramOf [] with rom := [(0xFFF, 0x90)] })).map (fun s => (s.ram, s.sp, s.pc, s.i, s.clock)) =
    some ([(0x1FB, 0x34), (0x1FC, 0x02), (0x1FD, 0x80)], 0xFA, 0x9000, true, 7) := by decide +kernel

/-- V-C-7 to V-C-13. -/
theorem test_branches :
    (nextOf (exec (.bne 0x01) { bench with pc := 0x80FD })).map (fun s => (s.pc, s.clock)) = some (0x8100, 4) ∧
    (nextOf (exec (.beq 0x55) bench)).map (fun s => (s.pc, s.clock)) = some (0x8002, 2) ∧
    (nextOf (exec (.bne 0x80) { bench with pc := 0x8010 })).map (fun s => (s.pc, s.clock)) = some (0x7F92, 4) ∧
    (nextOf (exec (.bvc 0x02) bench)).map (fun s => (s.pc, s.clock)) = some (0x8004, 3) ∧
    (nextOf (exec (.bmi 0x55) bench)).map (fun s => (s.pc, s.clock)) = some (0x8002, 2) ∧
    (nextOf (exec (.bcs 0xFE) { bench with c := true })).map (fun s => (s.pc, s.clock)) = some (0x8000, 3) ∧
    (nextOf (exec (.beq 0x20) { bench with pc := 0xFFF0, z := true })).map (fun s => (s.pc, s.clock, s.corrupt)) =
      some (0x0012, 4, false) := by decide +kernel

/-- The examples of R247, R250 and R251. -/
theorem test_branches_more :
    (nextOf (exec (.bpl 0x20) { bench with pc := 0x80F0 })).map (fun s => (s.pc, s.clock)) = some (0x8112, 4) ∧
    (nextOf (exec (.bvs 0x80) { bench with v := true })).map (fun s => (s.pc, s.clock)) = some (0x7F82, 4) ∧
    (nextOf (exec (.bcc 0x01) { bench with pc := 0x80FD })).map (fun s => (s.pc, s.clock)) = some (0x8100, 4) := by
  decide +kernel

/-- V-C-15 and V-C-16: each writes only its flag. -/
theorem test_flags :
    (nextOf (exec .clc { bench with c := true })).map (fun s => (s.c, s.i)) = some (false, true) ∧
    (nextOf (exec .sec bench)).map (fun s => (s.c, s.d)) = some (true, false) ∧
    (nextOf (exec .cli bench)).map (fun s => s.i) = some false ∧
    (nextOf (exec .sei { bench with i := false })).map (fun s => s.i) = some true ∧
    (nextOf (exec .clv { bench with v := true })).map (fun s => (s.v, s.i)) = some (false, true) ∧
    (nextOf (exec .cld { bench with d := true })).map (fun s => s.d) = some false ∧
    (nextOf (exec .sed bench)).map (fun s => (s.d, s.i)) = some (true, true) ∧
    (nextOf (exec .nop bench)).map (fun s => (s.pc, s.clock, s.corrupt)) = some (0x8001, 2, false) := by decide +kernel

/-- V-I-1. -/
theorem test_illegal : (nextOf (exec (.illegal 0x02) { bench with clock := 10 })).map
    (fun s => (s.pc, s.clock, s.corrupt, s.warning)) = some (0x8001, 12, true, some .illegalOpcode) := by decide +kernel

/-! ## The memory map and the run loop (2.1, 2.2) -/

/-- V-M-1 and V-M-3. -/
theorem test_map :
    (okOf (memWrite (ramOf []) 0x0805 0x11 0)).map (fun s => (s.ram, s.peek 0x1805, s.peek 0x1005)) =
      some ([(0x005, 0x11)], 0x11, 0x11) ∧
    (bench.peek 0x2000, bench.peek 0x3FFF, bench.peek 0x4018, bench.peek 0x5FF9) = (0xA7, 0xA7, 0xA7, 0xA7) := by
  decide +kernel

/-- V-M-13: a status read of the reference tone. -/
theorem test_status_read : (nextOf (exec (.lda (.mem (.abs 0x4015))) { bench with a := 0x55 })).map
    (fun s => (s.a, s.z, s.sound.apuTime)) = some (0x00, true, 4) := by decide +kernel

/-- V-I-2 and V-I-3: an illegal opcode is found before a wrap. -/
theorem test_end_of_memory :
    (nextOf (step { bench with pc := 0xFFFF, rom := [(0xFFF, 0x02)] })).map (fun s => (s.pc, s.warning)) =
      some (0x0000, some .illegalOpcode) ∧
    (nextOf (step { bench with pc := 0xFFFF, rom := [(0xFFF, 0xEA)] })).map (fun s => (s.pc, s.clock, s.corrupt, s.warning)) =
      some (0x0000, 2, true, some .pcWrap) := by decide +kernel

/-- V-I-4. -/
theorem test_wrap_operand : (nextOf (step { bench with pc := 0xFFFE, a := 0x55, rom := [(0xFFE, 0xA9)] })).map
    (fun s => (s.a, s.pc, s.clock, s.warning)) = some (0x55, 0xFFFF, 2, some .pcWrap) := by decide +kernel

set_option maxRecDepth 10000 in
/-- A step from the reset state runs the instruction that `withFetchWord` places. -/
theorem test_step_from_reset : step (State.reset.withFetchWord 16 0x05A9) =
    exec (.lda (.imm 0x05)) (State.reset.withFetchWord 16 0x05A9) := rfl

/-! ## The APU and the Coordinator (2.6, 2.7) -/

/-- V-P-1 with V-P-2's reading: F = 1/5. -/
theorem test_reference_tone :
    ((apuWrite bench.soundEnv 0 2 8 bench.sound >>= apuWrite bench.soundEnv 0 0 9 >>= apuEndFrame bench.soundEnv 25 >>=
      readSamples 1 5).map fun r => (r.1, r.2.voices.map Voice.due, r.2.apuTime, r.2.origin, r.2.avail)) =
    .ok ([8, 8, 8, 8, 0, 0, 0, 0, 8, 8], [some 6], 0, 0, 0) := by decide +kernel

/-- V-P-3: a muted voice runs on and emits nothing. -/
theorem test_muted_voice :
    ((apuWrite bench.soundEnv 0 2 8 (setOutputs 1 bench.sound) >>= apuWrite bench.soundEnv 0 0 9 >>=
      apuEndFrame bench.soundEnv 25).map fun w => (w.left.acc, w.voices.map fun v => (v.due, v.osc.phase))) =
    .ok ([], [(some 6, 1)]) := by decide +kernel

/-- R308: a clock before apu_time is refused, of a write, of a read, and of a read of a register the chip does not define. -/
theorem test_apu_time_order :
    errorOf (apuWrite bench.soundEnv 4 0 0 { freshSound refTone with apuTime := 5 }) = some .apuTimeOrder ∧
    errorOf (apuRead bench.soundEnv 0xA7 4 0x15 { freshSound refTone with apuTime := 5 }) = some .apuTimeOrder ∧
    errorOf (apuRead bench.soundEnv 0xA7 4 0x16 { freshSound refTone with apuTime := 5 }) = some .apuTimeOrder := by
  decide +kernel

/-- V-P-6: saturation. -/
theorem test_saturation : pcmSample 1 40000 = 32767 ∧ pcmSample 1 (-40000) = -32768 ∧ pcmSample 1 (-1 / 2) = -1 := by
  decide +kernel

/-- V-CO-8 and V-CO-9. -/
theorem test_tempo : period 29830 1 = 29830 ∧ period 29830 2 = 14915 ∧ period 29830 (1 / 2) = 59660 ∧ period 29830 3 = 9943 ∧
    clampTempo 10 = 4 ∧ clampTempo (1 / 1000) = 1 / 50 ∧ clampTempo (3 / 2) = 3 / 2 := by decide +kernel

/-- V-CO-10 and V-CO-11. -/
theorem test_overrun :
    (okOf (playEntry { bench with clock := 350, nextPlay := 200, playPeriod := 100 })).map
      (fun s => (s.nextPlay, s.warning)) = some (450, some .playOverrun) ∧
    (okOf (playEntry { bench with clock := 180, nextPlay := 100, playPeriod := 100 })).map
      (fun s => (s.nextPlay, s.warning)) = some (200, none) := by decide +kernel

/-- V-CO-12, first half. -/
theorem test_frame_length : frameLength bench (frameTarget bench 5) = 25 := by decide +kernel

/-- The reset state is what steps 1-6 of `start_track(0)` leave of it (R44). -/
theorem test_reset_is_start_track : startTrackSteps { bench with a := 0x77, clock := 99, sp := 0x12, ram := [(5, 5)] } 0 =
    .ok { State.reset with
      params := bench.params, sound := bench.sound, sampleRate := bench.sampleRate, header := bench.header, bank := bench.bank
      playPeriod := 50 } := by decide +kernel

/-! ## Witnesses: states and operands that meet the hypotheses of each statement

A statement with several clauses has one for each. `∃ x, o = .next x ∧ p x = true` also says something of that next value. -/

/-- Running inside a frame of 100 clocks, in the play routine. -/
def inFrame (s : State) : State := { s with activity := .frame 100 none, inRoutine := some .play, mode := .running }

/-- Waiting, with these host calls pending. -/
def calling (calls : List HostCall) : State := { bench with activity := .waiting, calls := calls }

/-- The reference tone about to change level at clock 50, with room in the buffer. -/
def sounding : State := { tight with params := benchParams }

theorem witness_decode_of_encode :
    (Instr.lda (.mem (.izy 0xFF))).wellFormed = true ∧ (Instr.illegal 0xFF).wellFormed = true ∧ Instr.brk.wellFormed = true := by
  decide

theorem witness_encode_of_decode : decode [0x6C, 0xFF, 0xFF, 0x01] = .ok (.jmpInd 0xFFFF, [0x01]) := by decide +kernel

theorem witness_opcode_map : (∃ r ∈ opcodeRows, (r.opcode == 0xFE) = true) ∧ 0xFF ∈ illegalOpcodes ∧ 0x02 ∈ illegalOpcodes :=
  ⟨mem_of_any (by decide +kernel), by decide, by decide⟩

theorem witness_table_columns :
    (∃ r ∈ opcodeRows, decide (r.extra = .never) = true) ∧ (∃ r ∈ opcodeRows, decide (r.extra = .ifCrossed) = true) ∧
    (∃ r ∈ opcodeRows, decide (r.extra = .ifTaken) = true) ∧
    (∃ s', exec (.lda (.mem (.abx 0x12FF))) { bench with x := 1 } = .next s' ∧ decide (s'.clock = 5) = true) ∧
    (∃ s', exec (.illegal 0xFF) bench = .next s' ∧ decide (s'.clock = 2) = true) :=
  ⟨mem_of_any (by decide +kernel), mem_of_any (by decide +kernel), mem_of_any (by decide +kernel), next_of (by decide +kernel),
    next_of (by decide +kernel)⟩

/-- In the init run, and inside a frame at its last clock. -/
theorem witness_ready : Ready (codeOf [0xA9, 0x05]) ∧ Ready { inFrame (codeOf [0xA9, 0x05]) with clock := 99 } :=
  ⟨⟨by decide, by decide, by decide, .inl ⟨by decide, by decide⟩⟩,
    ⟨by decide, by decide, by decide, .inr ⟨100, none, rfl, by decide, by decide⟩⟩⟩

/-- A documented instruction, and an illegal opcode in the last byte of memory. -/
theorem witness_step_runs :
    (Ready (codeOf [0xA9, 0x05]) ∧
      decode [(codeOf [0xA9, 0x05]).peek 0x8000, (codeOf [0xA9, 0x05]).peek 0x8001, (codeOf [0xA9, 0x05]).peek 0x8002] =
        .ok (.lda (.imm 0x05), [0x00]) ∧
      (∀ k, k < 2 → (0x8000 : Addr) + BitVec.ofNat 16 k ≠ apuStatusAddr) ∧ (0x8000 : Addr).toNat + 2 < 0x10000) ∧
    (Ready { bench with pc := 0xFFFF, rom := [(0xFFF, 0x02)] } ∧
      decode [0x02, 0x00, 0x00] = .ok (.illegal 0x02, [0x00, 0x00]) ∧ isIllegal (.illegal 0x02) = true) ∧
    (∃ r, fetch (codeOf [0xA9, 0x05]) = .ok r ∧ decide (r.1 = .instr (.lda (.imm 0x05))) = true) :=
  ⟨⟨witness_ready.1, by decide +kernel, by decide, by decide⟩,
    ⟨⟨by decide, by decide, by decide, .inl ⟨by decide, by decide⟩⟩, by decide +kernel, rfl⟩, ok_of (by decide +kernel)⟩

/-- Three bytes that just fit, three that do not, and an instruction fetched through the sound chip's status register. -/
theorem witness_fetch :
    (∃ r, fetch { bench with pc := 0xFFFC, rom := [(0xFFC, 0x4C)] } = .ok r ∧ decide (r.1 = .instr (.jmpAbs 0)) = true) ∧
    (∃ r, fetch { bench with pc := 0xFFFD, rom := [(0xFFD, 0x4C)] } = .ok r ∧ decide (r.1 = .wrapped) = true) ∧
    (∃ r, fetch { bench with pc := 0x4015 } = .ok r ∧ decide (r.1 = .instr .brk) = true) ∧
    (∀ k, k < 3 → (0xFFFD : Addr) + BitVec.ofNat 16 k ≠ apuStatusAddr) :=
  ⟨ok_of (by decide +kernel), ok_of (by decide +kernel), ok_of (by decide +kernel), by decide⟩

theorem witness_run_loop : bench.mode ≠ .idle := by decide

theorem witness_illegal :
    (∃ r, memRead (codeOf [0x02]) 0x8000 0 = .ok r ∧ (r.1 == 0x02) = true) ∧ 0x02 ∈ illegalOpcodes ∧
    ((codeOf [0x02]).mode ≠ .idle ∧ (codeOf [0x02]).pc ≠ idleAddr ∧ (codeOf [0x02]).clock < 1 ∧
      (codeOf [0x02]).interruptPending = false) ∧
    (∃ r, cpuStep (codeOf [0x02]) = .next r ∧ decide (r.1 = .illegal) = true) :=
  ⟨ok_of (by decide +kernel), by decide, by decide, next_of (by decide +kernel)⟩

/-- A three-byte instruction one byte too high, and the step that answers `Wrap` for it. -/
theorem witness_wrap :
    (∃ r, memRead { bench with pc := 0xFFFD, rom := [(0xFFD, 0x4C)] } 0xFFFD 0 = .ok r ∧ (r.1 == 0x4C) = true) ∧
    (∃ r ∈ opcodeRows, (r.opcode == 0x4C && decide (0x10000 ≤ (0xFFFD : Addr).toNat + r.length)) = true) ∧
    (∃ r, cpuStep { bench with pc := 0xFFFD, rom := [(0xFFD, 0x4C)] } = .next r ∧ decide (r.1 = .wrap) = true) :=
  ⟨ok_of (by decide +kernel), mem_of_any (by decide +kernel), next_of (by decide +kernel)⟩

/-- V-I-8: two NOPs of two clocks run to an end clock of 3; and an end clock already passed. -/
theorem witness_reached :
    (∃ r, run 5 (some 3) (codeOf [0xEA, 0xEA, 0xEA]) = .next r ∧ decide (r.1 = some .reached ∧ r.2.clock = 4) = true) ∧
    (∃ r, run 1 (some 0) bench = .next r ∧ decide (r.1 = some .reached ∧ r.2.clock = 0) = true) :=
  ⟨next_of (by decide +kernel), next_of (by decide +kernel)⟩

/-- An NMI, and an IRQ with I clear. -/
theorem witness_interrupt :
    (bench.mode ≠ .idle ∧ bench.pc ≠ idleAddr ∧ reachedEnd bench (some 1) = false ∧
      { bench with nmiPending := true }.interruptPending = true) ∧
    (reachedEnd bench none = false ∧ { bench with irqLine := true, i := false }.interruptPending = true) := by decide

theorem witness_lines_quiet : LinesQuiet bench ∧
    (∃ s', step (codeOf [0xEA]) = .next s' ∧ (s'.irqLine == false && s'.nmiPending == false) = true) ∧
    (∃ r, boundary (some 5) (codeOf [0xEA]) = .next r ∧ decide (r.1 = none) = true) :=
  ⟨⟨rfl, rfl⟩, next_of (by decide +kernel), next_of (by decide +kernel)⟩

/-- The end of a frame of 25 clocks at clock 30, and start_track. -/
theorem witness_clock_falls :
    (∃ s', step { bench with activity := .frame 25 none, inRoutine := none, mode := .running, clock := 30 } = .next s' ∧
      decide (s'.clock = 5) = true) ∧
    (∃ s', step { calling [.startTrack 0] with clock := 30, rateSet := true } = .next s' ∧ decide (s'.clock = 0) = true) :=
  ⟨next_of (by decide +kernel), next_of (by decide +kernel)⟩

theorem witness_corrupt :
    (∃ r, cpuStep (codeOf [0x02]) = .next r ∧ r.2.corrupt = true) ∧
    (∃ r, cpuStep (codeOf [0xEA]) = .next r ∧ (!r.2.corrupt) = true) ∧
    (∃ s', step { calling [.startTrack 0] with corrupt := true, rateSet := true } = .next s' ∧ (!s'.corrupt) = true) :=
  ⟨next_of (by decide +kernel), next_of (by decide +kernel), next_of (by decide +kernel)⟩

theorem witness_cost : (Instr.lda (.mem (.abx 0x12FF))).wellFormed = true ∧
    (∃ s', exec (.lda (.mem (.abx 0x12FF))) { bench with x := 1 } = .next s' ∧ decide (s'.clock = 5) = true) :=
  ⟨by decide, next_of (by decide +kernel)⟩

/-- The ends of RAM's mirrors and of SRAM. -/
theorem witness_direct_pages :
    ((0x0000 : Addr).toNat < 0x2000 ∧ (0x1FFF : Addr).toNat < 0x2000 ∧ (0x1FFF : Addr).toNat % 0x800 = (0x07FF : Addr).toNat % 0x800) ∧
    (0x6000 ≤ (0x6000 : Addr).toNat ∧ 0x6000 ≤ (0x7FFF : Addr).toNat ∧ (0x7FFF : Addr).toNat < 0x8000) ∧
    (∃ s', memWrite bench 0x1FFF 0x11 0 = .ok s' ∧ (s'.peek 0x07FF == 0x11) = true) ∧
    (∃ s', memWrite bench 0x7FFF 0x11 0 = .ok s' ∧ (s'.peek 0x7FFF == 0x11 && s'.peek 0x6000 == 0x00) = true) :=
  ⟨by decide, by decide, ok_of (by decide +kernel), ok_of (by decide +kernel)⟩

theorem witness_rom_windows : 0x8000 ≤ (0x8000 : Addr).toNat ∧ 0x8000 ≤ (0xFFFF : Addr).toNat := by decide

/-- The first and the last window, and a bank that the image has not. -/
theorem witness_bank_switch :
    (∃ s', memWrite bench (0x5FF8 + BitVec.ofNat 16 (0 : Fin 8).val) 0x01 0 = .ok s' ∧ (s'.bankAt 0 == 0x01) = true) ∧
    (∃ s', memWrite bench (0x5FF8 + BitVec.ofNat 16 (7 : Fin 8).val) 0x02 0 = .ok s' ∧
      (s'.bankAt 7 == 0x02 && s'.peek 0xFFFF == 0xA7) = true) :=
  ⟨ok_of (by decide +kernel), ok_of (by decide +kernel)⟩

/-- The ends of each range. -/
theorem witness_io_window :
    (0x4000 ≤ (0x4000 : Addr).toNat ∧ (0x4017 : Addr).toNat ≤ 0x4017) ∧
    (0x2000 ≤ (0x2000 : Addr).toNat ∧ (0x5FFF : Addr).toNat < 0x6000 ∧ (0x5FFF : Addr) ≠ 0x4015) ∧
    ((0x3FFF : Addr).toNat < 0x4000 ∧ 0x4017 < (0x4018 : Addr).toNat ∧ (0x5FF7 : Addr).toNat < 0x5FF8) ∧
    ((0x5FF8 : Addr).toNat = 0x5FF8 + (0 : Fin 8).val ∧ (0x5FFF : Addr).toNat = 0x5FF8 + (7 : Fin 8).val) ∧
    (0x8000 ≤ (0xFFFF : Addr).toNat ∧
      ({ bench with bank := #v[2, 2, 2, 2, 2, 2, 2, 2] } : State).header.romBanks ≤
        (({ bench with bank := #v[2, 2, 2, 2, 2, 2, 2, 2] } : State).bankAt (windowOf 0xFFFF)).toNat) := by decide +kernel

/-- A write to RAM seen in a mirror, one to a bank register seen outside its window, and addresses that reach no sound chip. -/
theorem witness_read_after_write :
    ((0x4014 : Addr) ≠ apuStatusAddr ∧ isApuWrite 0x3FFF = false ∧ isApuWrite 0x4018 = false) ∧
    (∃ s', memWrite bench 0x0000 0x11 0 = .ok s' ∧ (s'.peek 0x1800 == 0x11) = true) ∧ inWindowOf 0x0000 0x1800 = false ∧
    (∃ s', memWrite bench 0x5FF8 0x01 0 = .ok s' ∧ (s'.peek 0x9000 == 0x00) = true) ∧ inWindowOf 0x5FF8 0x9000 = false :=
  ⟨by decide, ok_of (by decide +kernel), by decide, ok_of (by decide +kernel), by decide⟩

theorem witness_memory_ok : MemoryOk (codeOf [0x85, 0x10]) ∧
    (∃ s', step { codeOf [0x85, 0x10] with a := 0x05 } = .next s' ∧ (s'.peek 0x10 == 0x05) = true) :=
  ⟨⟨by decide +kernel, by decide +kernel, by decide +kernel, by decide +kernel, by decide +kernel, by decide +kernel⟩,
    next_of (by decide +kernel)⟩

/-- A step of a program, and the first `set_sample_rate`. -/
theorem witness_resident_image : (∃ s', step (codeOf [0xEA]) = .next s' ∧ decide (s'.pc = 0x8001) = true) ∧
    (∃ s', step { calling [.setSampleRate 48000] with rateSet := false } = .next s' ∧
      decide (s'.sampleRate ≠ bench.sampleRate) = true) :=
  ⟨next_of (by decide +kernel), next_of (by decide +kernel)⟩

/-- An operand read, and one that the sound chip's buffer refuses, for each load. -/
theorem witness_loads :
    (∃ r, operand bench (.mem (.abs 0xFFFF)) (bench.clock + baseCycles (.lda (.mem (.abs 0xFFFF)))) = .ok r ∧
      (r.1 == 0x00) = true) ∧
    (∃ r, operand bench (.mem (.zpy 0xFF)) (bench.clock + baseCycles (.ldx (.mem (.zpy 0xFF)))) = .ok r ∧
      (r.1 == 0x00) = true) ∧
    (∃ r, operand bench (.imm 0x80) (bench.clock + baseCycles (.ldy (.imm 0x80))) = .ok r ∧ (r.1 == 0x80) = true) ∧
    operand tight (.mem (.abs 0x4015)) (tight.clock + baseCycles (.lda (.mem (.abs 0x4015)))) = .error .bufferHorizon ∧
    operand tight (.mem (.abs 0x4015)) (tight.clock + baseCycles (.ldx (.mem (.abs 0x4015)))) = .error .bufferHorizon ∧
    operand tight (.mem (.abs 0x4015)) (tight.clock + baseCycles (.ldy (.mem (.abs 0x4015)))) = .error .bufferHorizon :=
  ⟨ok_of (by decide +kernel), ok_of (by decide +kernel), ok_of (by decide +kernel), error_of (by decide +kernel),
    error_of (by decide +kernel), error_of (by decide +kernel)⟩

/-- A write to RAM, to the sound chip and to a bank register; and one that the sound chip's buffer refuses, for each store. -/
theorem witness_stores :
    (∃ s', memWrite bench (effAddr bench (.zp 0xFF)).addr bench.a (bench.clock + baseCycles (.sta (.zp 0xFF))) = .ok s' ∧
      decide (s'.clock = 0) = true) ∧
    (∃ s', memWrite bench (effAddr bench (.abs 0x4017)).addr bench.x (bench.clock + baseCycles (.stx (.abs 0x4017))) = .ok s' ∧
      decide (s'.apuLog.length = 1) = true) ∧
    (∃ s', memWrite bench (effAddr bench (.abs 0x5FFF)).addr bench.y (bench.clock + baseCycles (.sty (.abs 0x5FFF))) = .ok s' ∧
      decide (s'.bankAt 7 = 0x00) = true) ∧
    memWrite tight (effAddr tight (.abs 0x4000)).addr tight.a (tight.clock + baseCycles (.sta (.abs 0x4000))) =
      .error .bufferHorizon ∧
    memWrite tight (effAddr tight (.abs 0x4000)).addr tight.x (tight.clock + baseCycles (.stx (.abs 0x4000))) =
      .error .bufferHorizon ∧
    memWrite tight (effAddr tight (.abs 0x4000)).addr tight.y (tight.clock + baseCycles (.sty (.abs 0x4000))) =
      .error .bufferHorizon :=
  ⟨ok_of (by decide +kernel), ok_of (by decide +kernel), ok_of (by decide +kernel), error_of (by decide +kernel),
    error_of (by decide +kernel), error_of (by decide +kernel)⟩

/-- The byte that a pull finds, with S at its wrap. -/
theorem witness_pull : (ramOf [(0x100, 0x80)]).ram.read (0x100 + ((0xFF : Byte) + 1).toNat) = 0x80 := by decide +kernel

/-- D set where it makes no difference, an operand read, and one refused. -/
theorem witness_add_sub :
    ¬({ bench with d := true }.params.decimal = .refused ∧ { bench with d := true }.d = true) ∧
    (∃ r, operand bench (.imm 0xFF) (bench.clock + baseCycles (.adc (.imm 0xFF))) = .ok r ∧ (r.1 == 0xFF) = true) ∧
    (∃ r, operand bench (.mem (.zp 0x00)) (bench.clock + baseCycles (.sbc (.mem (.zp 0x00)))) = .ok r ∧
      (r.1 == 0x00) = true) ∧
    ¬(tight.params.decimal = .refused ∧ tight.d = true) ∧
    operand tight (.mem (.abs 0x4015)) (tight.clock + baseCycles (.adc (.mem (.abs 0x4015)))) = .error .bufferHorizon ∧
    operand tight (.mem (.abs 0x4015)) (tight.clock + baseCycles (.sbc (.mem (.abs 0x4015)))) = .error .bufferHorizon :=
  ⟨by decide, ok_of (by decide +kernel), ok_of (by decide +kernel), by decide, error_of (by decide +kernel),
    error_of (by decide +kernel)⟩

theorem witness_decimal :
    ({ benchParams with decimal := .refused }.decimal = .refused) ∧ bench.params.decimal = .ignored ∧
    (∃ s', exec (.adc (.imm 0x01)) bench = .next s' ∧ (s'.a == 0x01) = true) ∧
    (∃ s', exec (.sbc (.imm 0x01)) bench = .next s' ∧ (s'.a == 0xFE) = true) ∧
    faultOf (exec (.sbc (.imm 0x01)) { bench with d := true, params := { benchParams with decimal := .refused } }) =
      some .decimalUnmodelled :=
  ⟨by decide, by decide, next_of (by decide +kernel), next_of (by decide +kernel), by decide +kernel⟩

theorem witness_logic :
    (∃ r, operand bench (.imm 0x0F) (bench.clock + baseCycles (.and (.imm 0x0F))) = .ok r ∧ (r.1 == 0x0F) = true) ∧
    (∃ r, operand bench (.imm 0x0F) (bench.clock + baseCycles (.ora (.imm 0x0F))) = .ok r ∧ (r.1 == 0x0F) = true) ∧
    (∃ r, operand bench (.imm 0x0F) (bench.clock + baseCycles (.eor (.imm 0x0F))) = .ok r ∧ (r.1 == 0x0F) = true) ∧
    (MemMode.abs 0x4015).bitForm = true ∧
    (∃ r, memRead bench (effAddr bench (.abs 0x4015)).addr (bench.clock + baseCycles (.bit (.abs 0x4015))) = .ok r ∧
      (r.1 == 0x00) = true) ∧
    operand tight (.mem (.abs 0x4015)) (tight.clock + baseCycles (.and (.mem (.abs 0x4015)))) = .error .bufferHorizon ∧
    operand tight (.mem (.abs 0x4015)) (tight.clock + baseCycles (.ora (.mem (.abs 0x4015)))) = .error .bufferHorizon ∧
    operand tight (.mem (.abs 0x4015)) (tight.clock + baseCycles (.eor (.mem (.abs 0x4015)))) = .error .bufferHorizon ∧
    memRead tight (effAddr tight (.abs 0x4015)).addr (tight.clock + baseCycles (.bit (.abs 0x4015))) = .error .bufferHorizon :=
  ⟨ok_of (by decide +kernel), ok_of (by decide +kernel), ok_of (by decide +kernel), by decide, ok_of (by decide +kernel),
    error_of (by decide +kernel), error_of (by decide +kernel), error_of (by decide +kernel), error_of (by decide +kernel)⟩

theorem witness_compares :
    (∃ r, operand bench (.imm 0xFF) (bench.clock + baseCycles (.cmp (.imm 0xFF))) = .ok r ∧ (r.1 == 0xFF) = true) ∧
    (∃ r, operand bench (.imm 0x00) (bench.clock + baseCycles (.cpx (.imm 0x00))) = .ok r ∧ (r.1 == 0x00) = true) ∧
    (∃ r, operand bench (.mem (.zp 0x10)) (bench.clock + baseCycles (.cpy (.mem (.zp 0x10)))) = .ok r ∧
      (r.1 == 0x00) = true) ∧
    operand tight (.mem (.abs 0x4015)) (tight.clock + baseCycles (.cmp (.mem (.abs 0x4015)))) = .error .bufferHorizon ∧
    operand tight (.mem (.abs 0x4015)) (tight.clock + baseCycles (.cpx (.mem (.abs 0x4015)))) = .error .bufferHorizon ∧
    operand tight (.mem (.abs 0x4015)) (tight.clock + baseCycles (.cpy (.mem (.abs 0x4015)))) = .error .bufferHorizon :=
  ⟨ok_of (by decide +kernel), ok_of (by decide +kernel), ok_of (by decide +kernel), error_of (by decide +kernel),
    error_of (by decide +kernel), error_of (by decide +kernel)⟩

/-- What the memory forms of INC, DEC, the shifts and the rotates need, at an access time: a read and a write of the result that
succeed; a read that is refused; and a read that succeeds with the write refused. -/
theorem witness_rmw :
    (∃ r, memRead bench (effAddr bench (rmwToMem (.abx 0x01FF))).addr (bench.clock + baseCycles (.inc (.abx 0x01FF))) = .ok r ∧
      (okOf (memWrite r.2 (effAddr bench (rmwToMem (.abx 0x01FF))).addr (r.1 + 1)
        (bench.clock + baseCycles (.inc (.abx 0x01FF))))).any (fun _ => true) = true) ∧
    (∃ r, memRead bench (effAddr bench (rmwToMem (.zp 0xFF))).addr (bench.clock + baseCycles (.dec (.zp 0xFF))) = .ok r ∧
      (okOf (memWrite r.2 (effAddr bench (rmwToMem (.zp 0xFF))).addr (r.1 - 1)
        (bench.clock + baseCycles (.dec (.zp 0xFF))))).any (fun _ => true) = true) ∧
    memRead tight (effAddr tight (rmwToMem (.abs 0x4015))).addr (tight.clock + baseCycles (.inc (.abs 0x4015))) =
      .error .bufferHorizon ∧
    memRead tight (effAddr tight (rmwToMem (.abs 0x4015))).addr (tight.clock + baseCycles (.dec (.abs 0x4015))) =
      .error .bufferHorizon ∧
    (∃ r, memRead tight (effAddr tight (rmwToMem (.abs 0x4000))).addr (tight.clock + baseCycles (.inc (.abs 0x4000))) = .ok r ∧
      decide (errorOf (memWrite r.2 (effAddr tight (rmwToMem (.abs 0x4000))).addr (r.1 + 1)
        (tight.clock + baseCycles (.inc (.abs 0x4000)))) = some .bufferHorizon) = true) ∧
    (∃ r, memRead tight (effAddr tight (rmwToMem (.abs 0x4000))).addr (tight.clock + baseCycles (.dec (.abs 0x4000))) = .ok r ∧
      decide (errorOf (memWrite r.2 (effAddr tight (rmwToMem (.abs 0x4000))).addr (r.1 - 1)
        (tight.clock + baseCycles (.dec (.abs 0x4000)))) = some .bufferHorizon) = true) :=
  ⟨ok_of (by decide +kernel), ok_of (by decide +kernel), error_of (by decide +kernel), error_of (by decide +kernel),
    ok_of (by decide +kernel), ok_of (by decide +kernel)⟩

/-- The shifts and rotates: the same, with the rotate of the value read as the result written. -/
theorem witness_shifts :
    (∃ r, memRead bench (effAddr bench (rmwToMem (.zpx 0xFF))).addr (bench.clock + rmwCycles (.zpx 0xFF)) = .ok r ∧
      (okOf (memWrite r.2 (effAddr bench (rmwToMem (.zpx 0xFF))).addr (r.1 <<< 1)
        (bench.clock + rmwCycles (.zpx 0xFF)))).any (fun _ => true) = true) ∧
    memRead tight (effAddr tight (rmwToMem (.abs 0x4015))).addr (tight.clock + rmwCycles (.abs 0x4015)) =
      .error .bufferHorizon ∧
    (∃ r, memRead tight (effAddr tight (rmwToMem (.abs 0x4017))).addr (tight.clock + rmwCycles (.abs 0x4017)) = .ok r ∧
      decide (errorOf (memWrite r.2 (effAddr tight (rmwToMem (.abs 0x4017))).addr (r.1 >>> 1)
        (tight.clock + rmwCycles (.abs 0x4017))) = some .bufferHorizon) = true) :=
  ⟨ok_of (by decide +kernel), error_of (by decide +kernel), ok_of (by decide +kernel)⟩

/-- Both pointer bytes read, at a page's end; and each of the two refused. -/
theorem witness_jumps :
    (∃ r, memRead bench 0x10FF (bench.clock + 5) = .ok r ∧
      (okOf (memRead r.2 (((0x10FF : Addr) &&& 0xFF00) ||| (((0x10FF : Addr) + 1) &&& 0x00FF)) (bench.clock + 5))).any
        (fun _ => true) = true) ∧
    memRead tight 0x4015 (tight.clock + 5) = .error .bufferHorizon ∧
    (∃ r, memRead tight 0x4014 (tight.clock + 5) = .ok r ∧
      decide (errorOf (memRead r.2 (((0x4014 : Addr) &&& 0xFF00) ||| (((0x4014 : Addr) + 1) &&& 0x00FF)) (tight.clock + 5)) =
        some .bufferHorizon) = true) :=
  ⟨ok_of (by decide +kernel), error_of (by decide +kernel), ok_of (by decide +kernel)⟩

/-- A BRK in each of the last two bytes of memory. -/
theorem witness_brk_at_end :
    (∃ r, memRead { bench with pc := 0xFFFE } 0xFFFE 0 = .ok r ∧ (r.1 == 0x00) = true) ∧
    (∃ r, memRead { bench with pc := 0xFFFF } 0xFFFF 0 = .ok r ∧ (r.1 == 0x00) = true) :=
  ⟨ok_of (by decide +kernel), ok_of (by decide +kernel)⟩

/-- The stack bytes of RTS and RTI, the calls whose round trips are stated, and S at its wrap. -/
theorem witness_returns :
    ((ramOf [(0x1FC, 0x02), (0x1FD, 0x80)]).ram.read (0x100 + ((0xFB : Byte) + 1).toNat) = 0x02 ∧
      (ramOf [(0x1FC, 0x02), (0x1FD, 0x80)]).ram.read (0x100 + ((0xFB : Byte) + 2).toNat) = 0x80) ∧
    (ramOf [(0x100, 0x24)]).ram.read (0x100 + ((0xFF : Byte) + 1).toNat) = 0x24 ∧
    (∃ s', exec (.jsr 0x9000) { bench with sp := 0x00 } = .next s' ∧ (s'.sp == 0xFE) = true) ∧
    (∃ s', exec .brk { bench with sp := 0x01 } = .next s' ∧ (s'.sp == 0xFE) = true) :=
  ⟨by decide +kernel, by decide +kernel, next_of (by decide +kernel), next_of (by decide +kernel)⟩

/-- The frames: an instruction that writes nothing but PC and the clock; a store to RAM beside a byte it leaves; and a store to a
bank register beside another window. -/
theorem witness_frames :
    (∃ s', exec .nop bench = .next s' ∧ decide (s'.pc = 0x8001) = true) ∧
    (writesNZ .nop = false ∧ writesV .nop = false ∧ writesD .nop = false ∧ writesI .nop = false ∧ writesC .nop = false) ∧
    (writesA .nop = false ∧ writesX .nop = false ∧ writesY .nop = false ∧ writesS .nop = false) ∧
    storedTo bench .nop = [] ∧ isIllegal .nop = false ∧
    (∃ s', exec (.sta (.zp 0xFF)) bench = .next s' ∧ decide (s'.pc = 0x8002) = true) ∧
    (∀ a ∈ storedTo bench (.sta (.zp 0xFF)), sameCell a 0x00FE = false ∧ inWindowOf a 0x00FE = false) ∧
    (∃ s', exec (.sta (.abs 0x5FF8)) bench = .next s' ∧ decide (s'.pc = 0x8003) = true) ∧
    (∀ a ∈ storedTo bench (.sta (.abs 0x5FF8)), sameCell a 0x9000 = false ∧ inWindowOf a 0x9000 = false) :=
  ⟨next_of (by decide +kernel), by decide, by decide, rfl, rfl, next_of (by decide +kernel), only (a := 0x00FF) rfl (by decide),
    next_of (by decide +kernel), only (a := 0x5FF8) rfl (by decide)⟩

/-- The device frame, for a store to RAM and a read of RAM. -/
theorem witness_device_frame :
    (∃ s', exec (.inc (.zp 0x10)) bench = .next s' ∧ decide (s'.pc = 0x8002) = true) ∧
    (∀ a ∈ storedTo bench (.inc (.zp 0x10)), isApuWrite a = false) ∧
    (∀ a ∈ readFrom bench (.inc (.zp 0x10)), a ≠ apuStatusAddr) ∧
    (∀ a ∈ storedTo bench (.inc (.zp 0x10)), isBankRegister a = false) :=
  ⟨next_of (by decide +kernel), only (a := 0x0010) rfl (by decide), only (a := 0x0010) rfl (by decide),
    only (a := 0x0010) rfl (by decide)⟩

/-- A run over a transition of the reference tone. -/
theorem witness_run_to : ∃ w, runTo sounding.soundEnv 50 sounding.sound = .ok w ∧
    decide (w.voices.map Voice.due = [some 51]) = true := ok_of (by decide +kernel)

/-- A voice due at clock 50: one turn at 50, none at 49, and none for a voice that is never due. -/
theorem witness_catch_up :
    (∃ v ∈ sounding.sound.voices, decide (v.due = some 50) = true) ∧ (50 : Int) ≤ 50 ∧ (49 : Int) < 50 ∧
    (∃ r, catchUp sounding.soundEnv 0 50 { freshVoice refTone 0 with osc := refToneOsc 0 8 0, due := some 50 } sounding.sound = .ok r ∧
      decide (r.1.due = some 51 ∧ r.1.lastL = 8 ∧ r.2.left.acc = [(10, 8)]) = true) ∧
    (∃ r, catchUp sounding.soundEnv 0 49 { freshVoice refTone 0 with due := some 50 } sounding.sound = .ok r ∧
      decide (r.1.due = some 50 ∧ r.2 = sounding.sound) = true) ∧
    (∀ due : Int, { freshVoice refTone 0 with due := none }.due = some due → (50 : Int) < due) :=
  ⟨mem_of_any (by decide +kernel), by decide, by decide, ok_of (by decide +kernel), ok_of (by decide +kernel),
    fun _ h => nomatch h⟩

theorem witness_apu_behind : ApuBehindCpu bench ∧ (∃ s', step (codeOf [0x8D, 0x00, 0x40]) = .next s' ∧
      decide (s'.sound.apuTime = 4 ∧ s'.clock = 4) = true) ∧
    (4 : Int) < { freshSound refTone with apuTime := 5 }.apuTime :=
  ⟨show (0 : Int) ≤ 0 from Int.le_refl 0, next_of (by decide +kernel), by decide⟩

/-- A step that writes deltas: the frame's end at clock 100 with the tone sounding. -/
theorem witness_sound_invariant :
    BuffersOk sounding.sound ∧ LevelOk sounding.sound ∧ AvailOk sounding.sound ∧
    (∃ s', step { sounding with activity := .frame 100 none, inRoutine := none, mode := .running } = .next s' ∧
      decide (s'.sound.left.acc ≠ [] ∧ s'.sound.avail = 20) = true) :=
  ⟨fun b => by cases b <;> decide +kernel, fun b => by cases b <;> decide +kernel, ⟨by decide +kernel, by decide +kernel⟩,
    next_of (by decide +kernel)⟩

/-- A delta past the capacity, one before the confirmed samples, and one that is taken. -/
theorem witness_add_delta :
    ((10 : Int) = ⌊(freshSound refTone).origin + ((50 : Int) : Rat) * tight.soundEnv.ratio⌋ ∧
      ((tight.soundEnv.capacity : Int) + kernelWidth tight.soundEnv.kernel < 10 + kernelWidth tight.soundEnv.kernel)) ∧
    (10 : Int) < ({ freshSound refTone with avail := 11 }.avail : Int) ∧
    ¬((10 : Int) < ((freshSound refTone).avail : Int) ∨
      (sounding.soundEnv.capacity : Int) + kernelWidth sounding.soundEnv.kernel < 10 + kernelWidth sounding.soundEnv.kernel) := by
  decide +kernel

/-- A voice at its level, a muted one, and one that emits. -/
theorem witness_emit :
    (∀ b, (freshVoice refTone 0).out b = true →
      (freshVoice refTone 0).last b =
        (refTone.amp 0 (freshVoice refTone 0).osc : Rat) * ((refTone.weight 0 (freshVoice refTone 0).osc b : ℚ≥0) : Rat)) ∧
    (∃ r, emit sounding.soundEnv 0 50 { freshVoice refTone 0 with osc := refToneOsc 0 8 1 } sounding.sound = .ok r ∧
      decide (r.1.lastL = 8) = true) ∧
    (∃ r, emit sounding.soundEnv 0 50 { freshVoice refTone 0 with osc := refToneOsc 0 8 1, outL := false } sounding.sound =
      .ok r ∧ decide (r.1.lastL = 0 ∧ r.1.lastR = 8) = true) :=
  ⟨fun b => by cases b <;> decide +kernel, ok_of (by decide +kernel), ok_of (by decide +kernel)⟩

/-- A write, a read of a defined register and one of an undefined register at the clock 50, where the tone changes level; and
the emission of a voice that is not at its level. -/
theorem witness_apu_calls :
    (sounding.sound.apuTime ≤ 50 ∧ refTone.defines 0x15 = true ∧ refTone.defines 0x16 = false) ∧
    (∃ w1, runTo sounding.soundEnv 50 sounding.sound = .ok w1 ∧ decide (w1.apuTime = 50) = true) ∧
    (∃ w', emitAll sounding.soundEnv 50 { freshSound refTone with
        voices := [{ freshVoice refTone 0 with osc := refToneOsc 0 8 1 }] } = .ok w' ∧
      decide (w'.left.acc = [(10, 8)] ∧ w'.voices.map Voice.lastL = [8]) = true) :=
  ⟨by decide +kernel, ok_of (by decide +kernel), ok_of (by decide +kernel)⟩

/-- A frame of 100 clocks that ends in the buffer, one entered with apu_time past its end, one that ends beyond a capacity of 19,
and one whose oscillators cannot be run to the end. -/
theorem witness_apu_end_frame :
    (∃ w1, runTo sounding.soundEnv (max 100 sounding.sound.apuTime) sounding.sound = .ok w1 ∧
      decide (⌊w1.origin + ((100 : Int) : Rat) * sounding.soundEnv.ratio⌋ = 20) = true) ∧
    (∃ w, apuEndFrame { sounding.soundEnv with capacity := 20 } 100 sounding.sound = .ok w ∧
      decide (w.avail = 20 ∧ w.apuTime = 0 ∧ w.voices.map Voice.due = [some 1]) = true) ∧
    (∃ w, apuEndFrame sounding.soundEnv 100 { sounding.sound with apuTime := 102 } = .ok w ∧
      decide (w.avail = 20 ∧ w.apuTime = 2) = true) ∧
    apuEndFrame { sounding.soundEnv with capacity := 19 } 100 sounding.sound = .error .bufferHorizon ∧
    runTo tight.soundEnv (max 100 tight.sound.apuTime) tight.sound = .error .bufferHorizon :=
  ⟨ok_of (by decide +kernel), ok_of (by decide +kernel), ok_of (by decide +kernel), error_of (by decide +kernel),
    error_of (by decide +kernel)⟩

/-- More than is confirmed, all that is confirmed, and two reads one after the other. -/
theorem witness_read_out :
    (freshSound refTone).avail < 1 ∧ 5 ≤ { freshSound refTone with origin := 5, avail := 5 }.avail ∧
    (∃ r, readSamples 1 2 { freshSound refTone with origin := 5, avail := 5 } = .ok r ∧
      (okOf (readSamples 1 3 r.2)).any (fun q => decide (q.1.length = 6)) = true) :=
  ⟨by decide, by decide, ok_of (by decide +kernel)⟩

theorem witness_ref_tone : ∃ env : SoundEnv,
    env = { chip := refTone, kernel := referenceKernel, ratio := 1, capacity := 100 } := ⟨_, rfl⟩

theorem witness_start_track : ∃ t, startTrackSteps bench 255 = .ok t ∧ (t.a == 0xFF) = true := ok_of (by decide +kernel)

/-- A routine entered with the sentinel, S at its wrap; and the sentinel at a boundary past the end clock. -/
theorem witness_sentinel :
    (∃ s', pushSentinel { bench with sp := 0x00 } = .ok s' ∧ (s'.sp == 0xFE) = true) ∧
    ({ bench with pc := 0x5FF6, clock := 100 }.mode ≠ .idle ∧ { bench with pc := 0x5FF6, clock := 100 }.pc = idleAddr) :=
  ⟨ok_of (by decide +kernel), by decide⟩

/-- A play entry on time and one late by a period exactly, an idle advance, a frame's end for the host and for `play`, the
routine's return inside a frame, and init's return. -/
theorem witness_frame_loop :
    (∃ s : State, s.activity = .frame 100 none ∧ s.inRoutine = none ∧ s.clock < 100 ∧ s.mode ≠ .idle ∧ s.nextPlay ≤ s.clock ∧
      ¬(s.nextPlay + s.playPeriod ≤ s.clock)) ∧
    (∃ s : State, s.activity = .frame 100 none ∧ s.inRoutine = none ∧ s.clock < 100 ∧ s.mode ≠ .idle ∧ s.nextPlay ≤ s.clock ∧
      s.nextPlay + s.playPeriod = s.clock) ∧
    (∃ s : State, s.activity = .frame 100 none ∧ s.inRoutine = none ∧ s.clock < 100 ∧ s.mode ≠ .idle ∧
      s.clock < s.nextPlay) ∧
    (∃ s : State, s.activity = .frame 100 none ∧ 100 ≤ s.clock ∧ s.mode ≠ .idle ∧ s.inRoutine = none ∧
      (okOf (apuEndFrame s.soundEnv 100 s.sound)).any (fun w => decide (w.avail = 20)) = true) ∧
    (∃ s : State, s.activity = .frame 100 (some 5) ∧ 100 ≤ s.clock ∧ s.mode ≠ .idle ∧ s.pc ≠ idleAddr ∧
      (okOf (apuEndFrame s.soundEnv 100 s.sound)).any (fun w => decide (w.avail = 20)) = true) ∧
    (∃ s : State, s.activity = .frame 100 none ∧ s.inRoutine ≠ none ∧ s.mode ≠ .idle ∧ s.pc = idleAddr) ∧
    (∃ s : State, s.activity = .initRun ∧ s.mode ≠ .idle ∧ s.pc = idleAddr) ∧
    (∃ s : State, s.activity = .initRun ∧ s.mode ≠ .idle ∧ s.pc ≠ idleAddr ∧ s.params.initLimit = some 100 ∧
      100 ≤ s.clock) :=
  ⟨⟨{ inFrame bench with inRoutine := none, nextPlay := 10, playPeriod := 50, clock := 59 }, by decide +kernel⟩,
    ⟨{ inFrame bench with inRoutine := none, nextPlay := 10, playPeriod := 50, clock := 60 }, by decide +kernel⟩,
    ⟨{ inFrame bench with inRoutine := none, nextPlay := 200 }, by decide +kernel⟩,
    ⟨{ inFrame bench with inRoutine := none, clock := 100 }, by decide +kernel⟩,
    ⟨{ inFrame bench with activity := .frame 100 (some 5), clock := 103 }, by decide +kernel⟩,
    ⟨{ inFrame bench with pc := 0x5FF6 }, by decide +kernel⟩, ⟨{ bench with pc := 0x5FF6 }, by decide +kernel⟩,
    ⟨{ bench with clock := 100, params := { benchParams with initLimit := some 100 } }, by decide +kernel⟩⟩

/-- A state of the invariant, and a step that changes the tempo. -/
theorem witness_tempo : TempoOk bench ∧ (∃ s', step (calling [.setTempo 10]) = .next s' ∧
    decide (s'.tempo = 4 ∧ s'.playPeriod = 12) = true) :=
  ⟨⟨by decide +kernel, by decide +kernel, by decide +kernel⟩, next_of (by decide +kernel)⟩

/-- Each host call, at the edge of the range its clause speaks of. -/
theorem witness_host_answers :
    (∀ calls, (calling calls).activity = .waiting ∧ (calling calls).calls = calls) ∧
    ({ calling [.startTrack 0] with rateSet := false }.rateSet = false) ∧
    (bench.rateSet = true ∧ bench.header.trackCount ≤ 1 ∧ 255 < 256) ∧
    ({ calling [.endFrame 1] with mode := .idle }.mode = .idle) ∧
    ((0 : Int) ≤ 0 ∧ (0 : Int) % 2 = 0 ∧ (-2 : Int) < 0 ∧ (1 : Int) % 2 ≠ 0) ∧
    ((chipOf bench.params.chip).voices ≤ 1 ∧ 0 < (chipOf bench.params.chip).voices) ∧
    (0 < bench.header.trackCount ∧ 255 < { bench.header with trackCount := 256 }.trackCount ∧ bench.mode ≠ .idle) :=
  ⟨fun _ => ⟨rfl, rfl⟩, rfl, by decide, rfl, by decide, by decide, by decide⟩

/-- One sample pair short, and just enough. -/
theorem witness_play_loop :
    (∃ s : State, s.activity = .playLoop 1 ∧ s.sound.avail < 1) ∧
    (∃ s : State, s.activity = .playLoop 1 ∧ 1 ≤ s.sound.avail) :=
  ⟨⟨{ bench with activity := .playLoop 1 }, by decide⟩,
    ⟨{ bench with activity := .playLoop 1, sound := { freshSound refTone with origin := 1, avail := 1 } }, by decide⟩⟩

end Sys2Proof.Tests
end

section
/-! What no step of the block changes: the CPU leaves everything beyond its own registers, the memories, the bank registers,
the warning slot and the APU alone, and the Coordinator leaves the ROM image, the header, the parameters and, but for the first
`set_sample_rate`, the sample rate alone (R39, R72, R365). -/

namespace Sys2Proof.Machine

/-! ## What the CPU cannot write -/

/-- The state with every component blanked that an instruction can write. What is left is the ROM image, the interrupt inputs,
the header, the parameters, the Coordinator and the host's side. -/
def State.beyondCpu (s : State) : State :=
  { s with
    a := 0, x := 0, y := 0, sp := 0, pc := 0
    n := false, v := false, d := false, i := false, z := false, c := false
    clock := 0, corrupt := false, warning := none
    ram := [], sram := [], bank := Vector.replicate 8 0, sound := freshSound refTone, apuLog := [] }

section Shapes

variable {i : Instr} {s s' : State}

theorem readInstr_beyondCpu {src : Source} {f : Byte → State → State} (h : answer (readInstr i src f s) = .next s')
    (hf : ∀ m s, (f m s).beyondCpu = s.beyondCpu) : s'.beyondCpu = s.beyondCpu := by
  obtain ⟨m, w, rfl⟩ := readInstr_frame h
  exact hf m { s with sound := w }

theorem addInstr_beyondCpu {src : Source} {sum : Byte → Byte → Bool → AluOut}
    (h : answer (addInstr i src sum s) = .next s') : s'.beyondCpu = s.beyondCpu := by
  obtain ⟨r, w, rfl⟩ := addInstr_frame h
  rfl

theorem storeInstr_beyondCpu {dst : MemMode} {v : Byte} (h : answer (storeInstr i dst v s) = .next s') :
    s'.beyondCpu = s.beyondCpu := by
  obtain ⟨ram, sram, bank, warning, sound, apuLog, rfl⟩ := storeInstr_frame h
  rfl

theorem rmwInstr_beyondCpu {m : RmwMode} {f : Byte → Byte} {g : Byte → State → State}
    (h : answer (rmwInstr i m f g s) = .next s') (hg : ∀ old s, (g old s).beyondCpu = s.beyondCpu) :
    s'.beyondCpu = s.beyondCpu := by
  obtain ⟨old, ram, sram, bank, warning, sound, apuLog, rfl⟩ := rmwInstr_frame h
  exact hg old _

theorem shiftInstr_beyondCpu {opd : ShiftOperand} {f : Byte → Bool → Byte × Bool}
    (h : answer (shiftInstr i opd f s) = .next s') : s'.beyondCpu = s.beyondCpu := by
  cases opd with
  | acc =>
    cases h
    rfl
  | mem m =>
    rw [shiftInstr] at h
    exact rmwInstr_beyondCpu h fun _ _ => rfl

theorem branchInstr_beyondCpu {cond : Bool} {rel : Byte} (h : answer (branchInstr i cond rel s) = .next s') :
    s'.beyondCpu = s.beyondCpu := by
  obtain ⟨pc, clock, rfl⟩ := branchInstr_frame h
  rfl

end Shapes

/-- No instruction touches anything beyond the CPU: by the shape it shares with others (a read, a store, a read-modify-write, a
branch), or by its exact result. -/
theorem exec_beyondCpu {i : Instr} {s s' : State} (h : exec i s = .next s') : s'.beyondCpu = s.beyondCpu := by
  cases i with
  | lda src | ldx src | ldy src | and src | ora src | eor src | cmp src | cpx src | cpy src | bit m =>
    exact readInstr_beyondCpu h fun _ _ => rfl
  | adc src | sbc src => exact addInstr_beyondCpu h
  | sta dst | stx dst | sty dst => exact storeInstr_beyondCpu h
  | inc m | dec m => exact rmwInstr_beyondCpu h fun _ _ => rfl
  | asl opd | lsr opd | rol opd | ror opd => exact shiftInstr_beyondCpu h
  | bpl rel | bmi rel | bvc rel | bvs rel | bcc rel | bcs rel | bne rel | beq rel => exact branchInstr_beyondCpu h
  | tax | tay | txa | tya | tsx | txs | inx | iny | dex | dey | clc | sec | cli | sei | clv | cld | sed | nop
  | jmpAbs target | illegal op =>
    cases h
    rfl
  | jmpInd ptr =>
    obtain ⟨pc, w, rfl⟩ := execJmpInd_frame h
    rfl
  | pha | php | pla | plp =>
    simp only [exec, execPha, execPhp, execPla, execPlp, push_ok, pull_ok, ok_bind, pure_eq_ok, answer_ok,
      Host.Outcome.next.injEq] at h
    subst h
    rfl
  | jsr target | rts | rti =>
    simp only [exec, execJsr, execRts, execRti, pushWord_ok, pullWord_ok, returnFromInterrupt_ok, ok_bind, pure_eq_ok,
      answer_ok, Host.Outcome.next.injEq] at h
    subst h
    rfl
  | brk =>
    simp only [exec, execBrk, enterInterrupt_ok _ _ _ _ (show 0x8000 ≤ irqVector.toNat by decide)
      (show irqVector.toNat < 0xFFFF by decide), ok_bind, pure_eq_ok, answer_ok, Host.Outcome.next.injEq] at h
    subst h
    rfl

/-- A CPU step, be it an instruction or the wrap no-op, touches nothing beyond the CPU. -/
theorem cpuStep_beyondCpu {s s' : State} {r : StepResult} (h : cpuStep s = .next (r, s')) : s'.beyondCpu = s.beyondCpu := by
  obtain ⟨w, ⟨-, -, rfl⟩ | ⟨i, -, hi, -⟩⟩ := cpuStep_cases h
  · rfl
  · exact (exec_beyondCpu hi).trans rfl

/-- An interrupt entry touches, beyond the CPU, the NMI latch alone. -/
theorem takeInterrupt_beyondCpu {s s' : State} (h : takeInterrupt s = .ok s') :
    s'.beyondCpu = { s.beyondCpu with nmiPending := false } := by
  rw [takeInterrupt_ok] at h
  cases h
  rfl

/-! ## The resident part of the state -/

/-- What stays from the loading of a file on: the image, the header and the parameters, with the host's choice of a sample
rate. -/
structure Resident where
  rom : Memory
  header : Header
  params : Params
  rateSet : Bool
  sampleRate : ℕ+

/-- The resident part of a state. -/
def State.resident (s : State) : Resident := ⟨s.rom, s.header, s.params, s.rateSet, s.sampleRate⟩

theorem State.beyondCpu_resident (s : State) : s.beyondCpu.resident = s.resident := rfl

/-- The resident part lies beyond the CPU. -/
theorem resident_of_beyondCpu {s s' : State} (h : s'.beyondCpu = s.beyondCpu) : s'.resident = s.resident := by
  rw [← s'.beyondCpu_resident, h, s.beyondCpu_resident]

section Turns

variable {s s' : State}

theorem boundary_resident {endClock : Option Int} {r : Option RunResult} (h : boundary endClock s = .next (r, s')) :
    s'.resident = s.resident := by
  obtain ⟨-, ⟨-, -, rfl⟩ | ⟨-, -, -, rfl⟩ | ⟨-, -, -, -, hi⟩ | ⟨-, -, -, sr, hs, -⟩⟩ := boundary_cases h
  · rfl
  · rfl
  · rw [← s'.beyondCpu_resident, takeInterrupt_beyondCpu hi]
    rfl
  · exact resident_of_beyondCpu (cpuStep_beyondCpu hs)

theorem initTurn_resident (h : initTurn s = .next s') : s'.resident = s.resident := by
  obtain ⟨r, s1, hb, ⟨-, rfl⟩ | ⟨-, rfl⟩ | ⟨-, -, rfl⟩⟩ := initTurn_cases h
  all_goals
    have hk := boundary_resident hb
    exact hk

theorem playEntry_resident (h : playEntry s = .ok s') : s'.resident = s.resident := by
  unfold playEntry at h
  split at h
  · cases h
  · simp only [pushSentinel_ok, ok_bind, pure_eq_ok, Except.ok.injEq] at h
    subst h
    rfl

theorem rebase_resident {length : ℕ+} (h : rebase s length = .ok s') : s'.resident = s.resident := by
  simp only [rebase, bind_eq_ok, pure_eq_ok, Except.ok.injEq] at h
  obtain ⟨w, -, rfl⟩ := h
  rfl

theorem leaveFrame_resident {length : ℕ+} {need : Option Nat} (h : leaveFrame s length need = .ok s') :
    s'.resident = s.resident := by
  simp only [leaveFrame, bind_eq_ok] at h
  obtain ⟨s1, h1, h⟩ := h
  have hk := rebase_resident h1
  cases need <;> cases h <;> exact hk

theorem frameTurn_resident {length : ℕ+} {need : Option Nat} (h : frameTurn s length need = .next s') :
    s'.resident = s.resident := by
  obtain ⟨-, ⟨-, hl⟩ | ⟨-, -, hp⟩ | ⟨-, -, rfl⟩⟩ | ⟨-, r, s1, hb, ⟨-, hl⟩ | ⟨-, rfl⟩ | ⟨-, -, rfl⟩⟩ := frameTurn_cases h
  · exact leaveFrame_resident hl
  · exact playEntry_resident hp
  · rfl
  · exact (leaveFrame_resident hl).trans (boundary_resident hb)
  · have hk := boundary_resident hb
    exact hk
  · exact boundary_resident hb

theorem playTurn_resident {need : Nat} (h : playTurn s need = .ok s') : s'.resident = s.resident := by
  unfold playTurn at h
  split at h
  · cases h
    rfl
  · simp only [bind_eq_ok, pure_eq_ok, Except.ok.injEq, Prod.exists] at h
    obtain ⟨pcm, w, -, rfl⟩ := h
    rfl

end Turns

/-! ## The host calls -/

theorem startTrack_resident {s s' : State} {n : Nat} (h : startTrack s n = .ok s') : s'.resident = s.resident := by
  unfold startTrack startTrackSteps at h
  split at h
  · cases h
    rfl
  · split at h
    · cases h
      rfl
    · simp only [pushSentinel_ok, ok_bind, pure_eq_ok, Except.ok.injEq] at h
      subst h
      rfl

theorem endFrame_resident (s : State) (length : ℕ+) : (endFrame s length).resident = s.resident := by
  unfold endFrame
  split <;> rfl

theorem play_resident (s : State) (count : Int) : (play s count).resident = s.resident := by
  unfold play
  split
  · rfl
  · split <;> rfl

theorem muteVoice_resident (s : State) (i : Nat) (on : Bool) : (muteVoice s i on).resident = s.resident := by
  unfold muteVoice
  split <;> rfl

/-- Only the first `set_sample_rate` takes effect; a later one is misuse (R365). -/
theorem setSampleRate_resident (s : State) (rate : ℕ+) :
    (setSampleRate s rate).resident =
      if s.rateSet then s.resident else { s.resident with rateSet := true, sampleRate := rate } := by
  unfold setSampleRate
  split <;> rfl

/-- A host call leaves the resident part as it is, or it is the first `set_sample_rate`. -/
theorem hostCall_resident {s s' : State} {call : HostCall} (h : hostCall s call = .ok s') :
    s'.resident = s.resident ∨
      ∃ rate, call = .setSampleRate rate ∧ s.rateSet = false ∧
        s'.resident = { s.resident with rateSet := true, sampleRate := rate } := by
  cases call with
  | setSampleRate rate =>
    cases h
    rw [setSampleRate_resident]
    cases hr : s.rateSet with
    | true => exact .inl rfl
    | false => exact .inr ⟨rate, rfl, rfl, rfl⟩
  | startTrack n => exact .inl (startTrack_resident h)
  | endFrame length =>
    cases h
    exact .inl (endFrame_resident s length)
  | play count =>
    cases h
    exact .inl (play_resident s count)
  | setTempo t =>
    cases h
    exact .inl rfl
  | muteVoice i on =>
    cases h
    exact .inl (muteVoice_resident s i on)
  | warning =>
    cases h
    exact .inl rfl

/-- A step of the block leaves the resident part as it is, or it takes the first `set_sample_rate`. -/
theorem step_resident {s s' : State} (h : step s = .next s') :
    s'.resident = s.resident ∨
      ∃ rate rest, s.activity = .waiting ∧ s.calls = .setSampleRate rate :: rest ∧ s.rateSet = false ∧
        s'.resident = { s.resident with rateSet := true, sampleRate := rate } := by
  obtain ⟨-, -, rfl⟩ | ⟨ha, call, rest, hc, hh⟩ | ⟨-, hi⟩ | ⟨length, need, -, hf⟩ | ⟨need, -, hp⟩ := step_cases h
  · exact .inl rfl
  · obtain hk | ⟨rate, rfl, hr, hs⟩ := hostCall_resident hh
    · exact .inl hk
    · exact .inr ⟨rate, rest, ha, hc, hr, hs⟩
  · exact .inl (initTurn_resident hi)
  · exact .inl (frameTurn_resident hf)
  · exact .inl (playTurn_resident hp)

/-- Settles O23: read off the two cases of `step_resident`, field by field. -/
theorem residentImageKept : Obligations.ResidentImageKept := by
  intro s s' h
  obtain hk | ⟨rate, rest, ha, hc, hr, hs⟩ := step_resident h
  · have hrate : s'.sampleRate = s.sampleRate := congrArg Resident.sampleRate hk
    have hset : s'.rateSet = s.rateSet := congrArg Resident.rateSet hk
    exact ⟨congrArg Resident.rom hk, congrArg Resident.header hk, congrArg Resident.params hk, hset.trans,
      fun hne => absurd hrate hne⟩
  · exact ⟨congrArg Resident.rom hs, congrArg Resident.header hs, congrArg Resident.params hs,
      fun _ => congrArg Resident.rateSet hs, fun _ => ⟨rate, rest, ha, hc, hr, congrArg Resident.sampleRate hs⟩⟩

end Sys2Proof.Machine
end

section
/-! What executing an instruction consists of, said once for every instruction: reads from the addresses `readFrom` names, writes
to those `storedTo` names, and changes of the registers and flags its rules let it write; an illegal opcode's no-op stands for
itself. -/

namespace Sys2Proof.Machine

/-! ## The registers and flags an instruction leaves alone -/

/-- The state with PC, the clock and the registers and flags blanked that the rules let instruction `i` write (R30,
R172-R262). -/
def State.unwritten (i : Instr) (s : State) : State :=
  { s with
    a := if writesA i then 0 else s.a, x := if writesX i then 0 else s.x, y := if writesY i then 0 else s.y
    sp := if writesS i then 0 else s.sp, n := if writesNZ i then false else s.n, v := if writesV i then false else s.v
    d := if writesD i then false else s.d, i := if writesI i then false else s.i, z := if writesNZ i then false else s.z
    c := if writesC i then false else s.c, pc := 0, clock := 0 }

theorem State.unwritten_sp {i : Instr} (h : writesS i = true) (s : State) (sp : Byte) :
    { s with sp := sp }.unwritten i = s.unwritten i := by
  simp [State.unwritten, h]

/-! ## Execution as a path of accesses and updates -/

/-- The states that executing `i` from `s` can pass through and end in. -/
inductive ExecPath (i : Instr) (s : State) : State → Prop where
  | start : ExecPath i s s
  /-- A data read (R62, R171). -/
  | read {s1 s2 : State} {a : Addr} {t : Int} {v : Byte} (p : ExecPath i s s1) (ha : a ∈ readFrom s i)
      (h : memRead s1 a t = .ok (v, s2)) : ExecPath i s s2
  /-- A data write (R63). -/
  | write {s1 s2 : State} {a : Addr} {t : Int} {v : Byte} (p : ExecPath i s s1) (ha : a ∈ storedTo s i)
      (h : memWrite s1 a v t = .ok s2) : ExecPath i s s2
  /-- A change of what the instruction's rules write; the clock moves on or stands. -/
  | update {s1 s2 : State} (p : ExecPath i s s1) (h : s2.unwritten i = s1.unwritten i) (hc : s1.clock ≤ s2.clock) :
      ExecPath i s s2
  /-- The no-op of an illegal opcode (R137). -/
  | noop (h : isIllegal i = true) : ExecPath i s (corruptionNoop s .illegalOpcode)

section Shapes

variable {i : Instr} {s s' : State}

theorem le_clock_add (s : State) (cost : Nat) : s.clock ≤ s.clock + cost := by omega

theorem operand_path {src : Source} {t : Int} {m : Byte} {s1 : State} (h : operand s src t = .ok (m, s1))
    (hr : ∀ mode, src = .mem mode → (effAddr s mode).addr ∈ readFrom s i) : ExecPath i s s1 := by
  cases src with
  | imm v =>
    cases h
    exact .start
  | mem mode => exact .read .start (hr mode rfl) h

theorem readInstr_path {src : Source} {f : Byte → State → State} (h : readInstr i src f s = .ok s')
    (hr : ∀ mode, src = .mem mode → (effAddr s mode).addr ∈ readFrom s i)
    (hf : ∀ m s1, (f m s1).unwritten i = s1.unwritten i) (hc : ∀ m s1, (f m s1).clock = s1.clock) : ExecPath i s s' := by
  obtain ⟨m, s1, h1, rfl⟩ := readInstr_cases h
  refine .update (operand_path h1 hr) (hf m s1) ?_
  rw [← hc m s1]
  exact le_clock_add _ _

theorem addInstr_path {src : Source} {sum : Byte → Byte → Bool → AluOut} (h : addInstr i src sum s = .ok s')
    (hr : ∀ mode, src = .mem mode → (effAddr s mode).addr ∈ readFrom s i)
    (hf : ∀ (r : AluOut) (s1 : State),
      ({ s1 with a := r.value, c := r.carry, v := r.overflow }.setNZ r.value).unwritten i = s1.unwritten i) :
    ExecPath i s s' := by
  unfold addInstr at h
  split at h
  · cases h
  · exact readInstr_path h hr (fun m s1 => hf (sum s1.a m s1.c) s1) fun _ _ => rfl

theorem storeInstr_path {dst : MemMode} {v : Byte} (h : storeInstr i dst v s = .ok s')
    (hw : (effAddr s dst).addr ∈ storedTo s i) : ExecPath i s s' := by
  obtain ⟨s1, h1, rfl⟩ := storeInstr_cases h
  exact .update (.write .start hw h1) rfl (le_clock_add _ _)

theorem rmwInstr_path {m : RmwMode} {f : Byte → Byte} {g : Byte → State → State} (h : rmwInstr i m f g s = .ok s')
    (hr : rmwAddr s m ∈ readFrom s i) (hw : rmwAddr s m ∈ storedTo s i)
    (hg : ∀ old s1, (g old s1).unwritten i = s1.unwritten i) (hc : ∀ old s1, (g old s1).clock = s1.clock) :
    ExecPath i s s' := by
  obtain ⟨old, s1, s2, h1, h2, rfl⟩ := rmwInstr_cases h
  refine .update (.write (.read .start hr h1) hw h2) (hg old s2) ?_
  rw [← hc old s2]
  exact le_clock_add _ _

theorem branchInstr_path {cond : Bool} {rel : Byte} (h : branchInstr i cond rel s = .ok s') : ExecPath i s s' := by
  unfold branchInstr at h
  split at h
  all_goals
    cases h
    exact .update .start rfl (le_clock_add s _)

theorem shiftInstr_path {mk : ShiftOperand → Instr} {opd : ShiftOperand} {f : Byte → Bool → Byte × Bool}
    (h : shiftInstr (mk opd) opd f s = .ok s')
    (hacc : ∀ r : Byte × Bool, (shiftFlags r { s with a := r.1 }).unwritten (mk .acc) = s.unwritten (mk .acc))
    (hmem : ∀ m (r : Byte × Bool) s1, (shiftFlags r s1).unwritten (mk (.mem m)) = s1.unwritten (mk (.mem m)))
    (hr : ∀ m, readFrom s (mk (.mem m)) = [rmwAddr s m]) (hw : ∀ m, storedTo s (mk (.mem m)) = [rmwAddr s m]) :
    ExecPath (mk opd) s s' := by
  cases opd with
  | acc =>
    cases h
    exact .update .start (hacc (f s.a s.c)) (le_clock_add s _)
  | mem m =>
    rw [shiftInstr] at h
    exact rmwInstr_path h (by simp [hr m]) (by simp [hw m]) (fun old s1 => hmem m (f old s.c) s1) fun _ _ => rfl

/-! ## Pushes and pulls on a path -/

theorem push_path {s1 s2 : State} {v : Byte} {t : Int} (p : ExecPath i s s1) (hS : writesS i = true)
    (hw : stackAddr s1.sp ∈ storedTo s i) (h : push s1 v t = .ok s2) : ExecPath i s s2 ∧ s2.sp = s1.sp - 1 := by
  refine ⟨?_, by rw [push_ok] at h; cases h; rfl⟩
  simp only [push, bind_eq_ok, pure_eq_ok, Except.ok.injEq] at h
  obtain ⟨s3, h3, rfl⟩ := h
  exact .update (.write p hw h3) (State.unwritten_sp hS s3 _) le_rfl

theorem pull_path {s1 s2 : State} {v : Byte} {t : Int} (p : ExecPath i s s1) (hS : writesS i = true)
    (hr : stackAddr (s1.sp + 1) ∈ readFrom s i) (h : pull s1 t = .ok (v, s2)) : ExecPath i s s2 ∧ s2.sp = s1.sp + 1 := by
  refine ⟨?_, by rw [pull_ok] at h; cases h; rfl⟩
  have p1 : ExecPath i s { s1 with sp := s1.sp + 1 } := .update p (State.unwritten_sp hS s1 _) le_rfl
  exact .read p1 hr h

theorem pushWord_path {s1 s2 : State} {a : Addr} {t : Int} (p : ExecPath i s s1) (hS : writesS i = true)
    (hw : stackAddr s1.sp ∈ storedTo s i) (hw' : stackAddr (s1.sp - 1) ∈ storedTo s i)
    (h : pushWord s1 a t = .ok s2) : ExecPath i s s2 ∧ s2.sp = s1.sp - 2 := by
  simp only [pushWord, bind_eq_ok] at h
  obtain ⟨s3, h3, h4⟩ := h
  obtain ⟨p3, e3⟩ := push_path p hS hw h3
  obtain ⟨p4, e4⟩ := push_path p3 hS (e3 ▸ hw') h4
  exact ⟨p4, by rw [e4, e3]; bv_omega⟩

theorem pullWord_path {s1 s2 : State} {a : Addr} {t : Int} (p : ExecPath i s s1) (hS : writesS i = true)
    (hr : stackAddr (s1.sp + 1) ∈ readFrom s i) (hr' : stackAddr (s1.sp + 2) ∈ readFrom s i)
    (h : pullWord s1 t = .ok (a, s2)) : ExecPath i s s2 := by
  simp only [pullWord, bind_eq_ok, Prod.exists, pure_eq_ok, Except.ok.injEq, Prod.mk.injEq] at h
  obtain ⟨lo, s3, h3, hi, s4, h4, -, rfl⟩ := h
  obtain ⟨p3, e3⟩ := pull_path p hS hr h3
  have h2 : s3.sp + 1 = s1.sp + 2 := by rw [e3]; bv_omega
  exact (pull_path p3 hS (h2 ▸ hr') h4).1

theorem memReadPair_path {s1 s2 : State} {aLo aHi a : Addr} {t : Int} (p : ExecPath i s s1) (hl : aLo ∈ readFrom s i)
    (hh : aHi ∈ readFrom s i) (h : memReadPair s1 aLo aHi t = .ok (a, s2)) : ExecPath i s s2 := by
  simp only [memReadPair, bind_eq_ok, Prod.exists, pure_eq_ok, Except.ok.injEq, Prod.mk.injEq] at h
  obtain ⟨lo, s3, h3, hi, s4, h4, -, rfl⟩ := h
  exact .read (.read p hl h3) hh h4

end Shapes

/-! ## The instructions that do not share a shape -/

theorem storedTo_jsr (s : State) (target : Addr) :
    storedTo s (.jsr target) = [stackAddr s.sp, stackAddr (s.sp - 1)] := rfl

theorem storedTo_brk (s : State) :
    storedTo s .brk = [stackAddr s.sp, stackAddr (s.sp - 1), stackAddr (s.sp - 2)] := rfl

theorem readFrom_jmpInd (s : State) (ptr : Addr) : readFrom s (.jmpInd ptr) = [ptr, jmpIndHigh ptr] := rfl

theorem readFrom_rts (s : State) : readFrom s .rts = [stackAddr (s.sp + 1), stackAddr (s.sp + 2)] := rfl

theorem readFrom_rti (s : State) :
    readFrom s .rti = [stackAddr (s.sp + 1), stackAddr (s.sp + 2), stackAddr (s.sp + 3)] := rfl

theorem readFrom_brk (s : State) : readFrom s .brk = [irqVector, irqVector + 1] := rfl

section Single

variable {s s' : State}

theorem execJmpInd_path {ptr : Addr} (h : execJmpInd ptr s = .next s') : ExecPath (.jmpInd ptr) s s' := by
  simp only [execJmpInd, answer_eq_next, bind_eq_ok, Prod.exists, pure_eq_ok, Except.ok.injEq] at h
  obtain ⟨pc, s1, h1, rfl⟩ := h
  have p1 : ExecPath (.jmpInd ptr) s s1 :=
    memReadPair_path .start (by simp [readFrom_jmpInd]) (by simp [readFrom_jmpInd]) h1
  exact .update p1 rfl (le_clock_add s1 _)

theorem execJsr_path {target : Addr} (h : execJsr target s = .next s') : ExecPath (.jsr target) s s' := by
  simp only [execJsr, answer_eq_next, bind_eq_ok, pure_eq_ok, Except.ok.injEq] at h
  obtain ⟨s1, h1, rfl⟩ := h
  obtain ⟨p1, -⟩ := pushWord_path (i := .jsr target) .start rfl (by simp [storedTo_jsr]) (by simp [storedTo_jsr]) h1
  exact .update p1 rfl (le_clock_add s1 _)

theorem execRts_path (h : execRts s = .next s') : ExecPath .rts s s' := by
  simp only [execRts, answer_eq_next, bind_eq_ok, Prod.exists, pure_eq_ok, Except.ok.injEq] at h
  obtain ⟨ret, s1, h1, rfl⟩ := h
  have p1 : ExecPath .rts s s1 := pullWord_path .start rfl (by simp [readFrom_rts]) (by simp [readFrom_rts]) h1
  exact .update p1 rfl (le_clock_add s1 _)

theorem execRti_path (h : execRti s = .next s') : ExecPath .rti s s' := by
  simp only [execRti, returnFromInterrupt, answer_eq_next, bind_eq_ok, Prod.exists, pure_eq_ok, Except.ok.injEq] at h
  obtain ⟨s3, ⟨p, s1, h1, pc, s2, h2, rfl⟩, rfl⟩ := h
  obtain ⟨p1, e1⟩ := pull_path (i := .rti) .start rfl (by simp [readFrom_rti]) h1
  have p1' : ExecPath .rti s (s1.unpackP p) := .update p1 rfl le_rfl
  have p2 := pullWord_path p1' rfl (by simp [readFrom_rti, e1, BitVec.add_assoc])
    (by simp [readFrom_rti, e1, BitVec.add_assoc]) h2
  exact .update p2 rfl (le_clock_add s2 _)

theorem execBrk_path (h : execBrk s = .next s') : ExecPath .brk s s' := by
  simp only [execBrk, enterInterrupt, memRead16, answer_eq_next, bind_eq_ok, Prod.exists, pure_eq_ok, Except.ok.injEq] at h
  obtain ⟨s4, ⟨s1, h1, s2, h2, pc, s3, h3, rfl⟩, rfl⟩ := h
  obtain ⟨p1, e1⟩ := pushWord_path (i := .brk) .start rfl (by simp [storedTo_brk]) (by simp [storedTo_brk]) h1
  obtain ⟨p2, -⟩ := push_path p1 rfl (by simp [storedTo_brk, e1]) h2
  have p2' : ExecPath .brk s { s2 with i := true } := .update p2 rfl le_rfl
  have p3 := memReadPair_path p2' (by simp [readFrom_brk]) (by simp [readFrom_brk]) h3
  exact .update p3 rfl (le_clock_add s3 _)

end Single

/-- Every instruction is a path of its own accesses and updates. -/
theorem exec_path {i : Instr} {s s' : State} (h : exec i s = .next s') : ExecPath i s s' := by
  cases i with
  | lda src | ldx src | ldy src | and src | ora src | eor src | cmp src | cpx src | cpy src =>
    refine readInstr_path (answer_eq_next.1 h) ?_ (fun _ _ => rfl) fun _ _ => rfl
    rintro mode rfl
    exact List.mem_singleton_self _
  | bit m =>
    refine readInstr_path (answer_eq_next.1 h) ?_ (fun _ _ => rfl) fun _ _ => rfl
    rintro mode ⟨⟩
    exact List.mem_singleton_self _
  | adc src | sbc src =>
    refine addInstr_path (answer_eq_next.1 h) ?_ fun _ _ => rfl
    rintro mode rfl
    exact List.mem_singleton_self _
  | sta dst | stx dst | sty dst => exact storeInstr_path (answer_eq_next.1 h) (List.mem_singleton_self _)
  | inc m | dec m =>
    exact rmwInstr_path (answer_eq_next.1 h) (List.mem_singleton_self _) (List.mem_singleton_self _) (fun _ _ => rfl)
      fun _ _ => rfl
  | asl opd | lsr opd | rol opd | ror opd =>
    exact shiftInstr_path (answer_eq_next.1 h) (fun _ => rfl) (fun _ _ _ => rfl) (fun _ => rfl) fun _ => rfl
  | bpl rel | bmi rel | bvc rel | bvs rel | bcc rel | bcs rel | bne rel | beq rel =>
    exact branchInstr_path (answer_eq_next.1 h)
  | tax | tay | txa | tya | tsx | txs | inx | iny | dex | dey | clc | sec | cli | sei | clv | cld | sed | nop
  | jmpAbs target =>
    cases h
    exact .update .start rfl (le_clock_add s _)
  | illegal op =>
    cases h
    exact .noop rfl
  | jmpInd ptr => exact execJmpInd_path h
  | jsr target => exact execJsr_path h
  | rts => exact execRts_path h
  | rti => exact execRti_path h
  | brk => exact execBrk_path h
  | pha | php =>
    simp only [exec, execPha, execPhp, answer_eq_next, bind_eq_ok, pure_eq_ok, Except.ok.injEq] at h
    obtain ⟨s1, h1, rfl⟩ := h
    exact .update (push_path .start rfl (List.mem_singleton_self _) h1).1 rfl (le_clock_add s1 _)
  | pla | plp =>
    simp only [exec, execPla, execPlp, answer_eq_next, bind_eq_ok, Prod.exists, pure_eq_ok, Except.ok.injEq] at h
    obtain ⟨m, s1, h1, rfl⟩ := h
    exact .update (pull_path .start rfl (List.mem_singleton_self _) h1).1 rfl (le_clock_add s1 _)

/-- A component that no access and no update on the path changes is the same at its end. -/
theorem ExecPath.keeps {β : Type} (f : State → β) {i : Instr} {s s' : State} (p : ExecPath i s s')
    (hread : ∀ {s1 s2 : State} {a : Addr} {t : Int} {v : Byte}, a ∈ readFrom s i → memRead s1 a t = .ok (v, s2) →
      f s2 = f s1)
    (hwrite : ∀ {s1 s2 : State} {a : Addr} {t : Int} {v : Byte}, a ∈ storedTo s i → memWrite s1 a v t = .ok s2 →
      f s2 = f s1)
    (hupdate : ∀ {s1 s2 : State}, s2.unwritten i = s1.unwritten i → f s2 = f s1)
    (hnoop : isIllegal i = true → f (corruptionNoop s .illegalOpcode) = f s) : f s' = f s := by
  induction p with
  | start => rfl
  | read _ ha h ih => exact (hread ha h).trans ih
  | write _ ha h ih => exact (hwrite ha h).trans ih
  | update _ h _ ih => exact (hupdate h).trans ih
  | noop h => exact hnoop h

end Sys2Proof.Machine
end

section
/-! The frames of the instructions, read off their paths: which flags and registers can change, and through which addresses the
APU, the bank registers and the warning slot can be reached. -/

namespace Sys2Proof.Machine

/-! ## Flags and registers -/

/-- A, X, Y, S and the six flags. -/
structure Registers where
  a : Byte
  x : Byte
  y : Byte
  sp : Byte
  n : Bool
  v : Bool
  d : Bool
  i : Bool
  z : Bool
  c : Bool

/-- The registers and flags of a state. -/
def State.registers (s : State) : Registers := ⟨s.a, s.x, s.y, s.sp, s.n, s.v, s.d, s.i, s.z, s.c⟩

/-- No instruction changes a register or a flag that its rules do not let it write. -/
theorem exec_registers {i : Instr} {s s' : State} (h : exec i s = .next s') :
    (s'.unwritten i).registers = (s.unwritten i).registers := by
  refine (exec_path h).keeps (fun s1 => (s1.unwritten i).registers) (fun _ hr => ?_) (fun _ hw => ?_)
    (congrArg State.registers) fun _ => rfl
  · rw [memRead_frame hr]
    rfl
  · rw [memWrite_frame hw]
    rfl

/-- Settles O42: each flag is one that `unwritten` keeps where R30's table has no entry. -/
theorem flagFrame : Obligations.FlagFrame := by
  intro i s s' h
  have hk := exec_registers h
  refine ⟨fun hi => ⟨?_, ?_⟩, fun hi => ?_, fun hi => ?_, fun hi => ?_, fun hi => ?_⟩
  · simpa [State.registers, State.unwritten, hi] using congrArg Registers.n hk
  · simpa [State.registers, State.unwritten, hi] using congrArg Registers.z hk
  · simpa [State.registers, State.unwritten, hi] using congrArg Registers.v hk
  · simpa [State.registers, State.unwritten, hi] using congrArg Registers.d hk
  · simpa [State.registers, State.unwritten, hi] using congrArg Registers.i hk
  · simpa [State.registers, State.unwritten, hi] using congrArg Registers.c hk

/-- Settles O43: each register is one that `unwritten` keeps where no rule of the instruction writes it. -/
theorem registerFrame : Obligations.RegisterFrame := by
  intro i s s' h
  have hk := exec_registers h
  refine ⟨fun hi => ?_, fun hi => ?_, fun hi => ?_, fun hi => ?_⟩
  · simpa [State.registers, State.unwritten, hi] using congrArg Registers.a hk
  · simpa [State.registers, State.unwritten, hi] using congrArg Registers.x hk
  · simpa [State.registers, State.unwritten, hi] using congrArg Registers.y hk
  · simpa [State.registers, State.unwritten, hi] using congrArg Registers.sp hk

/-! ## Devices -/

/-- A write outside the sound chip's window leaves the APU and its record alone (R73). -/
theorem memWrite_sound {s s1 : State} {a : Addr} {t : Int} {v : Byte} (h : memWrite s a v t = .ok s1)
    (ha : isApuWrite a = false) : s1.sound = s.sound ∧ s1.apuLog = s.apuLog := by
  obtain ⟨-, rfl⟩ | ⟨-, -, rfl⟩ | ⟨ha', -⟩ | ⟨-, rfl⟩ | ⟨-, -, -, -, rfl⟩ := memWrite_cases h
  · exact ⟨rfl, rfl⟩
  · exact ⟨rfl, rfl⟩
  · rw [ha] at ha'
    cases ha'
  · unfold writeBank
    split <;> exact ⟨rfl, rfl⟩
  · exact ⟨rfl, rfl⟩

/-- A write to no bank register leaves the bank registers and the warning slot alone (R70). -/
theorem memWrite_bank {s s1 : State} {a : Addr} {t : Int} {v : Byte} (h : memWrite s a v t = .ok s1)
    (ha : isBankRegister a = false) : s1.bank = s.bank ∧ s1.warning = s.warning := by
  obtain ⟨-, rfl⟩ | ⟨-, -, rfl⟩ | ⟨-, w, -, rfl⟩ | ⟨ha', -⟩ | ⟨-, -, -, -, rfl⟩ := memWrite_cases h
  · exact ⟨rfl, rfl⟩
  · exact ⟨rfl, rfl⟩
  · exact ⟨rfl, rfl⟩
  · rw [ha] at ha'
    cases ha'
  · exact ⟨rfl, rfl⟩

section Devices

variable {i : Instr} {s s' : State}

theorem exec_apuLog (h : exec i s = .next s') (hw : ∀ a ∈ storedTo s i, isApuWrite a = false) : s'.apuLog = s.apuLog := by
  refine (exec_path h).keeps State.apuLog (fun _ hr => ?_) (fun ha h1 => (memWrite_sound h1 (hw _ ha)).2)
    (congrArg State.apuLog) fun _ => rfl
  rw [memRead_frame hr]

theorem exec_sound (h : exec i s = .next s') (hw : ∀ a ∈ storedTo s i, isApuWrite a = false)
    (hr : ∀ a ∈ readFrom s i, a ≠ apuStatusAddr) : s'.sound = s.sound := by
  refine (exec_path h).keeps State.sound (fun ha h1 => ?_) (fun ha h1 => (memWrite_sound h1 (hw _ ha)).1)
    (congrArg State.sound) fun _ => rfl
  rw [memRead_quiet _ _ (hr _ ha)] at h1
  cases h1
  rfl

theorem exec_bank (h : exec i s = .next s') (hw : ∀ a ∈ storedTo s i, isBankRegister a = false) : s'.bank = s.bank := by
  refine (exec_path h).keeps State.bank (fun _ hr => ?_) (fun ha h1 => (memWrite_bank h1 (hw _ ha)).1)
    (congrArg State.bank) fun _ => rfl
  rw [memRead_frame hr]

theorem exec_warning (h : exec i s = .next s') (hw : ∀ a ∈ storedTo s i, isBankRegister a = false)
    (hi : isIllegal i = false) : s'.warning = s.warning := by
  refine (exec_path h).keeps State.warning (fun _ hr => ?_) (fun ha h1 => (memWrite_bank h1 (hw _ ha)).2)
    (congrArg State.warning) fun hi' => ?_
  · rw [memRead_frame hr]
  · rw [hi] at hi'
    cases hi'

/-- Only the no-op of an illegal opcode touches `corrupt` (R33, R137). -/
theorem exec_corrupt (h : exec i s = .next s') : s'.corrupt = (s.corrupt || isIllegal i) := by
  cases hi : isIllegal i with
  | true =>
    cases i <;> cases hi
    cases h
    exact (Bool.or_true _).symm
  | false =>
    rw [Bool.or_false]
    refine (exec_path h).keeps State.corrupt (fun _ hr => ?_) (fun _ hw => ?_) (congrArg State.corrupt) fun hi' => ?_
    · rw [memRead_frame hr]
    · rw [memWrite_frame hw]
    · rw [hi] at hi'
      cases hi'

end Devices

/-- Settles O45: the devices by the accesses on the instruction's path, and everything else because it lies beyond the CPU. -/
theorem deviceFrame : Obligations.DeviceFrame := by
  intro i s s' h
  have beyond {β : Type} (f : State → β) : f s'.beyondCpu = f s.beyondCpu := congrArg f (exec_beyondCpu h)
  refine ⟨fun hw => ⟨exec_apuLog h hw, exec_sound h hw⟩, fun hw => ⟨exec_bank h hw, exec_warning h hw⟩,
    fun hi => by rw [exec_corrupt h, hi, Bool.or_false], ?_⟩
  exact ⟨beyond State.mode, beyond State.inRoutine, beyond State.nextPlay, beyond State.playPeriod, beyond State.tempo,
    beyond State.mute, beyond State.track, beyond State.rateSet, beyond State.sampleRate, beyond State.header,
    beyond State.params, beyond State.irqLine, beyond State.nmiPending, beyond State.activity, beyond State.calls,
    beyond State.answers⟩

end Sys2Proof.Machine
end

section
/-! What a step does to the CPU and its memories: one inversion of the step into the six things that can happen to them, and what
follows for the byte arrays, the clock and `corrupt` (R32, R33, R38, R39, R358), with the invariants at reset (R44). -/

namespace Sys2Proof.Machine

/-! ## The turns of the block -/

/-- The clock, `corrupt` and the byte arrays with the header that bounds the ROM: the CPU's side of a step. -/
structure CpuSide where
  clock : Int
  corrupt : Bool
  ram : Memory
  sram : Memory
  rom : Memory
  header : Header

/-- The CPU's side of a state. -/
def State.cpuSide (s : State) : CpuSide := ⟨s.clock, s.corrupt, s.ram, s.sram, s.rom, s.header⟩

/-- What a step can do to the CPU and its memories. -/
inductive BlockTurn (s : State) : State → Prop where
  /-- Nothing: the step is the Coordinator's or the host's alone. -/
  | still {s' : State} (h : s'.cpuSide = s.cpuSide) : BlockTurn s s'
  /-- A turn of the run loop, whose result the Coordinator takes note of (R131, R354, R355). -/
  | boundary {endClock : Option Int} {r : Option RunResult} {s1 s' : State} (hb : boundary endClock s = .next (r, s1))
      (h : s'.cpuSide = s1.cpuSide) : BlockTurn s s'
  /-- The end of a frame (R355, R358). -/
  | leaveFrame {length : ℕ+} {need : Option Nat} {s' : State} (ha : s.activity = .frame length need)
      (h : leaveFrame s length need = .ok s') : BlockTurn s s'
  /-- A play entry (R357). -/
  | playEntry {s' : State} (h : playEntry s = .ok s') : BlockTurn s s'
  /-- The idle advance (R356). -/
  | idleAdvance {length : ℕ+} (hc : s.clock < ((length : Nat) : Int)) (hn : s.clock < s.nextPlay) :
      BlockTurn s (idleAdvance s length)
  /-- `start_track` (R352). -/
  | startTrack {n : Nat} {rest : List HostCall} {s1 s' : State} (ha : s.activity = .waiting)
      (hc : s.calls = .startTrack n :: rest) (hs : startTrackSteps { s with calls := rest } n = .ok s1)
      (h : s'.cpuSide = s1.cpuSide) : BlockTurn s s'

section Inversion

variable {s s' : State}

/-- A run that is over because the end clock is reached has done nothing in this turn (R131). -/
theorem boundary_reached {endClock : Option Int} (h : boundary endClock s = .next (some .reached, s')) : s' = s := by
  obtain ⟨-, ⟨-, hr, -⟩ | ⟨-, -, -, hs⟩ | ⟨-, -, -, hr, -⟩ | ⟨-, -, -, sr, -, hr⟩⟩ := boundary_cases h
  · cases hr
  · exact hs
  · cases hr
  · cases sr <;> cases hr

theorem initTurn_turn (h : initTurn s = .next s') : BlockTurn s s' := by
  obtain ⟨r, s1, hb, ⟨-, rfl⟩ | ⟨-, rfl⟩ | ⟨-, -, rfl⟩⟩ := initTurn_cases h
  all_goals exact .boundary hb rfl

theorem frameTurn_turn {length : ℕ+} {need : Option Nat} (ha : s.activity = .frame length need)
    (h : frameTurn s length need = .next s') : BlockTurn s s' := by
  obtain ⟨-, ⟨-, hl⟩ | ⟨-, -, hp⟩ | ⟨hc, hn, rfl⟩⟩ | ⟨-, r, s1, hb, ⟨rfl, hl⟩ | ⟨-, rfl⟩ | ⟨-, -, rfl⟩⟩ := frameTurn_cases h
  · exact .leaveFrame ha hl
  · exact .playEntry hp
  · exact .idleAdvance hc hn
  · rw [boundary_reached hb] at hl
    exact .leaveFrame ha hl
  · exact .boundary hb rfl
  · exact .boundary hb rfl

theorem playTurn_cpuSide {need : Nat} (h : playTurn s need = .ok s') : s'.cpuSide = s.cpuSide := by
  unfold playTurn at h
  split at h
  · cases h
    rfl
  · simp only [bind_eq_ok, pure_eq_ok, Except.ok.injEq, Prod.exists] at h
    obtain ⟨pcm, w, -, rfl⟩ := h
    rfl

theorem setSampleRate_cpuSide (s : State) (rate : ℕ+) : (setSampleRate s rate).cpuSide = s.cpuSide := by
  unfold setSampleRate
  split <;> rfl

theorem endFrame_cpuSide (s : State) (length : ℕ+) : (endFrame s length).cpuSide = s.cpuSide := by
  unfold endFrame
  split <;> rfl

theorem play_cpuSide (s : State) (count : Int) : (play s count).cpuSide = s.cpuSide := by
  unfold play
  split
  · rfl
  · split <;> rfl

theorem muteVoice_cpuSide (s : State) (i : Nat) (on : Bool) : (muteVoice s i on).cpuSide = s.cpuSide := by
  unfold muteVoice
  split <;> rfl

/-- A `start_track` is answered with an error, or its first six steps are done (R352, R365, R366). -/
theorem startTrack_cases {n : Nat} (h : startTrack s n = .ok s') :
    s'.cpuSide = s.cpuSide ∨ ∃ s1, startTrackSteps s n = .ok s1 ∧ s'.cpuSide = s1.cpuSide := by
  unfold startTrack at h
  split at h
  · cases h
    exact .inl rfl
  · split at h
    · cases h
      exact .inl rfl
    · simp only [bind_eq_ok, pure_eq_ok, Except.ok.injEq] at h
      obtain ⟨s1, hs, rfl⟩ := h
      exact .inr ⟨s1, hs, rfl⟩

theorem hostCall_turn {call : HostCall} {rest : List HostCall} (ha : s.activity = .waiting) (hc : s.calls = call :: rest)
    (h : hostCall { s with calls := rest } call = .ok s') : BlockTurn s s' := by
  cases call with
  | startTrack n =>
    obtain hk | ⟨s1, hs, hk⟩ := startTrack_cases h
    · exact .still hk
    · exact .startTrack ha hc hs hk
  | setSampleRate rate =>
    cases h
    exact .still (setSampleRate_cpuSide _ rate)
  | endFrame length =>
    cases h
    exact .still (endFrame_cpuSide _ length)
  | play count =>
    cases h
    exact .still (play_cpuSide _ count)
  | muteVoice i on =>
    cases h
    exact .still (muteVoice_cpuSide _ i on)
  | setTempo t | warning =>
    cases h
    exact .still rfl

/-- Every step does one of the six. -/
theorem step_turn (h : step s = .next s') : BlockTurn s s' := by
  obtain ⟨-, -, rfl⟩ | ⟨ha, call, rest, hc, hh⟩ | ⟨-, hi⟩ | ⟨length, need, ha, hf⟩ | ⟨need, -, hp⟩ := step_cases h
  · exact .still rfl
  · exact hostCall_turn ha hc hh
  · exact initTurn_turn hi
  · exact frameTurn_turn ha hf
  · exact .still (playTurn_cpuSide hp)

end Inversion

/-! ## What the Coordinator's own turns leave -/

section Coordinator

variable {s s' : State}

/-- The end of a frame rebases the clock, the play time and the APU, and leaves the rest of the CPU's side (R355, R358). -/
theorem leaveFrame_cases {length : ℕ+} {need : Option Nat} (h : leaveFrame s length need = .ok s') :
    s'.cpuSide = { s with clock := s.clock - ((length : Nat) : Int) }.cpuSide ∧
      s'.nextPlay = s.nextPlay - ((length : Nat) : Int) ∧
      apuEndFrame s.soundEnv ((length : Nat) : Int) s.sound = .ok s'.sound ∧ s'.mode = .frameBoundary := by
  simp only [leaveFrame, rebase, bind_eq_ok, pure_eq_ok, Except.ok.injEq] at h
  obtain ⟨s1, ⟨w, hw, rfl⟩, h⟩ := h
  cases need
  all_goals
    cases h
    exact ⟨rfl, rfl, hw, rfl⟩

/-- Of the CPU's side, a play entry changes the two bytes of the sentinel (R353, R357). -/
theorem playEntry_cpuSide (h : playEntry s = .ok s') :
    s'.cpuSide =
      { s with ram := (s.ram.write (stackOffset s.sp) 0x5F).write (stackOffset (s.sp - 1)) 0xF5 }.cpuSide := by
  unfold playEntry at h
  split at h
  · cases h
  · simp only [pushSentinel_ok, ok_bind, pure_eq_ok, Except.ok.injEq] at h
    subst h
    rfl

/-- The first six steps of `start_track`, exactly. -/
theorem startTrackSteps_ok (s : State) (n : Nat) :
    startTrackSteps s n =
      .ok (enterInit
        { resetMachine s n with
          ram := ((loadedRam s.header.ramData).write (stackOffset 0xFF) 0x5F).write (stackOffset (0xFF - 1)) 0xF5
          sp := 0xFF - 1 - 1 } n) := by
  rw [startTrackSteps, pushSentinel_ok]
  rfl

end Coordinator

/-! ## The byte arrays -/

section ByteArrays

variable {s s' : State}

theorem MemoryOk.of_cpuSide (hm : MemoryOk s) (h : s'.cpuSide = s.cpuSide) : MemoryOk s' :=
  hm.of_eq (congrArg CpuSide.ram h) (congrArg CpuSide.sram h) (congrArg CpuSide.rom h) (congrArg CpuSide.header h)

/-- The byte arrays are none of the registers an instruction updates. -/
theorem MemoryOk.of_unwritten {i : Instr} (hm : MemoryOk s) (h : s'.unwritten i = s.unwritten i) : MemoryOk s' := by
  have kept : (s'.unwritten i).cpuSide = (s.unwritten i).cpuSide := congrArg State.cpuSide h
  exact hm.of_eq (congrArg CpuSide.ram kept) (congrArg CpuSide.sram kept) (congrArg CpuSide.rom kept)
    (congrArg CpuSide.header kept)

/-- Bytes pushed to the stack keep the form. -/
theorem MemoryOk.write_stack (hm : MemoryOk s) (sp v : Byte) : MemoryOk { s with ram := s.ram.write (stackOffset sp) v } :=
  hm.write_ram (stackOffset_lt sp) v

theorem ExecPath.memoryOk {i : Instr} (p : ExecPath i s s') (hm : MemoryOk s) : MemoryOk s' := by
  induction p with
  | start => exact hm
  | read _ _ h ih => exact memRead_memoryOk ih h
  | write _ _ h ih => exact memWrite_memoryOk ih h
  | update _ h _ ih => exact ih.of_unwritten h
  | noop _ => exact hm.of_eq rfl rfl rfl rfl

theorem cpuStep_memoryOk {r : StepResult} (hm : MemoryOk s) (h : cpuStep s = .next (r, s')) : MemoryOk s' := by
  obtain ⟨w, ⟨-, -, rfl⟩ | ⟨i, -, hi, -⟩⟩ := cpuStep_cases h
  · exact hm.of_eq rfl rfl rfl rfl
  · exact (exec_path hi).memoryOk (hm.of_eq rfl rfl rfl rfl)

theorem takeInterrupt_memoryOk (hm : MemoryOk s) (h : takeInterrupt s = .ok s') : MemoryOk s' := by
  rw [takeInterrupt_ok] at h
  cases h
  exact (((hm.write_stack s.sp _).write_stack (s.sp - 1) _).write_stack (s.sp - 1 - 1) _).of_eq rfl rfl rfl rfl

theorem boundary_memoryOk {endClock : Option Int} {r : Option RunResult} (hm : MemoryOk s)
    (h : boundary endClock s = .next (r, s')) : MemoryOk s' := by
  obtain ⟨-, ⟨-, -, rfl⟩ | ⟨-, -, -, rfl⟩ | ⟨-, -, -, -, hi⟩ | ⟨-, -, -, sr, hs, -⟩⟩ := boundary_cases h
  · exact hm
  · exact hm
  · exact takeInterrupt_memoryOk hm hi
  · exact cpuStep_memoryOk hm hs

/-- `start_track` clears RAM and SRAM but for the loader's data and the sentinel (R352, R452). -/
theorem startTrackSteps_memoryOk {n : Nat} (h : startTrackSteps s n = .ok s') (hm : MemoryOk s) : MemoryOk s' := by
  rw [startTrackSteps_ok] at h
  cases h
  obtain ⟨-, -, -, -, hrom⟩ := hm
  obtain ⟨hwf, hbelow⟩ := loadedRam_ok s.header.ramData
  have hr : MemoryOk (resetMachine s n) := ⟨hwf, hbelow, rfl, rfl, hrom⟩
  exact ((hr.write_stack 0xFF 0x5F).write_stack (0xFF - 1) 0xF5).of_eq rfl rfl rfl rfl

end ByteArrays

/-- Settles O22, by the six turns: the CPU keeps the form along each instruction's path, a play entry pushes two bytes within the
stack, and `start_track` leaves the loader's data. -/
theorem memoryOkKept : Obligations.MemoryOkKept := by
  intro s s' hm h
  cases step_turn h with
  | still hk => exact hm.of_cpuSide hk
  | boundary hb hk => exact (boundary_memoryOk hm hb).of_cpuSide hk
  | leaveFrame _ hl =>
    obtain ⟨hk, -⟩ := leaveFrame_cases hl
    exact hm.of_eq (congrArg CpuSide.ram hk) (congrArg CpuSide.sram hk) (congrArg CpuSide.rom hk)
      (congrArg CpuSide.header hk)
  | playEntry hp => exact ((hm.write_stack s.sp 0x5F).write_stack (s.sp - 1) 0xF5).of_cpuSide (playEntry_cpuSide hp)
  | idleAdvance _ _ => exact hm.of_eq rfl rfl rfl rfl
  | startTrack _ _ hs hk => exact (startTrackSteps_memoryOk hs (hm.of_eq rfl rfl rfl rfl)).of_cpuSide hk

/-! ## The clock -/

section Clock

variable {s s' : State}

theorem ExecPath.clock_le {i : Instr} (p : ExecPath i s s') : s.clock ≤ s'.clock := by
  induction p with
  | start => exact le_rfl
  | read _ _ h ih =>
    rw [memRead_frame h]
    exact ih
  | write _ _ h ih =>
    rw [memWrite_frame h]
    exact ih
  | update _ _ hc ih => exact ih.trans hc
  | noop _ => exact le_clock_add s _

theorem cpuStep_clock_le {r : StepResult} (h : cpuStep s = .next (r, s')) : s.clock ≤ s'.clock := by
  obtain ⟨w, ⟨-, -, rfl⟩ | ⟨i, -, hi, -⟩⟩ := cpuStep_cases h
  · exact le_clock_add s _
  · exact (exec_path hi).clock_le

/-- No turn of the run loop sets the clock back. -/
theorem boundary_clock_le {endClock : Option Int} {r : Option RunResult} (h : boundary endClock s = .next (r, s')) :
    s.clock ≤ s'.clock := by
  obtain ⟨-, ⟨-, -, rfl⟩ | ⟨-, -, -, rfl⟩ | ⟨-, -, -, -, hi⟩ | ⟨-, -, -, sr, hs, -⟩⟩ := boundary_cases h
  · exact le_rfl
  · exact le_rfl
  · rw [takeInterrupt_ok] at hi
    cases hi
    exact le_clock_add s 7
  · exact cpuStep_clock_le hs

end Clock

/-- Settles O14: of the six turns, the rebase and `start_track` alone set the clock back. -/
theorem clockFallsOnlyAtRebase : Obligations.ClockFallsOnlyAtRebase := by
  intro s s' h hlt
  cases step_turn h with
  | still hk =>
    have hc : s'.clock = s.clock := congrArg CpuSide.clock hk
    omega
  | @boundary _ _ s1 _ hb hk =>
    have hc : s'.clock = s1.clock := congrArg CpuSide.clock hk
    have hle := boundary_clock_le hb
    omega
  | @leaveFrame length need _ ha hl =>
    obtain ⟨hk, hn, hw, hm⟩ := leaveFrame_cases hl
    exact .inl ⟨length, need, ha, congrArg CpuSide.clock hk, hn, hw, hm⟩
  | playEntry hp =>
    have hc : s'.clock = s.clock := congrArg CpuSide.clock (playEntry_cpuSide hp)
    omega
  | idleAdvance hc hn =>
    have hle := le_min hn.le hc.le
    exact absurd hlt (not_lt.2 hle)
  | @startTrack n rest s1 _ ha hc hs hk =>
    rw [startTrackSteps_ok] at hs
    cases hs
    exact .inr ⟨n, rest, ha, hc, congrArg CpuSide.clock hk⟩

/-! ## `corrupt` -/

section Corrupt

variable {s s' : State}

theorem resultOf_ne_ok (i : Instr) : decide (resultOf i ≠ .ok) = isIllegal i := by cases i <;> rfl

/-- A CPU step sets `corrupt` exactly if it answers `Illegal` or `Wrap` (R33, R137, R138). -/
theorem cpuStep_corrupt {r : StepResult} (h : cpuStep s = .next (r, s')) :
    s'.corrupt = (s.corrupt || decide (r ≠ .ok)) := by
  obtain ⟨w, ⟨-, rfl, rfl⟩ | ⟨i, -, hi, rfl⟩⟩ := cpuStep_cases h
  · exact (Bool.or_true _).symm
  · rw [resultOf_ne_ok]
    have hc := exec_corrupt hi
    exact hc

theorem boundary_corrupt {endClock : Option Int} {r : Option RunResult} (h : boundary endClock s = .next (r, s'))
    (hs : s.corrupt = true) : s'.corrupt = true := by
  obtain ⟨-, ⟨-, -, rfl⟩ | ⟨-, -, -, rfl⟩ | ⟨-, -, -, -, hi⟩ | ⟨-, -, -, sr, hs', -⟩⟩ := boundary_cases h
  · exact hs
  · exact hs
  · rw [takeInterrupt_ok] at hi
    cases hi
    exact hs
  · rw [cpuStep_corrupt hs', hs, Bool.true_or]

end Corrupt

/-- Settles O15: what sets `corrupt` by the result of the CPU step, and that of the six turns `start_track` alone clears it. -/
theorem corruptIsSticky : Obligations.CorruptIsSticky := by
  refine ⟨fun s s' r h => cpuStep_corrupt h, fun s s' h hs hs' => ?_⟩
  have kept (hk : s'.corrupt = s.corrupt) : False := by simp [hk, hs] at hs'
  cases step_turn h with
  | still hk => exact (kept (congrArg CpuSide.corrupt hk)).elim
  | boundary hb hk => exact (kept ((congrArg CpuSide.corrupt hk).trans ((boundary_corrupt hb hs).trans hs.symm))).elim
  | leaveFrame _ hl => exact (kept (congrArg CpuSide.corrupt (leaveFrame_cases hl).1)).elim
  | playEntry hp => exact (kept (congrArg CpuSide.corrupt (playEntry_cpuSide hp))).elim
  | idleAdvance _ _ => exact (kept rfl).elim
  | @startTrack n rest _ _ ha hc _ _ => exact ⟨n, rest, ha, hc⟩

/-! ## The reset state -/

theorem reset_memoryOk : MemoryOk State.reset := by
  obtain ⟨hram, hsram, hrom⟩ := reset_memory_wf
  exact ⟨hram, by decide, hsram, rfl, hrom, rfl⟩

/-- A fresh sound chip, whichever it is, contributes no level to a buffer (R453). -/
theorem freshSound_lastSum (c : ApuChip) (b : Side) : lastSum (freshSound c).voices b = 0 := by
  have hv : (freshSound c).voices.map (fun v => v.last b) = (List.range c.voices).map fun _ => 0 := by
    rw [freshSound, List.map_map]
    cases b <;> rfl
  rw [lastSum, hv, List.map_const', List.sum_replicate, smul_zero]

theorem freshSound_buffer (c : ApuChip) (b : Side) : (freshSound c).buffer b = freshBuffer := by cases b <;> rfl

theorem freshSound_buffersOk (c : ApuChip) : BuffersOk (freshSound c) := fun b => by
  rw [freshSound_buffer]
  rfl

theorem freshSound_levelOk (c : ApuChip) : LevelOk (freshSound c) := fun b => by
  rw [freshSound_lastSum, freshSound_buffer]
  simp [freshBuffer, accSum]

theorem freshSound_availOk (c : ApuChip) : AvailOk (freshSound c) := ⟨le_rfl, Int.floor_zero.symm⟩

/-- Settles O53. The sound chip of the reset state is opaque: its part holds of every fresh chip. -/
theorem invariantsAtReset : Obligations.InvariantsAtReset :=
  ⟨reset_memoryOk, le_refl (0 : Int), ⟨rfl, rfl⟩, ⟨by norm_num [State.reset], by norm_num [State.reset], by decide⟩,
    freshSound_buffersOk _, freshSound_levelOk _, freshSound_availOk _⟩

end Sys2Proof.Machine
end

section
/-! The memory map as the CPU sees it (R61-R91): what a read and a write answer in each range of the map, what every address
shows after a write, and what an instruction leaves of memory. -/

namespace Sys2Proof.Machine

/-! ## Bank registers and windows -/

theorem isApuWrite_iff {a : Addr} : isApuWrite a = true ↔ 0x4000 ≤ a.toNat ∧ a.toNat ≤ 0x4017 := by simp [isApuWrite]

theorem isBankRegister_iff {a : Addr} : isBankRegister a = true ↔ 0x5FF8 ≤ a.toNat ∧ a.toNat ≤ 0x5FFF := by
  simp [isBankRegister]

theorem isApuWrite_eq_false {a : Addr} (h : a.toNat < 0x4000 ∨ 0x4017 < a.toNat) : isApuWrite a = false := by
  rw [← Bool.not_eq_true, isApuWrite_iff]
  omega

theorem isBankRegister_eq_false {a : Addr} (h : a.toNat < 0x5FF8 ∨ 0x5FFF < a.toNat) : isBankRegister a = false := by
  rw [← Bool.not_eq_true, isBankRegister_iff]
  omega

/-- The window of an address of 0x8000-0xFFFF is one of the eight without reduction. -/
theorem windowOf_val {a : Addr} (h : 0x8000 ≤ a.toNat) : (windowOf a).val = (a.toNat - 0x8000) / 0x1000 := by
  simp only [windowOf, Fin.ofNat]
  omega

theorem bankRegister_toNat (w : Fin 8) : (0x5FF8 + BitVec.ofNat 16 w.val : Addr).toNat = 0x5FF8 + w.val := by
  have hw := w.isLt
  rw [BitVec.toNat_add]
  simp
  omega

/-- A bank write as one update: the register, and the warning if the image has no such bank (R70). -/
theorem writeBank_eq (s : State) (w : Fin 8) (v : Byte) :
    writeBank s w v =
      { s with
        bank := s.bank.set w.val v w.isLt
        warning := if s.header.romBanks ≤ v.toNat then some .invalidBank else s.warning } := by
  unfold writeBank
  split <;> rfl

@[simp] theorem writeBank_header (s : State) (w : Fin 8) (v : Byte) : (writeBank s w v).header = s.header := by
  rw [writeBank_eq]

@[simp] theorem writeBank_params (s : State) (w : Fin 8) (v : Byte) : (writeBank s w v).params = s.params := by
  rw [writeBank_eq]

@[simp] theorem writeBank_rom (s : State) (w : Fin 8) (v : Byte) : (writeBank s w v).rom = s.rom := by
  rw [writeBank_eq]

theorem writeBank_bankAt (s : State) (w u : Fin 8) (v : Byte) :
    (writeBank s w v).bankAt u = if u = w then v else s.bankAt u := by
  rw [writeBank_eq]
  simp only [State.bankAt, Fin.getElem_fin, Vector.getElem_set, Fin.ext_iff, eq_comm]

/-! ## Writes, range by range -/

section Writes

variable (s : State) {a : Addr} (v : Byte) (t : Int)

theorem memWrite_sram (h : 0x6000 ≤ a.toNat) (h' : a.toNat < 0x8000) :
    memWrite s a v t = .ok { s with sram := s.sram.write (a.toNat - 0x6000) v } := by
  simp [memWrite, locate_sram s h h']

/-- Between RAM and SRAM, a write goes to the I/O path (R63). -/
theorem memWrite_io (h : 0x2000 ≤ a.toNat) (h' : a.toNat < 0x6000) : memWrite s a v t = ioWrite s a v t := by
  simp [memWrite, locate_io s h h']

theorem memWrite_apu (h : isApuWrite a = true) :
    memWrite s a v t =
      (apuWrite s.soundEnv t (a.toNat - 0x4000) v s.sound).map fun w =>
        { s with sound := w, apuLog := s.apuLog ++ [{ clock := t, reg := a.toNat - 0x4000, value := v }] } := by
  obtain ⟨hlo, hhi⟩ := isApuWrite_iff.1 h
  rw [memWrite_io s v t (by omega) (by omega), ioWrite, if_pos h]
  rfl

theorem memWrite_bankRegister (h : isBankRegister a = true) :
    memWrite s a v t = .ok (writeBank s (Fin.ofNat 8 (a.toNat - 0x5FF8)) v) := by
  obtain ⟨hlo, hhi⟩ := isBankRegister_iff.1 h
  have hapu := isApuWrite_eq_false (a := a) (.inr (by omega))
  rw [memWrite_io s v t (by omega) (by omega), ioWrite, if_neg (by simp [hapu]), if_pos h]
  rfl

/-- A write that no device and no array takes changes nothing (R65, R72, R78). -/
theorem memWrite_ignored (hapu : isApuWrite a = false) (hbank : isBankRegister a = false) (h : 0x2000 ≤ a.toNat)
    (h' : a.toNat < 0x6000 ∨ 0x8000 ≤ a.toNat) : memWrite s a v t = .ok s := by
  obtain ⟨s', hs⟩ := memWrite_quiet s v t hapu
  obtain ⟨hr, -⟩ | ⟨hlo, hhi, -⟩ | ⟨ha, -⟩ | ⟨hb, -⟩ | ⟨-, -, -, -, rfl⟩ := memWrite_cases hs
  · omega
  · omega
  · simp [hapu] at ha
  · simp [hbank] at hb
  · exact hs

theorem memWrite_rom (h : 0x8000 ≤ a.toNat) : memWrite s a v t = .ok s := by
  have hapu := isApuWrite_eq_false (a := a) (.inr (by omega))
  have hbank := isBankRegister_eq_false (a := a) (.inr (by omega))
  exact memWrite_ignored s v t hapu hbank (by omega) (.inr h)

/-- The register of window w takes the bank number at once (R70). -/
theorem memWrite_bankRegister_of_window {w : Fin 8} (h : a.toNat = 0x5FF8 + w.val) :
    memWrite s a v t = .ok (writeBank s w v) := by
  have hb : isBankRegister a = true := isBankRegister_iff.2 (by omega)
  have hw : Fin.ofNat 8 (a.toNat - 0x5FF8) = w := by
    ext
    simp only [Fin.ofNat, h]
    omega
  rw [memWrite_bankRegister s v t hb, hw]

end Writes

/-! ## Reads, range by range -/

section Reads

variable (s : State) {a : Addr} (t : Int)

theorem memRead_of_toNat_ne (h : a.toNat ≠ 0x4015) : memRead s a t = .ok (s.peek a, s) :=
  memRead_quiet s t fun hc => h (congrArg BitVec.toNat hc)

theorem memRead_ram (h : a.toNat < 0x2000) : memRead s a t = .ok (s.ram.read (a.toNat % 0x800), s) := by
  rw [memRead_of_toNat_ne s t (by omega), peek_ram s h]

theorem memRead_sram (h : 0x6000 ≤ a.toNat) (h' : a.toNat < 0x8000) :
    memRead s a t = .ok (s.sram.read (a.toNat - 0x6000), s) := by
  rw [memRead_of_toNat_ne s t (by omega), peek_sram s h h']

/-- The I/O path reads as open bus but for the status register (R71, R78). -/
theorem memRead_io (h : 0x2000 ≤ a.toNat) (h' : a.toNat < 0x6000) (hne : a.toNat ≠ 0x4015) :
    memRead s a t = .ok (s.params.openBus, s) := by
  rw [memRead_of_toNat_ne s t hne, peek_io s h h']

/-- A window shows its bank, or open bus if the image has no such bank (R69, R64). -/
theorem memRead_rom (h : 0x8000 ≤ a.toNat) :
    memRead s a t =
      .ok (if (s.bankAt (windowOf a)).toNat < s.header.romBanks then
          s.rom.read ((s.bankAt (windowOf a)).toNat * 0x1000 + a.toNat % 0x1000)
        else s.params.openBus, s) := by
  rw [memRead_of_toNat_ne s t (by omega), peek_rom s h]

end Reads

/-! ## What every address shows after a write -/

section Peek

variable (s : State) (b : Addr)

/-- The bank registers decide nothing below 0x8000. -/
theorem peek_writeBank_low (w : Fin 8) (v : Byte) (h : b.toNat < 0x8000) : (writeBank s w v).peek b = s.peek b := by
  rw [writeBank_eq]
  by_cases hram : b.toNat < 0x2000
  · rw [peek_ram _ hram, peek_ram _ hram]
  · by_cases hio : b.toNat < 0x6000
    · rw [peek_io _ (by omega) hio, peek_io _ (by omega) hio]
    · rw [peek_sram _ (by omega) h, peek_sram _ (by omega) h]

/-- A bank write shows the new bank in its window, or open bus, and nothing new elsewhere (R64, R69, R70). -/
theorem peek_writeBank (w : Fin 8) (v : Byte) :
    (writeBank s w v).peek b =
      if 0x8000 ≤ b.toNat ∧ (b.toNat - 0x8000) / 0x1000 = w.val then
        if v.toNat < s.header.romBanks then s.rom.read (v.toNat * 0x1000 + b.toNat % 0x1000) else s.params.openBus
      else s.peek b := by
  by_cases hrom : 0x8000 ≤ b.toNat
  · have hw : windowOf b = w ↔ (b.toNat - 0x8000) / 0x1000 = w.val := by rw [Fin.ext_iff, windowOf_val hrom]
    rw [peek_rom _ hrom, peek_rom s hrom, writeBank_bankAt, writeBank_header, writeBank_params, writeBank_rom]
    by_cases he : windowOf b = w
    · simp only [if_pos he, if_pos (And.intro hrom (hw.1 he))]
    · simp only [if_neg he, if_neg fun hc : _ ∧ _ => he (hw.2 hc.2)]
  · rw [if_neg fun hc => hrom hc.1, peek_writeBank_low s b w v (by omega)]

/-- A RAM byte shows in its mirrors and nowhere else (R67). -/
theorem peek_write_ram (o : Nat) (v : Byte) :
    { s with ram := s.ram.write o v }.peek b = if b.toNat < 0x2000 ∧ b.toNat % 0x800 = o then v else s.peek b := by
  by_cases hram : b.toNat < 0x2000
  · rw [peek_ram _ hram, peek_ram s hram, Memory.read_write]
    simp only [hram, true_and]
  · rw [if_neg fun hc => hram hc.1]
    exact peek_of_high (s := s) (s' := { s with ram := s.ram.write o v }) rfl rfl rfl rfl rfl (by omega)

/-- An SRAM byte shows at its own address alone (R68). -/
theorem peek_write_sram {a : Addr} (v : Byte) (h : 0x6000 ≤ a.toNat) (h' : a.toNat < 0x8000) :
    { s with sram := s.sram.write (a.toNat - 0x6000) v }.peek b = if b = a then v else s.peek b := by
  by_cases hsram : 0x6000 ≤ b.toNat ∧ b.toNat < 0x8000
  · obtain ⟨hlo, hhi⟩ := hsram
    have ho : b.toNat - 0x6000 = a.toNat - 0x6000 ↔ b = a := by bv_omega
    rw [peek_sram _ hlo hhi, peek_sram s hlo hhi, Memory.read_write]
    simp only [ho]
  · have hne : b ≠ a := fun hc => hsram (hc ▸ ⟨h, h'⟩)
    rw [if_neg hne]
    by_cases hram : b.toNat < 0x2000
    · rw [peek_ram _ hram, peek_ram s hram]
    · by_cases hio : b.toNat < 0x6000
      · rw [peek_io _ (by omega) hio, peek_io s (by omega) hio]
      · rw [peek_rom _ (by omega), peek_rom s (by omega)]
        rfl

end Peek

section Cells

variable {a b : Addr}

theorem sameCell_iff :
    sameCell a b = true ↔
      (a.toNat < 0x2000 ∧ b.toNat < 0x2000 ∧ a.toNat % 0x800 = b.toNat % 0x800) ∨
        (0x6000 ≤ a.toNat ∧ a.toNat < 0x8000 ∧ a = b) := by
  simp [sameCell, and_assoc]

theorem sameCell_iff_of_ram (h : a.toNat < 0x2000) :
    sameCell a b = true ↔ b.toNat < 0x2000 ∧ b.toNat % 0x800 = a.toNat % 0x800 := by
  rw [sameCell_iff]
  omega

theorem sameCell_iff_of_sram (h : 0x6000 ≤ a.toNat) (h' : a.toNat < 0x8000) : sameCell a b = true ↔ b = a := by
  rw [sameCell_iff]
  refine ⟨?_, fun he => .inr ⟨h, h', he.symm⟩⟩
  rintro (⟨hram, -⟩ | ⟨-, -, he⟩)
  · omega
  · exact he.symm

/-- No cell of RAM or SRAM lies on the I/O path or in a ROM window. -/
theorem sameCell_of_no_cell (h : 0x2000 ≤ a.toNat) (h' : a.toNat < 0x6000 ∨ 0x8000 ≤ a.toNat) : ¬sameCell a b = true := by
  rw [sameCell_iff]
  omega

theorem inWindowOf_iff :
    inWindowOf a b = true ↔
      isBankRegister a = true ∧ 0x8000 ≤ b.toNat ∧ (b.toNat - 0x8000) / 0x1000 = a.toNat - 0x5FF8 := by
  simp [inWindowOf, and_assoc]

end Cells

/-- What every address outside a switched window shows after a write (R63, R65, R70, R86). -/
theorem memWrite_peek {s s' : State} {a b : Addr} {v : Byte} {t : Int} (h : memWrite s a v t = .ok s')
    (hw : inWindowOf a b = false) : s'.peek b = if sameCell a b = true then v else s.peek b := by
  obtain ⟨hram, rfl⟩ | ⟨hlo, hhi, rfl⟩ | ⟨ha, w, -, rfl⟩ | ⟨ha, rfl⟩ | ⟨hlo, -, -, hr, rfl⟩ := memWrite_cases h
  · simp only [peek_write_ram, sameCell_iff_of_ram hram]
  · simp only [peek_write_sram s b v hlo hhi, sameCell_iff_of_sram hlo hhi]
  · obtain ⟨hlo, hhi⟩ := isApuWrite_iff.1 ha
    rw [if_neg (sameCell_of_no_cell (by omega) (.inl (by omega)))]
    exact peek_congr rfl rfl rfl rfl rfl rfl b
  · obtain ⟨hlo, hhi⟩ := isBankRegister_iff.1 ha
    have hout : ¬(0x8000 ≤ b.toNat ∧ (b.toNat - 0x8000) / 0x1000 = (Fin.ofNat 8 (a.toNat - 0x5FF8)).val) := by
      rintro ⟨hrom, he⟩
      have hin : inWindowOf a b = true := inWindowOf_iff.2 ⟨ha, hrom, by simp only [Fin.ofNat] at he; omega⟩
      simp [hw] at hin
    rw [if_neg (sameCell_of_no_cell (by omega) (.inl (by omega))), peek_writeBank, if_neg hout]
  · rw [if_neg (sameCell_of_no_cell hlo hr)]

/-! ## The statements about the map -/

/-- Settles O17: each access by its rule for the range, and the read back by what every address shows after the write. -/
theorem directPages : Obligations.DirectPages := by
  refine ⟨fun s a t ha => ⟨memRead_ram s t ha, fun v => memWrite_ram s v t ha, fun v b s' hb hab hw => ?_⟩,
    fun s a t hlo hhi => ⟨memRead_sram s t hlo hhi, fun v => memWrite_sram s v t hlo hhi, fun v b s' hlo' hhi' hw => ?_⟩⟩
  · rw [memWrite_ram s v t ha] at hw
    cases hw
    rw [memRead_of_toNat_ne _ t (by omega), peek_write_ram, if_pos ⟨hb, hab⟩]
  · rw [memWrite_sram s v t hlo hhi] at hw
    cases hw
    rw [memRead_of_toNat_ne _ t (by omega), peek_write_sram s b v hlo hhi, peek_sram s hlo' hhi']

/-- Settles O18: a window has no status register and no bank register in it. -/
theorem romWindows : Obligations.RomWindows := fun s _ t h =>
  ⟨windowOf_val h, memRead_rom s t h, fun v => memWrite_rom s v t h⟩

/-- Settles O19, by what every address shows after a bank write. -/
theorem bankSwitch : Obligations.BankSwitch := by
  intro s w v t
  have ha := bankRegister_toNat w
  have hw := memWrite_bankRegister_of_window s v t ha
  refine ⟨memRead_io s t (by omega) (by omega) (by omega), by rw [hw, writeBank_eq], fun s' b hs => ?_⟩
  rw [hw] at hs
  cases hs
  exact peek_writeBank s b w v

/-- Settles O20, range by range. -/
theorem ioWindow : Obligations.IoWindow := by
  refine ⟨fun s a v t hlo hhi => memWrite_apu s v t (isApuWrite_iff.2 ⟨hlo, hhi⟩), fun s t => memRead_status s t,
    fun s a t hlo hhi ha => ?_, fun s a v t hlo hhi hout => ?_, fun s a w v t ha => ?_, fun s a v t ha hb => ⟨?_, ?_⟩⟩
  · have hne : a.toNat ≠ 0x4015 := fun hc => ha (BitVec.eq_of_toNat_eq hc)
    exact memRead_io s t hlo hhi hne
  · exact memWrite_ignored s v t (isApuWrite_eq_false hout) (isBankRegister_eq_false (.inl hhi)) hlo (.inl (by omega))
  · rw [memWrite_bankRegister_of_window s v t ha, writeBank_eq]
  · rw [memRead_rom s t ha, if_neg (not_lt.2 hb)]
  · exact memWrite_rom s v t ha

/-- Settles O21: the quiet accesses of the map, and what every address shows after a write. -/
theorem readAfterWrite : Obligations.ReadAfterWrite :=
  ⟨fun s _ t ha => memRead_quiet s t ha, fun s _ v t ha => memWrite_quiet s v t ha,
    fun _ _ _ _ _ _ h hw => memWrite_peek h hw⟩

/-! ## What an instruction leaves of memory -/

section Frame

variable {i : Instr} {s s' : State}

/-- Registers are not memory: an update shows the same bytes. -/
theorem peek_of_unwritten {s1 s2 : State} (h : s2.unwritten i = s1.unwritten i) (b : Addr) : s2.peek b = s1.peek b :=
  have kept {β : Type} (f : State → β) : f (s2.unwritten i) = f (s1.unwritten i) := congrArg f h
  peek_congr (kept State.bank) (kept State.header) (kept State.params) (kept State.ram) (kept State.sram) (kept State.rom) b

/-- A byte that no store of the instruction reaches, nor switches the window of, shows what it showed. -/
theorem exec_peek {b : Addr} (h : exec i s = .next s')
    (hb : ∀ a ∈ storedTo s i, sameCell a b = false ∧ inWindowOf a b = false) : s'.peek b = s.peek b := by
  refine (exec_path h).keeps (fun s1 => s1.peek b) (fun _ hr => ?_) (fun ha hw => ?_) (fun hu => peek_of_unwritten hu b)
    fun _ => peek_congr rfl rfl rfl rfl rfl rfl b
  · rw [memRead_frame hr]
    exact peek_congr rfl rfl rfl rfl rfl rfl b
  · obtain ⟨hcell, hwin⟩ := hb _ ha
    rw [memWrite_peek hw hwin, if_neg (by simp [hcell])]

/-- An instruction without a store leaves every component that is neither the APU nor a register its rules write. -/
theorem exec_keeps_of_no_store {β : Type} (f : State → β) (h : exec i s = .next s') (hs : storedTo s i = [])
    (hsound : ∀ (s1 : State) (w : Sound), f { s1 with sound := w } = f s1) (hreg : ∀ s1 : State, f (s1.unwritten i) = f s1)
    (hnoop : f (corruptionNoop s .illegalOpcode) = f s) : f s' = f s := by
  refine (exec_path h).keeps f (fun _ hr => ?_) (fun ha _ => ?_) (fun {s1 s2} hu => ?_) fun _ => hnoop
  · rw [memRead_frame hr, hsound]
  · simp [hs] at ha
  · rw [← hreg s2, hu, hreg s1]

end Frame

/-- Settles O44: ROM lies beyond the CPU, and the bytes and arrays by the accesses on the instruction's path. -/
theorem memoryFrame : Obligations.MemoryFrame := by
  intro i s s' h
  have beyond : s'.beyondCpu.rom = s.beyondCpu.rom := congrArg State.rom (exec_beyondCpu h)
  refine ⟨beyond, fun b hb => exec_peek h hb, fun hs => ⟨?_, ?_⟩⟩
  · exact exec_keeps_of_no_store State.ram h hs (fun _ _ => rfl) (fun _ => rfl) rfl
  · exact exec_keeps_of_no_store State.sram h hs (fun _ _ => rfl) (fun _ => rfl) rfl

end Sys2Proof.Machine
end

section
/-! The opcode map both ways: which row an opcode byte selects, what each documented row fixes of the instruction it makes, what
`decode` answers, and from these the two round trips and the totality of the decoder (spec/30_encoding.md R100-R110). -/

namespace Sys2Proof.Machine

/-! ## Little-endian pairs -/

@[simp] theorem loByte_word (lo hi : Byte) : loByte (word lo hi) = lo := BitVec.extractLsb'_append_eq_right

@[simp] theorem hiByte_word (lo hi : Byte) : hiByte (word lo hi) = hi := BitVec.extractLsb'_append_eq_left

@[simp] theorem hiByte_append_loByte (a : Addr) : hiByte a ++ loByte a = a :=
  BitVec.extractLsb'_append_extractLsb' (w := 8) (len := 8)

/-! ## Which row an opcode selects -/

/-- Every opcode byte the map names: the documented rows' and the illegal ones (R107, R108). -/
def opcodeBytes : List Byte := opcodeRows.map Row.opcode ++ illegalOpcodes

theorem opcodeBytes_nodup : opcodeBytes.Nodup := by decide +kernel

theorem opcodeBytes_length : opcodeBytes.length = 256 := by decide +kernel

theorem card_byte : Fintype.card Byte = 256 := by
  rw [← FinEnum.card_eq_fintypeCard, FinEnum.card_bitVec]
  rfl

/-- 256 distinct bytes are all the bytes there are. -/
theorem mem_opcodeBytes (op : Byte) : op ∈ opcodeBytes := by
  have hcard : opcodeBytes.toFinset.card = Fintype.card Byte := by
    rw [List.toFinset_card_of_nodup opcodeBytes_nodup, opcodeBytes_length, card_byte]
  rw [← List.mem_toFinset, (Finset.card_eq_iff_eq_univ _).1 hcard]
  exact Finset.mem_univ op

/-- How often a byte stands in the map: among the rows and among the illegal opcodes. -/
theorem count_opcodeBytes (op : Byte) :
    opcodeBytes.count op =
      (opcodeRows.filter fun r => r.opcode == op).length + (illegalOpcodes.filter fun o => o == op).length := by
  rw [opcodeBytes, List.count_append, List.count_eq_countP, List.count_eq_countP, List.countP_map,
    List.countP_eq_length_filter, List.countP_eq_length_filter]
  rfl

theorem opcodeRow_eq_some_iff {op : Byte} {r : Row} : opcodeRow op = some r ↔ r ∈ opcodeRows ∧ r.opcode = op := by
  have found {r' : Row} (h : opcodeRow op = some r') : r' ∈ opcodeRows ∧ r'.opcode = op :=
    ⟨List.mem_of_find?_eq_some h, by simpa using List.find?_some h⟩
  refine ⟨found, fun ⟨hr, hop⟩ => ?_⟩
  cases h : opcodeRow op with
  | none => exact absurd hop (by simpa using List.find?_eq_none.1 h r hr)
  | some r' =>
    obtain ⟨hr', hop'⟩ := found h
    rw [List.inj_on_of_nodup_map opcodeBytes_nodup.of_append_left hr' hr (hop'.trans hop.symm)]

/-- The illegal opcodes are those without a documented row (R108, R110). -/
theorem opcodeRow_eq_none_iff {op : Byte} : opcodeRow op = none ↔ op ∈ illegalOpcodes := by
  have hmem : op ∈ opcodeRows.map Row.opcode ∨ op ∈ illegalOpcodes := List.mem_append.1 (mem_opcodeBytes op)
  have hdisj : op ∈ opcodeRows.map Row.opcode → op ∉ illegalOpcodes := fun h h' =>
    List.disjoint_of_nodup_append opcodeBytes_nodup h h'
  have hnone : opcodeRow op = none ↔ op ∉ opcodeRows.map Row.opcode := by
    simp [opcodeRow, List.find?_eq_none]
  tauto

theorem opcodeLength_of_row {r : Row} (hr : r ∈ opcodeRows) : opcodeLength r.opcode = r.length := by
  simp [opcodeLength, opcodeRow_eq_some_iff.2 ⟨hr, rfl⟩]

theorem instrOf_of_row {r : Row} (hr : r ∈ opcodeRows) (b1 b2 : Byte) : instrOf r.opcode b1 b2 = r.make b1 b2 := by
  simp [instrOf, opcodeRow_eq_some_iff.2 ⟨hr, rfl⟩]

theorem opcodeLength_of_illegal {op : Byte} (h : op ∈ illegalOpcodes) : opcodeLength op = 1 := by
  simp [opcodeLength, opcodeRow_eq_none_iff.2 h]

theorem instrOf_of_illegal {op : Byte} (h : op ∈ illegalOpcodes) (b1 b2 : Byte) : instrOf op b1 b2 = .illegal op := by
  simp [instrOf, opcodeRow_eq_none_iff.2 h]

/-- What an opcode byte selects (R110): a documented row, or the illegal instruction of that byte. -/
theorem opcode_cases (op : Byte) :
    (∃ r ∈ opcodeRows, r.opcode = op ∧ opcodeLength op = r.length ∧ ∀ b1 b2, instrOf op b1 b2 = r.make b1 b2) ∨
      (op ∈ illegalOpcodes ∧ opcodeLength op = 1 ∧ ∀ b1 b2, instrOf op b1 b2 = .illegal op) := by
  cases h : opcodeRow op with
  | none =>
    have hop := opcodeRow_eq_none_iff.1 h
    exact .inr ⟨hop, opcodeLength_of_illegal hop, instrOf_of_illegal hop⟩
  | some r =>
    obtain ⟨hr, rfl⟩ := opcodeRow_eq_some_iff.1 h
    exact .inl ⟨r, hr, rfl, opcodeLength_of_row hr, instrOf_of_row hr⟩

/-! ## What a row fixes -/

/-- What a documented row says of the instruction that its operand bytes complete, whatever these are: the columns are the
instruction's own, its encoding is the row's opcode with the operand bytes, and bytes beyond the length make no difference. -/
structure RowLaw (r : Row) : Prop where
  wellFormed : ∀ b1 b2, (r.make b1 b2).wellFormed = true
  operands : ∀ b1 b2, r.make b1 b2 = r.make (if 2 ≤ r.length then b1 else 0) (if 3 ≤ r.length then b2 else 0)
  encode : ∀ b1 b2,
    encode (r.make b1 b2) = if r.length = 3 then bytes3 r.opcode (word b1 b2) else [r.opcode, b1].take r.length
  length : ∀ b1 b2, instrLength (r.make b1 b2) = r.length
  cycles : ∀ b1 b2, baseCycles (r.make b1 b2) = r.cycles
  extra : ∀ s b1 b2, extraOf s (r.make b1 b2) = columnExtra s r b1 b2

/-- Every row of R107's map obeys it, each by evaluating the row. -/
theorem rowLaw : ∀ r ∈ opcodeRows, RowLaw r := by
  simp only [opcodeRows, opcodeRows0, opcodeRows2, opcodeRows4, opcodeRows6, opcodeRows8, opcodeRowsA, opcodeRowsC,
    opcodeRowsE, List.forall_mem_append, List.forall_mem_cons, List.not_mem_nil, false_implies,
    implies_true, and_true]
  and_intros
  all_goals
    exact ⟨fun _ _ => rfl, fun _ _ => rfl, fun _ _ => rfl, fun _ _ => rfl, fun _ _ => rfl, fun _ _ _ => rfl⟩

theorem row_length_bounds : ∀ r ∈ opcodeRows, 1 ≤ r.length ∧ r.length ≤ 3 := by decide +kernel

theorem row_length_cases {r : Row} (hr : r ∈ opcodeRows) : r.length = 1 ∨ r.length = 2 ∨ r.length = 3 := by
  have := row_length_bounds r hr
  omega

/-- The encoding of a row's instruction is the bytes the row takes. -/
theorem encode_make {r : Row} (hr : r ∈ opcodeRows) (b1 b2 : Byte) :
    encode (r.make b1 b2) = [r.opcode, b1, b2].take r.length := by
  rw [(rowLaw r hr).encode]
  obtain h | h | h := row_length_cases hr <;> simp [h, bytes3]

/-! ## The instruction of an opcode byte and its operand bytes -/

theorem opcodeLength_cases (op : Byte) : opcodeLength op = 1 ∨ opcodeLength op = 2 ∨ opcodeLength op = 3 := by
  obtain ⟨r, hr, -, hlen, -⟩ | ⟨-, hlen, -⟩ := opcode_cases op
  · rw [hlen]
    exact row_length_cases hr
  · exact .inl hlen

theorem instrOf_wellFormed (op b1 b2 : Byte) : (instrOf op b1 b2).wellFormed = true := by
  obtain ⟨r, hr, -, -, hi⟩ | ⟨hop, -, hi⟩ := opcode_cases op
  · rw [hi]
    exact (rowLaw r hr).wellFormed b1 b2
  · rw [hi]
    simpa [Instr.wellFormed] using hop

theorem encode_instrOf (op b1 b2 : Byte) : encode (instrOf op b1 b2) = [op, b1, b2].take (opcodeLength op) := by
  obtain ⟨r, hr, rfl, hlen, hi⟩ | ⟨-, hlen, hi⟩ := opcode_cases op
  · rw [hi, hlen, encode_make hr]
  · rw [hi, hlen]
    rfl

/-- Bytes beyond the instruction's length make no difference to it. -/
theorem instrOf_operands (op b1 b2 : Byte) :
    instrOf op b1 b2 = instrOf op (if 2 ≤ opcodeLength op then b1 else 0) (if 3 ≤ opcodeLength op then b2 else 0) := by
  obtain ⟨r, hr, -, hlen, hi⟩ | ⟨-, -, hi⟩ := opcode_cases op
  · rw [hi, hi, hlen]
    exact (rowLaw r hr).operands b1 b2
  · rw [hi, hi]

/-! ## What `decode` answers -/

/-- Decoding takes as many bytes as the opcode fixes, and what it took is what it makes the instruction of (R100). -/
theorem decode_take (op b1 b2 : Byte) (rest : List Byte) :
    decode ([op, b1, b2].take (opcodeLength op) ++ rest) = .ok (instrOf op b1 b2, rest) := by
  rw [instrOf_operands op b1 b2]
  obtain h | h | h := opcodeLength_cases op <;> simp [decode, h]

/-- Whatever decodes is an opcode byte with the operand bytes that it asks for. -/
theorem decode_cases {bs rest : List Byte} {i : Instr} (h : decode bs = .ok (i, rest)) :
    ∃ op b1 b2, i = instrOf op b1 b2 ∧ bs = [op, b1, b2].take (opcodeLength op) ++ rest := by
  cases bs with
  | nil => cases h
  | cons op tail =>
    obtain hlen | hlen | hlen := opcodeLength_cases op
    · simp only [decode, hlen, Except.ok.injEq, Prod.mk.injEq] at h
      obtain ⟨rfl, rfl⟩ := h
      exact ⟨op, 0, 0, rfl, by simp [hlen]⟩
    · match tail with
      | [] => simp [decode, hlen] at h
      | b1 :: tail =>
        simp only [decode, hlen, Except.ok.injEq, Prod.mk.injEq] at h
        obtain ⟨rfl, rfl⟩ := h
        exact ⟨op, b1, 0, rfl, by simp [hlen]⟩
    · match tail with
      | [] | [_] => simp [decode, hlen] at h
      | b1 :: b2 :: tail =>
        simp only [decode, hlen, Except.ok.injEq, Prod.mk.injEq] at h
        obtain ⟨rfl, rfl⟩ := h
        exact ⟨op, b1, b2, rfl, by simp [hlen]⟩

theorem decode_illegal {op : Byte} (h : op ∈ illegalOpcodes) (rest : List Byte) :
    decode (op :: rest) = .ok (.illegal op, rest) := by
  have hd := decode_take op 0 0 rest
  rwa [opcodeLength_of_illegal h, instrOf_of_illegal h] at hd

/-- A row's opcode and the operand bytes it takes decode to its instruction. -/
theorem decode_take_row {r : Row} (hr : r ∈ opcodeRows) (b1 b2 : Byte) (rest : List Byte) :
    decode ([r.opcode, b1, b2].take r.length ++ rest) = .ok (r.make b1 b2, rest) := by
  have hd := decode_take r.opcode b1 b2 rest
  rwa [opcodeLength_of_row hr, instrOf_of_row hr] at hd

/-- Before any two bytes, a row's opcode leaves those beyond its length. -/
theorem decode_row {r : Row} (hr : r ∈ opcodeRows) (b1 b2 : Byte) (rest : List Byte) :
    decode (r.opcode :: b1 :: b2 :: rest) = .ok (r.make b1 b2, (b1 :: b2 :: rest).drop (r.length - 1)) := by
  rw [← decode_take_row hr b1 b2]
  obtain h | h | h := row_length_cases hr <;> simp [h]

/-! ## `Encoding` lines -/

section EncodingLine

variable {op : Byte} {m : String} {f : Format} {cycles : Nat} {e : ExtraCycles}

/-- A one-byte row is an `Encoding` line. -/
theorem encodes1 {i : Instr} (h : opcodeRow op = some ⟨op, m, f, 1, cycles, e, fun _ _ => i⟩) : Encodes1 op i cycles := by
  obtain ⟨hr, -⟩ := opcodeRow_eq_some_iff.1 h
  exact ⟨decode_take_row hr 0 0, (rowLaw _ hr).length 0 0, (rowLaw _ hr).cycles 0 0⟩

/-- A two-byte row is an `Encoding` line. -/
theorem encodes2 {mk : Byte → Instr} (h : opcodeRow op = some ⟨op, m, f, 2, cycles, e, fun b1 _ => mk b1⟩) :
    Encodes2 op mk cycles := by
  obtain ⟨hr, -⟩ := opcodeRow_eq_some_iff.1 h
  exact fun b1 => ⟨decode_take_row hr b1 0, (rowLaw _ hr).length b1 0, (rowLaw _ hr).cycles b1 0⟩

/-- A three-byte row is an `Encoding` line. -/
theorem encodes3 {mk : Addr → Instr} (h : opcodeRow op = some ⟨op, m, f, 3, cycles, e, fun b1 b2 => mk (word b1 b2)⟩) :
    Encodes3 op mk cycles := by
  obtain ⟨hr, -⟩ := opcodeRow_eq_some_iff.1 h
  exact fun b1 b2 => ⟨decode_take_row hr b1 b2, (rowLaw _ hr).length b1 b2, (rowLaw _ hr).cycles b1 b2⟩

end EncodingLine

/-! ## The obligations -/

/-- Settles O2: the bytes that decoding took are the encoding of what it made of them. -/
theorem encodeOfDecode : Obligations.EncodeOfDecode := by
  intro bs rest i h
  obtain ⟨op, b1, b2, rfl, rfl⟩ := decode_cases h
  exact ⟨instrOf_wellFormed op b1 b2, by rw [encode_instrOf]⟩

/-- Settles O3: each byte stands once among the opcodes of the rows and the illegal ones, and each row decodes as `decode_row`
says. -/
theorem opcodeMapTotal : Obligations.OpcodeMapTotal := by
  refine ⟨fun op => ?_, fun r hr b1 b2 rest => ⟨decode_row hr b1 b2 rest, (rowLaw r hr).wellFormed b1 b2⟩,
    fun op h rest => decode_illegal h rest⟩
  rw [← count_opcodeBytes, List.count_eq_one_of_mem opcodeBytes_nodup (mem_opcodeBytes op)]

end Sys2Proof.Machine
end

section
/-! Every well-formed instruction decodes from its encoding: the forms an instruction shares with others once for all of them,
the rest form by form (spec/30_encoding.md R101-R103, R107, R108). -/

namespace Sys2Proof.Machine

/-! ## Shared forms -/

/-- A three-byte instruction decodes from its opcode and its operand, low byte first (R103). -/
theorem Encodes3.decode_bytes3 {op : Byte} {mk : Addr → Instr} {cycles : Nat} (h : Encodes3 op mk cycles) (a : Addr)
    (rest : List Byte) : decode (bytes3 op a ++ rest) = .ok (mk a, rest) := by
  have hd := (h (loByte a) (hiByte a)).1 rest
  rwa [hiByte_append_loByte] at hd

section Forms

variable {acc imm zp zpx abs abx aby izx izy : Byte}

theorem AccForms.decode_encodeAcc {mk : Source → Instr} (h : AccForms mk imm zp zpx abs abx aby izx izy) {src : Source}
    (hs : src.accForm = true) (rest : List Byte) :
    decode (encodeAcc imm zp zpx abs abx aby izx izy src ++ rest) = .ok (mk src, rest) := by
  obtain ⟨himm, hzp, hzpx, habs, habx, haby, hizx, hizy⟩ := h
  match src with
  | .imm v => exact (himm v).1 rest
  | .mem (.zp z) => exact (hzp z).1 rest
  | .mem (.zpx z) => exact (hzpx z).1 rest
  | .mem (.zpy _) => exact nomatch hs
  | .mem (.abs a) => exact habs.decode_bytes3 a rest
  | .mem (.abx a) => exact habx.decode_bytes3 a rest
  | .mem (.aby a) => exact haby.decode_bytes3 a rest
  | .mem (.izx z) => exact (hizx z).1 rest
  | .mem (.izy z) => exact (hizy z).1 rest

theorem RmwForms.decode_encodeRmw {mk : RmwMode → Instr} (h : RmwForms mk zp zpx abs abx) (m : RmwMode) (rest : List Byte) :
    decode (encodeRmw zp zpx abs abx m ++ rest) = .ok (mk m, rest) := by
  obtain ⟨hzp, hzpx, habs, habx⟩ := h
  cases m with
  | zp z => exact (hzp z).1 rest
  | zpx z => exact (hzpx z).1 rest
  | abs a => exact habs.decode_bytes3 a rest
  | abx a => exact habx.decode_bytes3 a rest

theorem decode_encodeShift {mk : ShiftOperand → Instr} (hacc : Encodes1 acc (mk .acc) 2)
    (hmem : RmwForms (fun m => mk (.mem m)) zp zpx abs abx) (opd : ShiftOperand) (rest : List Byte) :
    decode (encodeShift acc zp zpx abs abx opd ++ rest) = .ok (mk opd, rest) := by
  cases opd with
  | acc => exact hacc.1 rest
  | mem m => exact hmem.decode_encodeRmw m rest

theorem decode_encodeIndexCompare {mk : Source → Instr} (himm : Encodes2 imm (fun v => mk (.imm v)) 2)
    (hzp : Encodes2 zp (fun z => mk (.mem (.zp z))) 3) (habs : Encodes3 abs (fun a => mk (.mem (.abs a))) 4) {src : Source}
    (hs : src.indexCompareForm = true) (rest : List Byte) :
    decode (encodeIndexCompare imm zp abs src ++ rest) = .ok (mk src, rest) := by
  match src with
  | .imm v => exact (himm v).1 rest
  | .mem (.zp z) => exact (hzp z).1 rest
  | .mem (.abs a) => exact habs.decode_bytes3 a rest
  | .mem (.zpx _) | .mem (.zpy _) | .mem (.abx _) | .mem (.aby _) | .mem (.izx _) | .mem (.izy _) => exact nomatch hs

end Forms

/-! ## The `Encoding` lines of the instructions that share their forms -/

theorem accForms_lda : AccForms .lda 0xA9 0xA5 0xB5 0xAD 0xBD 0xB9 0xA1 0xB1 :=
  ⟨encodes2 rfl, encodes2 rfl, encodes2 rfl, encodes3 rfl, encodes3 rfl, encodes3 rfl, encodes2 rfl, encodes2 rfl⟩

theorem accForms_adc : AccForms .adc 0x69 0x65 0x75 0x6D 0x7D 0x79 0x61 0x71 :=
  ⟨encodes2 rfl, encodes2 rfl, encodes2 rfl, encodes3 rfl, encodes3 rfl, encodes3 rfl, encodes2 rfl, encodes2 rfl⟩

theorem accForms_sbc : AccForms .sbc 0xE9 0xE5 0xF5 0xED 0xFD 0xF9 0xE1 0xF1 :=
  ⟨encodes2 rfl, encodes2 rfl, encodes2 rfl, encodes3 rfl, encodes3 rfl, encodes3 rfl, encodes2 rfl, encodes2 rfl⟩

theorem accForms_and : AccForms .and 0x29 0x25 0x35 0x2D 0x3D 0x39 0x21 0x31 :=
  ⟨encodes2 rfl, encodes2 rfl, encodes2 rfl, encodes3 rfl, encodes3 rfl, encodes3 rfl, encodes2 rfl, encodes2 rfl⟩

theorem accForms_ora : AccForms .ora 0x09 0x05 0x15 0x0D 0x1D 0x19 0x01 0x11 :=
  ⟨encodes2 rfl, encodes2 rfl, encodes2 rfl, encodes3 rfl, encodes3 rfl, encodes3 rfl, encodes2 rfl, encodes2 rfl⟩

theorem accForms_eor : AccForms .eor 0x49 0x45 0x55 0x4D 0x5D 0x59 0x41 0x51 :=
  ⟨encodes2 rfl, encodes2 rfl, encodes2 rfl, encodes3 rfl, encodes3 rfl, encodes3 rfl, encodes2 rfl, encodes2 rfl⟩

theorem accForms_cmp : AccForms .cmp 0xC9 0xC5 0xD5 0xCD 0xDD 0xD9 0xC1 0xD1 :=
  ⟨encodes2 rfl, encodes2 rfl, encodes2 rfl, encodes3 rfl, encodes3 rfl, encodes3 rfl, encodes2 rfl, encodes2 rfl⟩

theorem rmwForms_inc : RmwForms .inc 0xE6 0xF6 0xEE 0xFE := ⟨encodes2 rfl, encodes2 rfl, encodes3 rfl, encodes3 rfl⟩

theorem rmwForms_dec : RmwForms .dec 0xC6 0xD6 0xCE 0xDE := ⟨encodes2 rfl, encodes2 rfl, encodes3 rfl, encodes3 rfl⟩

theorem rmwForms_asl : RmwForms (fun m => .asl (.mem m)) 0x06 0x16 0x0E 0x1E :=
  ⟨encodes2 rfl, encodes2 rfl, encodes3 rfl, encodes3 rfl⟩

theorem rmwForms_lsr : RmwForms (fun m => .lsr (.mem m)) 0x46 0x56 0x4E 0x5E :=
  ⟨encodes2 rfl, encodes2 rfl, encodes3 rfl, encodes3 rfl⟩

theorem rmwForms_rol : RmwForms (fun m => .rol (.mem m)) 0x26 0x36 0x2E 0x3E :=
  ⟨encodes2 rfl, encodes2 rfl, encodes3 rfl, encodes3 rfl⟩

theorem rmwForms_ror : RmwForms (fun m => .ror (.mem m)) 0x66 0x76 0x6E 0x7E :=
  ⟨encodes2 rfl, encodes2 rfl, encodes3 rfl, encodes3 rfl⟩

/-! ## The instructions with forms of their own -/

theorem decode_encode_ldx {src : Source} (hs : src.ldxForm = true) (rest : List Byte) :
    decode (encode (.ldx src) ++ rest) = .ok (.ldx src, rest) := by
  match src with
  | .imm _ | .mem (.zp _) | .mem (.zpy _) => rfl
  | .mem (.abs a) => exact (encodes3 (op := 0xAE) (mk := fun a => .ldx (.mem (.abs a))) rfl).decode_bytes3 a rest
  | .mem (.aby a) => exact (encodes3 (op := 0xBE) (mk := fun a => .ldx (.mem (.aby a))) rfl).decode_bytes3 a rest
  | .mem (.zpx _) | .mem (.abx _) | .mem (.izx _) | .mem (.izy _) => exact nomatch hs

theorem decode_encode_ldy {src : Source} (hs : src.ldyForm = true) (rest : List Byte) :
    decode (encode (.ldy src) ++ rest) = .ok (.ldy src, rest) := by
  match src with
  | .imm _ | .mem (.zp _) | .mem (.zpx _) => rfl
  | .mem (.abs a) => exact (encodes3 (op := 0xAC) (mk := fun a => .ldy (.mem (.abs a))) rfl).decode_bytes3 a rest
  | .mem (.abx a) => exact (encodes3 (op := 0xBC) (mk := fun a => .ldy (.mem (.abx a))) rfl).decode_bytes3 a rest
  | .mem (.zpy _) | .mem (.aby _) | .mem (.izx _) | .mem (.izy _) => exact nomatch hs

theorem decode_encode_sta {dst : MemMode} (hd : dst.staForm = true) (rest : List Byte) :
    decode (encode (.sta dst) ++ rest) = .ok (.sta dst, rest) := by
  match dst with
  | .zp _ | .zpx _ | .izx _ | .izy _ => rfl
  | .abs a => exact (encodes3 (op := 0x8D) (mk := fun a => .sta (.abs a)) rfl).decode_bytes3 a rest
  | .abx a => exact (encodes3 (op := 0x9D) (mk := fun a => .sta (.abx a)) rfl).decode_bytes3 a rest
  | .aby a => exact (encodes3 (op := 0x99) (mk := fun a => .sta (.aby a)) rfl).decode_bytes3 a rest
  | .zpy _ => exact nomatch hd

theorem decode_encode_stx {dst : MemMode} (hd : dst.stxForm = true) (rest : List Byte) :
    decode (encode (.stx dst) ++ rest) = .ok (.stx dst, rest) := by
  match dst with
  | .zp _ | .zpy _ => rfl
  | .abs a => exact (encodes3 (op := 0x8E) (mk := fun a => .stx (.abs a)) rfl).decode_bytes3 a rest
  | .zpx _ | .abx _ | .aby _ | .izx _ | .izy _ => exact nomatch hd

theorem decode_encode_sty {dst : MemMode} (hd : dst.styForm = true) (rest : List Byte) :
    decode (encode (.sty dst) ++ rest) = .ok (.sty dst, rest) := by
  match dst with
  | .zp _ | .zpx _ => rfl
  | .abs a => exact (encodes3 (op := 0x8C) (mk := fun a => .sty (.abs a)) rfl).decode_bytes3 a rest
  | .zpy _ | .abx _ | .aby _ | .izx _ | .izy _ => exact nomatch hd

theorem decode_encode_bit {m : MemMode} (hm : m.bitForm = true) (rest : List Byte) :
    decode (encode (.bit m) ++ rest) = .ok (.bit m, rest) := by
  match m with
  | .zp _ => rfl
  | .abs a => exact (encodes3 (op := 0x2C) (mk := fun a => .bit (.abs a)) rfl).decode_bytes3 a rest
  | .zpx _ | .zpy _ | .abx _ | .aby _ | .izx _ | .izy _ => exact nomatch hm

/-- Settles O1: instruction by instruction, by the forms it shares with others or by its own. -/
theorem decodeOfEncode : Obligations.DecodeOfEncode := by
  intro i rest hw
  cases i with
  | lda src => exact accForms_lda.decode_encodeAcc hw rest
  | adc src => exact accForms_adc.decode_encodeAcc hw rest
  | sbc src => exact accForms_sbc.decode_encodeAcc hw rest
  | and src => exact accForms_and.decode_encodeAcc hw rest
  | ora src => exact accForms_ora.decode_encodeAcc hw rest
  | eor src => exact accForms_eor.decode_encodeAcc hw rest
  | cmp src => exact accForms_cmp.decode_encodeAcc hw rest
  | cpx src | cpy src => exact decode_encodeIndexCompare (encodes2 rfl) (encodes2 rfl) (encodes3 rfl) hw rest
  | ldx src => exact decode_encode_ldx hw rest
  | ldy src => exact decode_encode_ldy hw rest
  | sta dst => exact decode_encode_sta hw rest
  | stx dst => exact decode_encode_stx hw rest
  | sty dst => exact decode_encode_sty hw rest
  | bit m => exact decode_encode_bit hw rest
  | inc m => exact rmwForms_inc.decode_encodeRmw m rest
  | dec m => exact rmwForms_dec.decode_encodeRmw m rest
  | asl opd => exact decode_encodeShift (encodes1 rfl) rmwForms_asl opd rest
  | lsr opd => exact decode_encodeShift (encodes1 rfl) rmwForms_lsr opd rest
  | rol opd => exact decode_encodeShift (encodes1 rfl) rmwForms_rol opd rest
  | ror opd => exact decode_encodeShift (encodes1 rfl) rmwForms_ror opd rest
  | jmpAbs a | jmpInd a | jsr a => exact Encodes3.decode_bytes3 (encodes3 rfl) a rest
  | bpl rel | bmi rel | bvc rel | bvs rel | bcc rel | bcs rel | bne rel | beq rel => rfl
  | tax | tay | txa | tya | tsx | txs | pha | php | pla | plp | inx | iny | dex | dey | rts | rti | brk
  | clc | sec | cli | sei | clv | cld | sed | nop => rfl
  | illegal op => exact decode_illegal (List.contains_iff_mem.1 hw) rest

/-- Settles O5, by decoding the words. -/
theorem sampleWordsDecode : Obligations.SampleWordsDecode :=
  ⟨rfl, rfl, rfl, rfl, rfl, rfl, rfl, rfl, rfl, rfl, rfl, rfl, rfl⟩

end Sys2Proof.Machine
end

section
/-! What an instruction costs: every shape moves the clock by the base cycles and R136's addition, and the opcode table's columns
say both (spec/30_encoding.md R112, spec/40_interpreter.md R136). -/

namespace Sys2Proof.Machine

section Shapes

variable {i : Instr} {s s' : State}

theorem readInstr_clock {src : Source} {f : Byte → State → State} (h : answer (readInstr i src f s) = .next s')
    (hf : ∀ m s, (f m s).clock = s.clock) : s'.clock = s.clock + (baseCycles i + readExtra s src : Nat) := by
  obtain ⟨m, w, rfl⟩ := readInstr_frame h
  rw [State.retireInstr_clock, hf]

theorem addInstr_clock {src : Source} {sum : Byte → Byte → Bool → AluOut} (h : answer (addInstr i src sum s) = .next s') :
    s'.clock = s.clock + (baseCycles i + readExtra s src : Nat) := by
  obtain ⟨r, w, rfl⟩ := addInstr_frame h
  rfl

theorem storeInstr_clock {dst : MemMode} {v : Byte} (h : answer (storeInstr i dst v s) = .next s') :
    s'.clock = s.clock + (baseCycles i : Nat) := by
  obtain ⟨ram, sram, bank, warning, sound, apuLog, rfl⟩ := storeInstr_frame h
  rfl

theorem rmwInstr_clock {m : RmwMode} {f : Byte → Byte} {g : Byte → State → State}
    (h : answer (rmwInstr i m f g s) = .next s') (hg : ∀ old s, (g old s).clock = s.clock) :
    s'.clock = s.clock + (baseCycles i : Nat) := by
  obtain ⟨old, ram, sram, bank, warning, sound, apuLog, rfl⟩ := rmwInstr_frame h
  rw [State.retireInstr_clock, hg, Nat.add_zero]

theorem shiftInstr_clock {opd : ShiftOperand} {f : Byte → Bool → Byte × Bool}
    (h : answer (shiftInstr i opd f s) = .next s') : s'.clock = s.clock + (baseCycles i : Nat) := by
  cases opd with
  | acc =>
    cases h
    rfl
  | mem m =>
    rw [shiftInstr] at h
    exact rmwInstr_clock h fun _ _ => rfl

theorem branchInstr_clock {cond : Bool} {rel : Byte} (h : answer (branchInstr i cond rel s) = .next s')
    (hl : instrLength i = 2) : s'.clock = s.clock + (baseCycles i + branchExtra s cond rel : Nat) := by
  cases cond with
  | false =>
    cases h
    rfl
  | true =>
    cases h
    simp [hl, branchExtra, crossed, Nat.add_assoc]

end Shapes

/-- The forms of CPX and CPY cross no page. -/
theorem readExtra_of_indexCompareForm (s : State) {src : Source} (h : src.indexCompareForm = true) : readExtra s src = 0 := by
  match src with
  | .imm _ | .mem (.zp _) | .mem (.abs _) => rfl
  | .mem (.zpx _) | .mem (.zpy _) | .mem (.abx _) | .mem (.aby _) | .mem (.izx _) | .mem (.izy _) => exact nomatch h

/-- The forms of BIT cross no page. -/
theorem readExtra_of_bitForm (s : State) {m : MemMode} (h : m.bitForm = true) : readExtra s (.mem m) = 0 := by
  match m with
  | .zp _ | .abs _ => rfl
  | .zpx _ | .zpy _ | .abx _ | .aby _ | .izx _ | .izy _ => exact nomatch h

/-- A well-formed instruction takes its base cycles and R136's addition: by the shape it shares with others, or by its exact
result. -/
theorem exec_clock {i : Instr} {s s' : State} (hw : i.wellFormed = true) (h : exec i s = .next s') :
    s'.clock = s.clock + (baseCycles i + extraOf s i : Nat) := by
  cases i with
  | lda src | ldx src | ldy src | and src | ora src | eor src | cmp src => exact readInstr_clock h fun _ _ => rfl
  | cpx src | cpy src =>
    have hc := readInstr_clock h fun _ _ => rfl
    rwa [readExtra_of_indexCompareForm s hw] at hc
  | bit m =>
    have hc := readInstr_clock h fun _ _ => rfl
    rwa [readExtra_of_bitForm s hw] at hc
  | adc src | sbc src => exact addInstr_clock h
  | sta dst | stx dst | sty dst => exact storeInstr_clock h
  | inc m | dec m => exact rmwInstr_clock h fun _ _ => rfl
  | asl opd | lsr opd | rol opd | ror opd => exact shiftInstr_clock h
  | bpl rel | bmi rel | bvc rel | bvs rel | bcc rel | bcs rel | bne rel | beq rel => exact branchInstr_clock h rfl
  | tax | tay | txa | tya | tsx | txs | inx | iny | dex | dey | clc | sec | cli | sei | clv | cld | sed | nop
  | jmpAbs target | illegal op =>
    cases h
    rfl
  | jmpInd ptr =>
    obtain ⟨pc, w, rfl⟩ := execJmpInd_frame h
    rfl
  | pha | php | pla | plp =>
    simp only [exec, execPha, execPhp, execPla, execPlp, push_ok, pull_ok, ok_bind, pure_eq_ok, answer_ok,
      Host.Outcome.next.injEq] at h
    subst h
    rfl
  | jsr target | rts | rti =>
    simp only [exec, execJsr, execRts, execRti, pushWord_ok, pullWord_ok, returnFromInterrupt_ok, ok_bind, pure_eq_ok,
      answer_ok, Host.Outcome.next.injEq] at h
    subst h
    rfl
  | brk =>
    simp only [exec, execBrk, enterInterrupt_ok _ _ _ _ (show 0x8000 ≤ irqVector.toNat by decide)
      (show irqVector.toNat < 0xFFFF by decide), ok_bind, pure_eq_ok, answer_ok, Host.Outcome.next.injEq] at h
    subst h
    rfl

/-- The addressing modes of the rows with extra cycles (R136, R464). -/
theorem row_extra_format : ∀ r ∈ opcodeRows,
    (r.extra = .ifCrossed → r.format = .abx ∨ r.format = .aby ∨ r.format = .izy) ∧ (r.extra = .ifTaken ↔ r.format = .rel) := by
  decide +kernel

/-- A documented row's instruction takes the row's cycles and what its extra_cycles column says. -/
theorem exec_row_clock {r : Row} (hr : r ∈ opcodeRows) {b1 b2 : Byte} {s s' : State} (h : exec (r.make b1 b2) s = .next s') :
    s'.clock = s.clock + r.cycles + columnExtra s r b1 b2 := by
  have law := rowLaw r hr
  rw [exec_clock (law.wellFormed b1 b2) h, law.cycles, law.extra, Nat.cast_add, Int.add_assoc]

/-- Settles O4: the columns by the law each row obeys, the clock by `exec_clock`. -/
theorem tableColumns : Obligations.TableColumns := by
  refine ⟨fun r hr b1 b2 => ?_, fun op => ⟨rfl, rfl, fun s s' h => ?_⟩⟩
  · have law := rowLaw r hr
    obtain ⟨hpos, hle⟩ := row_length_bounds r hr
    obtain ⟨hcrossed, htaken⟩ := row_extra_format r hr
    exact ⟨law.length b1 b2, law.cycles b1 b2, hpos, hle, hcrossed, htaken, fun s => law.extra s b1 b2,
      fun s s' h => exec_row_clock hr h⟩
  · cases h
    rfl

end Sys2Proof.Machine
end

section
/-! The interrupt inputs: no agent of the block drives them, so that once inactive they stay so, and no boundary takes an interrupt
(spec/40_interpreter.md R144, spec/60_exceptions.md R403, R404). -/

namespace Sys2Proof.Machine

section Lines

variable {s s' : State}

theorem LinesQuiet.interruptPending (hq : LinesQuiet s) : s.interruptPending = false := by
  obtain ⟨hirq, hnmi⟩ := hq
  simp [State.interruptPending, hirq, hnmi]

/-- The interrupt inputs lie beyond the CPU. -/
theorem linesQuiet_beyondCpu (s : State) : LinesQuiet s.beyondCpu ↔ LinesQuiet s := Iff.rfl

theorem cpuStep_linesQuiet {r : StepResult} (hq : LinesQuiet s) (h : cpuStep s = .next (r, s')) : LinesQuiet s' := by
  rw [← linesQuiet_beyondCpu, cpuStep_beyondCpu h]
  exact hq

/-- A turn of the run loop with both inputs inactive is no interrupt entry, and leaves them so. -/
theorem boundary_linesQuiet {endClock : Option Int} {r : Option RunResult} (hq : LinesQuiet s)
    (h : boundary endClock s = .next (r, s')) : r ≠ some .interrupt ∧ LinesQuiet s' := by
  obtain ⟨-, ⟨-, rfl, rfl⟩ | ⟨-, -, rfl, rfl⟩ | ⟨-, -, hp, -⟩ | ⟨-, -, -, sr, hs, rfl⟩⟩ := boundary_cases h
  · exact ⟨by simp, hq⟩
  · exact ⟨by simp, hq⟩
  · exact absurd hp (by simp [hq.interruptPending])
  · exact ⟨by cases sr <;> simp [endOfStep], cpuStep_linesQuiet hq hs⟩

/-! ## The Coordinator's turns -/

theorem leaveFrame_linesQuiet {length : ℕ+} {need : Option Nat} (hq : LinesQuiet s) (h : leaveFrame s length need = .ok s') :
    LinesQuiet s' := by
  simp only [leaveFrame, rebase, bind_eq_ok, pure_eq_ok, Except.ok.injEq] at h
  obtain ⟨s1, ⟨w, -, rfl⟩, h⟩ := h
  cases need <;> cases h <;> exact hq

theorem playEntry_linesQuiet (hq : LinesQuiet s) (h : playEntry s = .ok s') : LinesQuiet s' := by
  unfold playEntry at h
  split at h
  · cases h
  · simp only [pushSentinel_ok, ok_bind, pure_eq_ok, Except.ok.injEq] at h
    subst h
    exact hq

theorem initTurn_linesQuiet (hq : LinesQuiet s) (h : initTurn s = .next s') : LinesQuiet s' := by
  obtain ⟨r, s1, hb, ⟨-, rfl⟩ | ⟨-, rfl⟩ | ⟨-, -, rfl⟩⟩ := initTurn_cases h
  all_goals exact (boundary_linesQuiet hq hb).2

theorem frameTurn_linesQuiet {length : ℕ+} {need : Option Nat} (hq : LinesQuiet s) (h : frameTurn s length need = .next s') :
    LinesQuiet s' := by
  obtain ⟨-, ⟨-, hl⟩ | ⟨-, -, hp⟩ | ⟨-, -, rfl⟩⟩ | ⟨-, r, s1, hb, hr⟩ := frameTurn_cases h
  · exact leaveFrame_linesQuiet hq hl
  · exact playEntry_linesQuiet hq hp
  · exact hq
  · have hq1 := (boundary_linesQuiet hq hb).2
    obtain ⟨-, hl⟩ | ⟨-, rfl⟩ | ⟨-, -, rfl⟩ := hr
    · exact leaveFrame_linesQuiet hq1 hl
    · exact hq1
    · exact hq1

theorem playTurn_linesQuiet {need : Nat} (hq : LinesQuiet s) (h : playTurn s need = .ok s') : LinesQuiet s' := by
  unfold playTurn at h
  split at h
  · cases h
    exact hq
  · simp only [bind_eq_ok, pure_eq_ok, Except.ok.injEq, Prod.exists] at h
    obtain ⟨pcm, w, -, rfl⟩ := h
    exact hq

/-! ## The host calls -/

/-- `start_track` clears a latched NMI and leaves the level of IRQ_LINE (log entry 25). -/
theorem startTrack_linesQuiet {n : Nat} (hq : LinesQuiet s) (h : startTrack s n = .ok s') : LinesQuiet s' := by
  unfold startTrack at h
  split at h
  · cases h
    exact hq
  · split at h
    · cases h
      exact hq
    · rw [startTrackSteps_ok] at h
      cases h
      exact ⟨hq.1, rfl⟩

theorem hostCall_linesQuiet {call : HostCall} (hq : LinesQuiet s) (h : hostCall s call = .ok s') : LinesQuiet s' := by
  cases call with
  | startTrack n => exact startTrack_linesQuiet hq h
  | setSampleRate rate =>
    cases h
    unfold setSampleRate
    split <;> exact hq
  | endFrame length =>
    cases h
    unfold endFrame
    split <;> exact hq
  | play count =>
    cases h
    unfold play
    split
    · exact hq
    · split <;> exact hq
  | muteVoice i on =>
    cases h
    unfold muteVoice
    split <;> exact hq
  | setTempo t | warning =>
    cases h
    exact hq

theorem step_linesQuiet (hq : LinesQuiet s) (h : step s = .next s') : LinesQuiet s' := by
  obtain ⟨-, -, rfl⟩ | ⟨-, call, rest, -, hh⟩ | ⟨-, hi⟩ | ⟨length, need, -, hf⟩ | ⟨need, -, hp⟩ := step_cases h
  · exact hq
  · exact hostCall_linesQuiet (s := { s with calls := rest }) hq hh
  · exact initTurn_linesQuiet hq hi
  · exact frameTurn_linesQuiet hq hf
  · exact playTurn_linesQuiet hq hp

end Lines

/-- Settles O13: the inputs by the turns of the block, the boundary because no interrupt is pending. -/
theorem linesStayQuiet : Obligations.LinesStayQuiet :=
  ⟨fun _ _ hq h => step_linesQuiet hq h, fun _ _ _ _ hq h => (boundary_linesQuiet hq h).1⟩

end Sys2Proof.Machine
end

section
/-! The fetch: which of three things the opcode at PC makes it find, and that away from the sound chip it finds what the map shows
(spec/40_interpreter.md R132, R133, R137, R138). -/

namespace Sys2Proof.Machine

/-! ## The instruction that three bytes decode to -/

/-- Three bytes always decode: to the instruction of the first, with the other two for operands. -/
theorem decode_three (op b1 b2 : Byte) :
    decode [op, b1, b2] = .ok (instrOf op b1 b2, [op, b1, b2].drop (opcodeLength op)) := by
  have h := decode_take op b1 b2 ([op, b1, b2].drop (opcodeLength op))
  rwa [List.take_append_drop] at h

/-- No documented row makes an illegal instruction: its encoding would begin with a documented opcode and be well-formed. -/
theorem isIllegal_make {r : Row} (hr : r ∈ opcodeRows) (b1 b2 : Byte) : isIllegal (r.make b1 b2) = false := by
  have hwf := (rowLaw r hr).wellFormed b1 b2
  have henc := encode_make hr b1 b2
  cases hi : r.make b1 b2 with
  | illegal op =>
    rw [hi] at hwf henc
    have hop : op ∈ illegalOpcodes := List.contains_iff_mem.1 hwf
    have hsame : op = r.opcode := by
      obtain h | h | h := row_length_cases hr
      · simpa [encode, h] using henc
      · simp [encode, h] at henc
      · simp [encode, h] at henc
    have hnone := opcodeRow_eq_none_iff.2 hop
    rw [hsame, opcodeRow_eq_some_iff.2 ⟨hr, rfl⟩] at hnone
    cases hnone
  | _ => rfl

/-! ## The fetch -/

section Fetch

variable {s s1 : State} {op : Byte} {r : Row}

/-- An illegal opcode is found at once (R133, R137). -/
theorem fetch_illegal (h : memRead s s.pc s.clock = .ok (op, s1)) (hop : op ∈ illegalOpcodes) :
    fetch s = .ok (.instr (.illegal op), s1) := by
  simp [fetch, h, opcodeRow_eq_none_iff.2 hop]

/-- A documented opcode whose instruction would pass 0xFFFF is a wrap, and no operand byte is fetched (R138). -/
theorem fetch_wrapped (h : memRead s s.pc s.clock = .ok (op, s1)) (hr : r ∈ opcodeRows) (hop : r.opcode = op)
    (hlen : 0x10000 ≤ s.pc.toNat + r.length) : fetch s = .ok (.wrapped, s1) := by
  simp [fetch, h, opcodeRow_eq_some_iff.2 ⟨hr, hop⟩, hlen]

/-- A documented opcode whose instruction fits has its operand bytes fetched in rising order (R132). -/
theorem fetch_row {s2 s3 : State} {b1 b2 : Byte} (h : memRead s s.pc s.clock = .ok (op, s1)) (hr : r ∈ opcodeRows)
    (hop : r.opcode = op) (hlen : s.pc.toNat + r.length < 0x10000)
    (h1 : fetchOperand s1 1 r.length s.pc s.clock = .ok (b1, s2))
    (h2 : fetchOperand s2 2 r.length s.pc s.clock = .ok (b2, s3)) : fetch s = .ok (.instr (r.make b1 b2), s3) := by
  simp [fetch, h, opcodeRow_eq_some_iff.2 ⟨hr, hop⟩, hlen, h1, h2]

/-- What a fetch finds: an illegal opcode, a documented one that would wrap, or a documented instruction. -/
theorem fetch_cases {f : Fetched} (h : fetch s = .ok (f, s1)) :
    ∃ op s0, memRead s s.pc s.clock = .ok (op, s0) ∧
      ((op ∈ illegalOpcodes ∧ f = .instr (.illegal op)) ∨
       (∃ r ∈ opcodeRows, r.opcode = op ∧
         ((0x10000 ≤ s.pc.toNat + r.length ∧ f = .wrapped) ∨ ∃ b1 b2, f = .instr (r.make b1 b2)))) := by
  simp only [fetch, bind_eq_ok, Prod.exists] at h
  obtain ⟨op, s0, hm, h⟩ := h
  refine ⟨op, s0, hm, ?_⟩
  split at h
  · rename_i hrow
    cases h
    exact .inl ⟨opcodeRow_eq_none_iff.1 hrow, rfl⟩
  · rename_i r hrow
    obtain ⟨hr, hop⟩ := opcodeRow_eq_some_iff.1 hrow
    refine .inr ⟨r, hr, hop, ?_⟩
    split at h
    · rename_i hlen
      cases h
      exact .inl ⟨hlen, rfl⟩
    · simp only [bind_eq_ok, Prod.exists] at h
      obtain ⟨b1, s2, -, b2, s3, -, h⟩ := h
      cases h
      exact .inr ⟨b1, b2, rfl⟩

/-- An operand byte away from the sound chip's status register is what the map shows. -/
theorem fetchOperand_quiet (s : State) {k len : Nat} {pc : Addr} (t : Int)
    (h : k < len → pc + BitVec.ofNat 16 k ≠ apuStatusAddr) :
    fetchOperand s k len pc t = .ok (if k < len then s.peek (pc + BitVec.ofNat 16 k) else 0x00, s) := by
  unfold fetchOperand
  split
  · rename_i hk
    exact memRead_quiet s t (h hk)
  · rfl

/-- Away from the sound chip's status register, a fetch finds the instruction that the map shows at PC, or the wrap, and changes
nothing (R132, R133). -/
theorem fetch_quiet (s : State)
    (hq : ∀ k, k < opcodeLength (s.peek s.pc) → s.pc + BitVec.ofNat 16 k ≠ apuStatusAddr) :
    fetch s =
      .ok (if s.peek s.pc ∈ illegalOpcodes ∨ s.pc.toNat + opcodeLength (s.peek s.pc) < 0x10000 then
          .instr (instrOf (s.peek s.pc) (s.peek (s.pc + 1)) (s.peek (s.pc + 2)))
        else .wrapped, s) := by
  have hpos : 0 < opcodeLength (s.peek s.pc) := by
    have := opcodeLength_cases (s.peek s.pc)
    omega
  have hm := memRead_quiet s s.clock (a := s.pc) (by simpa using hq 0 hpos)
  obtain ⟨r, hr, hop, hlen, hi⟩ | ⟨hop, -, hi⟩ := opcode_cases (s.peek s.pc)
  · have hdoc : s.peek s.pc ∉ illegalOpcodes := by
      rw [← opcodeRow_eq_none_iff, opcodeRow_eq_some_iff.2 ⟨hr, hop⟩]
      simp
    rw [hlen] at hq
    by_cases hfit : s.pc.toNat + r.length < 0x10000
    · rw [hlen, if_pos (.inr hfit), hi, (rowLaw r hr).operands]
      exact fetch_row hm hr hop hfit (fetchOperand_quiet s s.clock (hq 1)) (fetchOperand_quiet s s.clock (hq 2))
    · rw [fetch_wrapped hm hr hop (by omega), hlen, if_neg (by tauto)]
  · rw [fetch_illegal hm hop, if_pos (.inl hop), hi]

end Fetch

/-! ## The instruction of three bytes, by its opcode -/

theorem instrLength_instrOf (op b1 b2 : Byte) : instrLength (instrOf op b1 b2) = opcodeLength op := by
  obtain ⟨r, hr, -, hlen, hi⟩ | ⟨-, hlen, hi⟩ := opcode_cases op
  · rw [hi, hlen, (rowLaw r hr).length]
  · rw [hi, hlen]
    rfl

theorem isIllegal_instrOf (op b1 b2 : Byte) : isIllegal (instrOf op b1 b2) = true ↔ op ∈ illegalOpcodes := by
  obtain ⟨r, hr, hop, -, hi⟩ | ⟨hop, -, hi⟩ := opcode_cases op
  · rw [hi, isIllegal_make hr, ← opcodeRow_eq_none_iff, opcodeRow_eq_some_iff.2 ⟨hr, hop⟩]
    simp
  · rw [hi]
    exact iff_of_true rfl hop

/-- Settles O7: what the fetch finds by `fetch_quiet`, what it changes by its frame. -/
theorem fetchReadsTheBytes : Obligations.FetchReadsTheBytes := by
  refine ⟨fun s i rest hd hq => ?_, fun s s1 f h => fetch_frame h⟩
  rw [decode_three] at hd
  cases hd
  simp only [instrLength_instrOf, isIllegal_instrOf] at hq ⊢
  exact fetch_quiet s hq

end Sys2Proof.Machine
end

section
/-! The CPU step and the run loop, each case said once as an equation: what a CPU step makes of what the fetch finds, in which order
a boundary makes its checks, and how turns make a run (spec/40_interpreter.md R131, R132, R137-R140). -/

namespace Sys2Proof.Machine

/-! ## A CPU step -/

section CpuStep

variable {s s1 : State}

theorem cpuStep_of_wrapped (h : fetch s = .ok (.wrapped, s1)) : cpuStep s = .next (.wrap, corruptionNoop s1 .pcWrap) := by
  simp [cpuStep, h]

theorem cpuStep_of_instr {i : Instr} (h : fetch s = .ok (.instr i, s1)) :
    cpuStep s = andThen (exec i s1) fun s2 => .next (resultOf i, s2) := by
  simp [cpuStep, h]

theorem exec_illegal (op : Byte) (s : State) : exec (.illegal op) s = .next (corruptionNoop s .illegalOpcode) := rfl

theorem resultOf_ne_wrap (i : Instr) : resultOf i ≠ .wrap := by cases i <;> simp [resultOf]

/-- A corruption no-op after a read at PC counts from the PC and the clock before the read, which no read moves. -/
theorem corruptionNoop_of_memRead {a : Addr} {t : Int} {v : Byte} (h : memRead s a t = .ok (v, s1)) (w : Warning) :
    corruptionNoop s1 w = { s1 with corrupt := true, warning := some w, pc := s.pc + 1, clock := s.clock + 2 } := by
  rw [memRead_frame h]
  rfl

end CpuStep

/-- Settles O10: the fetch finds the wrap before the operands, and no instruction's own result is `Wrap`. -/
theorem wrapNoOp : Obligations.WrapNoOp := by
  refine ⟨fun s s1 op r hm hr hop hlen => ?_, fun s s' h => ?_⟩
  · rw [cpuStep_of_wrapped (fetch_wrapped hm hr hop hlen), corruptionNoop_of_memRead hm]
  · obtain ⟨w, ⟨hf, -, -⟩ | ⟨i, -, -, hr⟩⟩ := cpuStep_cases h
    · obtain ⟨op, s0, hm, ⟨-, hi⟩ | ⟨r, hr, hop, ⟨hlen, -⟩ | ⟨b1, b2, hi⟩⟩⟩ := fetch_cases hf
      · cases hi
      · exact ⟨op, s0, r, hm, hr, hop, hlen⟩
      · cases hi
    · exact absurd hr.symm (resultOf_ne_wrap i)

/-! ## A boundary -/

section Boundary

variable {s : State} {endClock : Option Int}

theorem boundary_of_idle (hm : s.mode ≠ .idle) (hp : s.pc = idleAddr) : boundary endClock s = .next (some .idle, s) := by
  simp [boundary, hm, hp]

theorem boundary_of_reached (hm : s.mode ≠ .idle) (hp : s.pc ≠ idleAddr) (he : reachedEnd s endClock = true) :
    boundary endClock s = .next (some .reached, s) := by
  simp [boundary, hm, hp, he]

theorem boundary_of_interrupt (hm : s.mode ≠ .idle) (hp : s.pc ≠ idleAddr) (he : reachedEnd s endClock = false)
    (hi : s.interruptPending = true) :
    boundary endClock s = andThen (answer (takeInterrupt s)) fun s1 => .next (some .interrupt, s1) := by
  simp [boundary, hm, hp, he, hi]

theorem boundary_of_step (hm : s.mode ≠ .idle) (hp : s.pc ≠ idleAddr) (he : reachedEnd s endClock = false)
    (hi : s.interruptPending = false) :
    boundary endClock s = andThen (cpuStep s) fun r => .next (endOfStep r.1, r.2) := by
  simp [boundary, hm, hp, he, hi]

/-- Where a turn lets the loop go on, it has executed one instruction before the end clock. -/
theorem boundary_goes_on {s' : State} {e : Int} (h : boundary (some e) s = .next (none, s')) :
    s.clock < e ∧ cpuStep s = .next (.ok, s') := by
  obtain ⟨-, ⟨-, hr, -⟩ | ⟨-, -, hr, -⟩ | ⟨-, -, -, hr, -⟩ | ⟨-, he, -, sr, hs, hr⟩⟩ := boundary_cases h
  · cases hr
  · cases hr
  · cases hr
  · cases sr with
    | ok => exact ⟨by simpa [reachedEnd] using he, hs⟩
    | illegal => cases hr
    | wrap => cases hr

/-- A turn that answers `Reached` finds the clock at the end or past it. -/
theorem boundary_reached_clock {s' : State} {e : Int} (h : boundary (some e) s = .next (some .reached, s')) :
    e ≤ s.clock := by
  obtain ⟨-, ⟨-, hr, -⟩ | ⟨-, he, -, -⟩ | ⟨-, -, -, hr, -⟩ | ⟨-, -, -, sr, -, hr⟩⟩ := boundary_cases h
  · cases hr
  · simpa [reachedEnd] using he
  · cases hr
  · cases sr <;> cases hr

end Boundary

/-! ## The run loop -/

section RunLoop

variable {fuel : Nat} {endClock : Option Int} {s s1 : State}

theorem run_of_result {r : RunResult} (h : boundary endClock s = .next (some r, s1)) :
    run (fuel + 1) endClock s = .next (some r, s1) := by
  simp [run, h, andThen]

theorem run_of_goes_on (h : boundary endClock s = .next (none, s1)) : run (fuel + 1) endClock s = run fuel endClock s1 := by
  simp [run, h, andThen]

/-- A run that has returned did so in its first turn, or that turn let the loop go on. -/
theorem run_succ_cases {r : RunResult} {s' : State} (h : run (fuel + 1) endClock s = .next (some r, s')) :
    boundary endClock s = .next (some r, s') ∨
      ∃ s1, boundary endClock s = .next (none, s1) ∧ run fuel endClock s1 = .next (some r, s') := by
  simp only [run, andThen_eq_next, Prod.exists] at h
  obtain ⟨q, s1, hb, h⟩ := h
  cases q with
  | none => exact .inr ⟨s1, hb, h⟩
  | some q =>
    cases h
    exact .inl hb

end RunLoop

/-- Settles O8: the four checks in their order, then what the turn's answer makes of the run. -/
theorem runLoop : Obligations.RunLoop := by
  intro fuel e s hm
  by_cases hp : s.pc = idleAddr
  · rw [if_pos hp]
    exact run_of_result (boundary_of_idle hm hp)
  by_cases hc : s.clock ≥ e
  · rw [if_neg hp, if_pos hc]
    exact run_of_result (boundary_of_reached hm hp (by simpa [reachedEnd] using hc))
  have he : reachedEnd s (some e) = false := by simpa [reachedEnd] using hc
  rw [if_neg hp, if_neg hc, run]
  by_cases hi : s.interruptPending = true
  · rw [if_pos hi, boundary_of_interrupt hm hp he hi]
    cases takeInterrupt s <;> rfl
  · rw [if_neg hi, boundary_of_step hm hp he (by simpa using hi)]
    cases hs : cpuStep s with
    | next a =>
      obtain ⟨sr, s1⟩ := a
      cases sr <;> rfl
    | fault f => rfl
    | refused r => rfl

/-- Settles O9: the no-op itself, the fetch that stops at the opcode byte, and the turn that answers `Illegal`. -/
theorem illegalOpcodeNoOp : Obligations.IllegalOpcodeNoOp := by
  refine ⟨fun s op => rfl, fun s s1 op hm hop => ?_, fun s s1 fuel e hm hp hc hi hs => ?_⟩
  · rw [cpuStep_of_instr (fetch_illegal hm hop), exec_illegal, corruptionNoop_of_memRead hm]
    rfl
  · refine run_of_result ?_
    rw [boundary_of_step hm hp (by simpa [reachedEnd] using hc) hi, hs]
    rfl

/-- Settles O11, by induction on the turns: the run was at its end at once, or its first turn executed an instruction before the
end clock, which is the last one if the rest of the run executed none. -/
theorem reachedOvershoot : Obligations.ReachedOvershoot := by
  intro fuel e s s' h
  induction fuel generalizing s with
  | zero => cases h
  | succ fuel ih =>
    obtain hb | ⟨s1, hb, hrun⟩ := run_succ_cases h
    · rw [boundary_reached hb]
      exact ⟨boundary_reached_clock hb, .inl rfl⟩
    · obtain ⟨hlt, hstep⟩ := boundary_goes_on hb
      obtain ⟨hle, hlast⟩ := ih s1 hrun
      refine ⟨hle, .inr ?_⟩
      obtain rfl | ⟨k, last, hk, hrunk, hlast⟩ := hlast
      · have hfuel : fuel ≠ 0 := by
          rintro rfl
          cases hrun
        exact ⟨0, s, by omega, rfl, hlt, hstep, by omega⟩
      · exact ⟨k + 1, last, by omega, (run_of_goes_on hb).trans hrunk, hlast⟩

/-! ## A step of the block -/

/-- A turn that goes on with the state whatever the CPU step's result adds nothing around the CPU step. -/
theorem turn_of_step {o : Answer (StepResult × State)} {f : Option RunResult × State → Answer State}
    (hf : ∀ sr s1, f (endOfStep sr, s1) = .next s1) :
    andThen (andThen o fun r => .next (endOfStep r.1, r.2)) f = andThen o fun r => .next r.2 := by
  cases o with
  | next a => exact hf a.1 a.2
  | fault e => rfl
  | refused q => rfl

/-- Where an instruction is next, be it in `RunInit` or in a frame, the Coordinator adds nothing to the CPU step: none of its
results ends the turn's loop (R354, R355). -/
theorem step_of_ready {s : State} (hr : Ready s) : step s = andThen (cpuStep s) fun r => .next r.2 := by
  obtain ⟨hm, hp, hi, ⟨ha, he⟩ | ⟨length, need, ha, hin, hc⟩⟩ := hr
  · simp only [step, blockStep, ha, initTurn, boundary_of_step hm hp he hi]
    exact turn_of_step fun sr _ => by cases sr <;> rfl
  · have he : reachedEnd s (some ((length : Nat) : Int)) = false := by simpa [reachedEnd] using hc
    simp only [step, blockStep, ha, frameTurn, if_neg hin, boundary_of_step hm hp he hi]
    exact turn_of_step fun sr _ => by cases sr <;> rfl

/-- A step that executes an instruction is the instruction's meaning on the state its fetch left. -/
theorem step_of_instr {s s1 : State} {i : Instr} (hr : Ready s) (h : fetch s = .ok (.instr i, s1)) : step s = exec i s1 := by
  rw [step_of_ready hr, cpuStep_of_instr h]
  cases exec i s1 <;> rfl

/-- Settles O6: the step by `step_of_instr`, the fetch by what O7 says of it. -/
theorem stepRunsInstruction : Obligations.StepRunsInstruction := by
  refine ⟨fun s i rest hr hd hq hfit => ?_, fun s s1 i hr h => step_of_instr hr h⟩
  have hf := fetchReadsTheBytes.1 s i rest hd hq
  rw [if_pos hfit] at hf
  exact step_of_instr hr hf

end Sys2Proof.Machine
end

section
/-! How much an instruction can cost (spec/40_interpreter.md R136). -/

namespace Sys2Proof.Machine

theorem readCycles_bounds (src : Source) : 2 ≤ readCycles src ∧ readCycles src ≤ 6 := by
  match src with
  | .imm _ | .mem (.zp _) | .mem (.zpx _) | .mem (.zpy _) | .mem (.abs _) | .mem (.abx _) | .mem (.aby _) | .mem (.izx _)
  | .mem (.izy _) => simp [readCycles]

theorem storeCycles_bounds (dst : MemMode) : 2 ≤ storeCycles dst ∧ storeCycles dst ≤ 7 := by
  cases dst <;> simp [storeCycles]

theorem rmwCycles_bounds (m : RmwMode) : 2 ≤ rmwCycles m ∧ rmwCycles m ≤ 7 := by cases m <;> simp [rmwCycles]

theorem shiftCycles_bounds (opd : ShiftOperand) : 2 ≤ shiftCycles opd ∧ shiftCycles opd ≤ 7 := by
  cases opd with
  | acc => simp [shiftCycles]
  | mem m => exact rmwCycles_bounds m

theorem readExtra_le (s : State) (src : Source) : readExtra s src ≤ 1 := by
  cases src with
  | imm v => simp [readExtra]
  | mem m =>
    simp only [readExtra]
    split <;> omega

/-- A read's addition is at most one, over at most six. -/
theorem readCost_bounds (s : State) (src : Source) :
    2 ≤ readCycles src + readExtra s src ∧ readCycles src + readExtra s src ≤ 7 := by
  have hb := readCycles_bounds src
  have he := readExtra_le s src
  omega

/-- A branch's addition is at most two, over two. -/
theorem branchCost_bounds (s : State) (taken : Bool) (rel : Byte) :
    2 ≤ 2 + branchExtra s taken rel ∧ 2 + branchExtra s taken rel ≤ 7 := by
  refine ⟨Nat.le_add_right 2 _, ?_⟩
  unfold branchExtra
  split
  · split <;> omega
  · omega

/-- Base cycles and `Extra` lie between two and seven clocks together; only reads and branches have an addition. -/
theorem cost_bounds (i : Instr) (s : State) : 2 ≤ baseCycles i + extraOf s i ∧ baseCycles i + extraOf s i ≤ 7 := by
  cases i with
  | lda src | ldx src | ldy src | and src | ora src | eor src | cmp src | adc src | sbc src => exact readCost_bounds s src
  | cpx src | cpy src =>
    have hb := readCycles_bounds src
    simp only [baseCycles, extraOf]
    omega
  | bit m =>
    have hb := readCycles_bounds (.mem m)
    simp only [baseCycles, extraOf]
    omega
  | sta dst | stx dst | sty dst => exact storeCycles_bounds dst
  | inc m | dec m => exact rmwCycles_bounds m
  | asl opd | lsr opd | rol opd | ror opd => exact shiftCycles_bounds opd
  | bpl rel | bmi rel | bvc rel | bvs rel | bcc rel | bcs rel | bne rel | beq rel => exact branchCost_bounds s _ rel
  | tax | tay | txa | tya | tsx | txs | inx | iny | dex | dey | clc | sec | cli | sei | clv | cld | sed | nop
  | pha | php | pla | plp | jmpAbs target | jmpInd ptr | jsr target | rts | rti | brk | illegal op =>
    simp [baseCycles, extraOf, minCost]

/-- Settles O16: the cost by `exec_clock`, its range by `cost_bounds`. -/
theorem instructionCost : Obligations.InstructionCost := by
  intro i s s' hw h
  have hc := exec_clock hw h
  have hb := cost_bounds i s
  omega

end Sys2Proof.Machine
end

section
/-! The sentinel on the stack: a routine that finds it there when it returns comes to IDLE_ADDR, where a boundary answers `Idle`
(spec/46_coordinator.md R353, spec/40_interpreter.md R140). -/

namespace Sys2Proof.Machine

/-- RTS, exactly: PC from the two bytes it pulls, plus one (R243). -/
theorem exec_rts (s : State) :
    exec .rts s =
      .next (State.jump { s with sp := s.sp + 1 + 1 }
        (word (s.ram.read (stackOffset (s.sp + 1))) (s.ram.read (stackOffset (s.sp + 1 + 1))) + 1) (baseCycles .rts)) := by
  simp only [exec, execRts, pullWord_ok, ok_bind, pure_eq_ok, answer_ok]

theorem stackOffset_pred_ne (sp : Byte) : stackOffset sp ≠ stackOffset (sp - 1) := by
  unfold stackOffset
  bv_omega

/-- Settles O55: the two bytes of the sentinel are where RTS pulls from, the low one pushed last. -/
theorem sentinelReturn : Obligations.SentinelReturn := by
  refine ⟨fun s s1 s2 hpush hram hsp => ?_, fun s endClock hm hp => boundary_of_idle hm hp⟩
  rw [pushSentinel_ok] at hpush
  cases hpush
  have hlo : s2.sp + 1 = s.sp - 1 := by rw [hsp, BitVec.sub_add_cancel]
  have hhi : s2.sp + 1 + 1 = s.sp := by rw [hlo, BitVec.sub_add_cancel]
  refine ⟨_, exec_rts s2, ?_, hhi⟩
  rw [State.jump_pc, hhi, hlo, hram, Memory.read_write_same, Memory.read_write_other _ _ (stackOffset_pred_ne s.sp),
    Memory.read_write_same]
  rfl

end Sys2Proof.Machine
end

section
/-! Addressing modes, loads, stores, transfers and the stack, exactly: the pointer bytes of the indirect modes are read through
the map, and what the shapes leave is their effect with PC at PC_next and the clock at `t_start + cost`
(spec/41_load_store.md R160-R187, spec/42_arith_logic.md R211-R214). -/

namespace Sys2Proof.Machine

/-! ## Addressing modes -/

/-- A zero-page pointer is two reads through the map, at an address and the next of its page, the low byte first (R167, R168). -/
theorem zeroPagePointer_reads (s : State) (z : Byte) (t : Int) :
    ∃ lo hi : Byte, memRead s (zeroPage z) t = .ok (lo, s) ∧ memRead s (zeroPage (z + 1)) t = .ok (hi, s) ∧
      zeroPagePointer s z = hi ++ lo :=
  ⟨s.peek (zeroPage z), s.peek (zeroPage (z + 1)), memRead_zeroPage s z t, memRead_zeroPage s (z + 1) t, rfl⟩

theorem effAddr_izx (s : State) (z : Byte) : (effAddr s (.izx z)).addr = zeroPagePointer s (z + s.x) := rfl

theorem effAddr_izy (s : State) (z : Byte) : effAddr s (.izy z) = indexed (zeroPagePointer s z) s.y := rfl

/-- Settles O24: the indirect modes by the reads of their pointers, the others mode by mode from `effAddr`. -/
theorem addressingModes : Obligations.AddressingModes := by
  intro s z base t
  refine ⟨rfl, fun m => rfl, rfl, rfl, rfl, rfl, rfl, rfl, rfl, rfl, ?izx, ?izy⟩
  case izx =>
    obtain ⟨lo, hi, hlo, hhi, hp⟩ := zeroPagePointer_reads s (z + s.x) t
    exact ⟨lo, hi, hlo, hhi, (effAddr_izx s z).trans hp⟩
  case izy =>
    obtain ⟨lo, hi, hlo, hhi, hp⟩ := zeroPagePointer_reads s z t
    refine ⟨lo, hi, hlo, hhi, ?_⟩
    rw [effAddr_izy, hp]
    exact ⟨rfl, rfl⟩

/-! ## What the shapes leave -/

section Shapes

variable {i : Instr} {s s1 : State}

/-- To retire a state whose PC and clock are those of the start is to fall through from the start. -/
theorem retireInstr_eq_fellThrough (hpc : s1.pc = s.pc) (hclock : s1.clock = s.clock) (extra : Nat) :
    s1.retireInstr i extra = fellThrough s s1 i extra := by
  rw [fellThrough, State.retireInstr, State.retire, hpc, hclock, Nat.cast_add, Int.add_assoc]

/-- A reading instruction whose operand can be read falls through with its effect (R171). -/
theorem readInstr_next {src : Source} {f : Byte → State → State} {m : Byte}
    (h : operand s src (s.dataTime i) = .ok (m, s1)) (hpc : (f m s1).pc = s1.pc) (hclock : (f m s1).clock = s1.clock) :
    answer (readInstr i src f s) = .next (fellThrough s (f m s1) i (readExtra s src)) := by
  have hpc1 : s1.pc = s.pc := by rw [operand_frame h]
  have hclock1 : s1.clock = s.clock := by rw [operand_frame h]
  rw [readInstr_ok h, answer_ok, retireInstr_eq_fellThrough (hpc.trans hpc1) (hclock.trans hclock1)]

theorem readInstr_fault {src : Source} {f : Byte → State → State} {e : Fault}
    (h : operand s src (s.dataTime i) = .error e) : answer (readInstr i src f s) = .fault e := by
  rw [readInstr_error h, answer_error]

/-- A store whose write is taken falls through (R175-R177). -/
theorem storeInstr_next {dst : MemMode} {v : Byte} (h : memWrite s (effAddr s dst).addr v (s.dataTime i) = .ok s1) :
    answer (storeInstr i dst v s) = .next (fellThrough s s1 i 0) := by
  have hpc : s1.pc = s.pc := by rw [memWrite_frame h]
  have hclock : s1.clock = s.clock := by rw [memWrite_frame h]
  rw [storeInstr_ok h, answer_ok, retireInstr_eq_fellThrough hpc hclock]

theorem storeInstr_fault {dst : MemMode} {v : Byte} {e : Fault}
    (h : memWrite s (effAddr s dst).addr v (s.dataTime i) = .error e) : answer (storeInstr i dst v s) = .fault e := by
  rw [storeInstr_error h, answer_error]

/-- An instruction of one byte and two clocks on registers only leaves its effect, PC_next and the clock (R169). -/
theorem impliedInstr_next {f : State → State} (hlen : instrLength i = 1) (hcycles : baseCycles i = 2)
    (hpc : (f s).pc = s.pc) (hclock : (f s).clock = s.clock) :
    answer (impliedInstr i f s) = .next { f s with pc := s.pc + 1, clock := s.clock + 2 } := by
  rw [impliedInstr_eq, answer_ok, retireInstr_eq_fellThrough hpc hclock, fellThrough, hlen, hcycles]
  simp

end Shapes

/-! ## Loads and stores -/

/-- Settles O25: the encodings by their rows, the effects by the shape of a reading instruction. -/
theorem loads : Obligations.Loads := by
  refine ⟨accForms_lda, ⟨encodes2 rfl, encodes2 rfl, encodes2 rfl, encodes3 rfl, encodes3 rfl⟩,
    ⟨encodes2 rfl, encodes2 rfl, encodes2 rfl, encodes3 rfl, encodes3 rfl⟩, ?lda, ?ldx, ?ldy, ?refused⟩
  case lda | ldx | ldy => exact fun s s1 src m h => readInstr_next h rfl rfl
  case refused => exact fun s src e => ⟨readInstr_fault, readInstr_fault, readInstr_fault⟩

/-- Settles O26: the encodings by their rows, the effects by the shape of a store. -/
theorem stores : Obligations.Stores := by
  refine ⟨⟨encodes2 rfl, encodes2 rfl, encodes3 rfl, encodes3 rfl, encodes3 rfl, encodes2 rfl, encodes2 rfl⟩,
    ⟨encodes2 rfl, encodes2 rfl, encodes3 rfl⟩, ⟨encodes2 rfl, encodes2 rfl, encodes3 rfl⟩, ?taken, ?refused⟩
  case taken => exact fun s s1 dst => ⟨storeInstr_next, storeInstr_next, storeInstr_next⟩
  case refused => exact fun s dst e => ⟨storeInstr_fault, storeInstr_fault, storeInstr_fault⟩

/-! ## Transfers and index steps -/

/-- Settles O27: the encodings by their rows, the effects by the shape of an instruction on registers. -/
theorem transfersAndIndexSteps : Obligations.TransfersAndIndexSteps := by
  refine ⟨⟨encodes1 rfl, encodes1 rfl, encodes1 rfl, encodes1 rfl, encodes1 rfl, encodes1 rfl, encodes1 rfl, encodes1 rfl,
    encodes1 rfl, encodes1 rfl⟩, fun s => ⟨?tax, ?tay, ?txa, ?tya, ?tsx, ?txs, ?inx, ?iny, ?dex, ?dey⟩⟩
  all_goals
    simp only [exec, execTax, execTay, execTxa, execTya, execTsx, execTxs, execInx, execIny, execDex, execDey]
    exact impliedInstr_next rfl rfl rfl rfl

/-! ## The stack -/

/-- Bits 5 and 4 of the pushed byte, one by one or together. -/
theorem append_one_one (x : BitVec 2) : x ++ 1#1 ++ 1#1 = x ++ 0b11#2 := by
  revert x
  decide

/-- The byte that PHP and BRK push (R28). -/
theorem packP_true (s : State) :
    s.packP true =
      BitVec.ofBool s.n ++ BitVec.ofBool s.v ++ 0b11#2 ++ BitVec.ofBool s.d ++ BitVec.ofBool s.i ++ BitVec.ofBool s.z ++
        BitVec.ofBool s.c := by
  rw [← append_one_one]
  rfl

/-- PHA, exactly (R184). -/
theorem exec_pha (s : State) :
    exec .pha s =
      .next (State.retireInstr { s with ram := s.ram.write (stackOffset s.sp) s.a, sp := s.sp - 1 } .pha 0) := by
  simp only [exec, execPha, push_ok, ok_bind, pure_eq_ok, answer_ok]

/-- PHP, exactly (R185). -/
theorem exec_php (s : State) :
    exec .php s =
      .next (State.retireInstr { s with ram := s.ram.write (stackOffset s.sp) (s.packP true), sp := s.sp - 1 } .php 0) := by
  simp only [exec, execPhp, push_ok, ok_bind, pure_eq_ok, answer_ok]

/-- PLA, exactly (R186). -/
theorem exec_pla (s : State) :
    exec .pla s =
      .next (({ s with sp := s.sp + 1, a := s.ram.read (stackOffset (s.sp + 1)) }.setNZ
        (s.ram.read (stackOffset (s.sp + 1)))).retireInstr .pla 0) := by
  simp only [exec, execPla, pull_ok, ok_bind, pure_eq_ok, answer_ok]

/-- PLP, exactly (R187). -/
theorem exec_plp (s : State) :
    exec .plp s =
      .next ((State.unpackP { s with sp := s.sp + 1 } (s.ram.read (stackOffset (s.sp + 1)))).retireInstr .plp 0) := by
  simp only [exec, execPlp, pull_ok, ok_bind, pure_eq_ok, answer_ok]

/-- Settles O28: the encodings by their rows, the effects by what each of the four leaves, with the pushed P written out. -/
theorem pushAndPull : Obligations.PushAndPull := by
  refine ⟨⟨encodes1 rfl, encodes1 rfl, encodes1 rfl, encodes1 rfl⟩, fun s => ⟨exec_pha s, ?php⟩, ?pull⟩
  case php =>
    rw [← packP_true]
    exact exec_php s
  case pull =>
    rintro s m rfl
    exact ⟨exec_pla s, exec_plp s⟩

end Sys2Proof.Machine
end

section
/-! Arithmetic, logic, compares, increments, shifts and rotates, exactly: what carry and overflow of the sum mean over the integers,
and what the shapes leave with each instruction's effect (spec/42_arith_logic.md R200-R220). -/

namespace Sys2Proof.Machine

/-! ## Carry and overflow -/

theorem addCarry_value_toNat (a m : Byte) (c : Bool) :
    (addCarry a m c).value.toNat = (a.toNat + m.toNat + c.toNat) % 256 := BitVec.toNat_ofNat _ 8

theorem addCarry_carry_iff (a m : Byte) (c : Bool) :
    (addCarry a m c).carry = true ↔ 256 ≤ a.toNat + m.toNat + c.toNat := by
  simp only [addCarry, decide_eq_true_eq, gt_iff_lt]
  omega

/-- The mask 0x80 picks the sign bit. -/
theorem and_0x80_ne_zero (x : Byte) : ((x &&& 0x80) != 0x00) = x.msb := by
  revert x
  decide

/-- V is set exactly if both terms have one sign and the sum the other (R200). -/
theorem addCarry_overflow_iff_sign (a m : Byte) (c : Bool) :
    (addCarry a m c).overflow = true ↔
      (a.toInt < 0 ↔ m.toInt < 0) ∧ ¬(a.toInt < 0 ↔ (addCarry a m c).value.toInt < 0) := by
  have hr : (addCarry a m c).overflow = (~~~(a ^^^ m) &&& (a ^^^ (addCarry a m c).value)).msb := and_0x80_ne_zero _
  rw [hr, BitVec.msb_and, BitVec.msb_not, BitVec.msb_xor, BitVec.msb_xor]
  simp only [BitVec.msb_eq_toInt]
  simp

/-- The sum as a signed byte is the signed sum modulo 256. -/
theorem addCarry_value_toInt (a m : Byte) (c : Bool) :
    (addCarry a m c).value.toInt = (a.toInt + m.toInt + c.toNat).bmod 256 := by
  have hsum : (addCarry a m c).value.toInt = (a.toNat + m.toNat + c.toNat : Int).bmod 256 := by
    rw [BitVec.toInt_eq_toNat_bmod, addCarry_value_toNat]
    push_cast
    exact Int.emod_bmod _ 256
  rw [hsum, BitVec.toInt_eq_toNat_bmod a, BitVec.toInt_eq_toNat_bmod m, add_assoc (Int.bmod _ _), Int.bmod_add_bmod,
    add_left_comm, Int.bmod_add_bmod, add_left_comm, ← add_assoc]

/-- V is set exactly if the signed sum leaves the range of a signed byte (R220). -/
theorem addCarry_overflow_iff (a m : Byte) (c : Bool) :
    (addCarry a m c).overflow = true ↔
      a.toInt + m.toInt + (c.toNat : Int) < -128 ∨ 127 < a.toInt + m.toInt + (c.toNat : Int) := by
  have hc := Bool.toNat_le c
  have ha := BitVec.toInt_lt (x := a)
  have ha' := BitVec.le_toInt (x := a)
  have hm := BitVec.toInt_lt (x := m)
  have hm' := BitVec.le_toInt (x := m)
  rw [addCarry_overflow_iff_sign, addCarry_value_toInt, Int.bmod_def]
  split <;> omega

theorem complement_toNat (m : Byte) : (~~~m).toNat = 255 - m.toNat := BitVec.toNat_not

theorem complement_toInt (m : Byte) : (~~~m).toInt = -1 - m.toInt := by
  have hm := m.isLt
  rw [BitVec.toInt_eq_toNat_cond, BitVec.toInt_eq_toNat_cond, complement_toNat]
  split <;> split <;> omega

/-- Settles O30: ADC by the sum modulo 256 and the signs, SBC as ADC of the complement. -/
theorem carryAndOverflow : Obligations.CarryAndOverflow := by
  intro a m c
  have hm := m.isLt
  refine ⟨addCarry_value_toNat a m c, addCarry_carry_iff a m c, addCarry_overflow_iff a m c, ?value, ?carry, ?overflow⟩
  case value =>
    rw [subBorrow, addCarry_value_toNat, complement_toNat]
    omega
  case carry =>
    rw [subBorrow, addCarry_carry_iff, complement_toNat]
    have hc := Bool.toNat_le c
    omega
  case overflow =>
    rw [subBorrow, addCarry_overflow_iff, complement_toInt]
    omega

/-! ## What the shapes leave -/

section Shapes

variable {i : Instr} {s : State}

/-- An operand read leaves the state but for its APU. -/
theorem operand_sound {s1 : State} {src : Source} {t : Int} {m : Byte} (h : operand s src t = .ok (m, s1)) :
    ∃ w, s1 = { s with sound := w } := ⟨s1.sound, operand_frame h⟩

/-- A read-modify-write whose accesses are taken falls through with its flags (R219). -/
theorem rmwInstr_next {m : RmwMode} {f : Byte → Byte} {g : Byte → State → State} {s1 s2 : State} {old : Byte}
    (hr : memRead s (rmwAddr s m) (s.dataTime i) = .ok (old, s1))
    (hw : memWrite s1 (rmwAddr s m) (f old) (s.dataTime i) = .ok s2) (hpc : (g old s2).pc = s2.pc)
    (hclock : (g old s2).clock = s2.clock) :
    answer (rmwInstr i m f g s) = .next (fellThrough s (g old s2) i 0) := by
  have hpc2 : s2.pc = s.pc := by rw [memWrite_frame hw, memRead_frame hr]
  have hclock2 : s2.clock = s.clock := by rw [memWrite_frame hw, memRead_frame hr]
  rw [rmwInstr_ok hr hw, answer_ok, retireInstr_eq_fellThrough (hpc.trans hpc2) (hclock.trans hclock2)]

theorem rmwInstr_fault_read {m : RmwMode} {f : Byte → Byte} {g : Byte → State → State} {e : Fault}
    (h : memRead s (rmwAddr s m) (s.dataTime i) = .error e) : answer (rmwInstr i m f g s) = .fault e := by
  rw [rmwInstr_error_read h, answer_error]

theorem rmwInstr_fault_write {m : RmwMode} {f : Byte → Byte} {g : Byte → State → State} {s1 : State} {old : Byte} {e : Fault}
    (hr : memRead s (rmwAddr s m) (s.dataTime i) = .ok (old, s1))
    (hw : memWrite s1 (rmwAddr s m) (f old) (s.dataTime i) = .error e) : answer (rmwInstr i m f g s) = .fault e := by
  rw [rmwInstr_error_write hr hw, answer_error]

/-- ADC and SBC where decimal arithmetic is not refused fall through with the sum's value and flags (R200, R201). -/
theorem addInstr_next {src : Source} {sum : Byte → Byte → Bool → AluOut} {s1 : State} {m : Byte}
    (hd : ¬(s.params.decimal = .refused ∧ s.d = true)) (h : operand s src (s.dataTime i) = .ok (m, s1)) :
    answer (addInstr i src sum s) =
      .next { fellThrough s s1 i (readExtra s src) with
        a := (sum s.a m s.c).value, n := (sum s.a m s.c).value.getLsbD 7, v := (sum s.a m s.c).overflow
        z := (sum s.a m s.c).value == 0x00, c := (sum s.a m s.c).carry } := by
  obtain ⟨w, rfl⟩ := operand_sound h
  rw [addInstr_binary hd]
  exact readInstr_next h rfl rfl

theorem addInstr_fault_operand {src : Source} {sum : Byte → Byte → Bool → AluOut} {e : Fault}
    (hd : ¬(s.params.decimal = .refused ∧ s.d = true)) (h : operand s src (s.dataTime i) = .error e) :
    answer (addInstr i src sum s) = .fault e := by
  rw [addInstr_binary hd]
  exact readInstr_fault h

end Shapes

/-! ## Add and subtract -/

/-- Settles O29: the encodings by their rows, the effects by the shape of ADC and SBC. -/
theorem addAndSubtract : Obligations.AddAndSubtract := by
  refine ⟨accForms_adc, accForms_sbc, ?adc, ?sbc, ?refused⟩
  case adc | sbc =>
    rintro s s1 src m r t hd h rfl rfl
    exact addInstr_next hd h
  case refused => exact fun s src e hd => ⟨addInstr_fault_operand hd, addInstr_fault_operand hd⟩

/-! ## Logic and compares -/

/-- Settles O32: the encodings by their rows, the effects by the shape of a reading instruction; no form of BIT crosses a page. -/
theorem logicAndBit : Obligations.LogicAndBit := by
  refine ⟨accForms_and, accForms_ora, accForms_eor, ⟨encodes2 rfl, encodes3 rfl⟩, ?and, ?ora, ?eor, ?bit, ?refused⟩
  case and | ora | eor =>
    rintro s s1 src m r h rfl
    obtain ⟨w, rfl⟩ := operand_sound h
    exact readInstr_next h rfl rfl
  case bit =>
    intro s s1 mode m hb h
    have hs : operand s (.mem mode) (s.dataTime (.bit mode)) = .ok (m, s1) := h
    obtain ⟨w, rfl⟩ := operand_sound hs
    rw [← readExtra_of_bitForm s hb]
    exact readInstr_next hs rfl rfl
  case refused =>
    exact fun s src mode e => ⟨readInstr_fault, readInstr_fault, readInstr_fault, readInstr_fault (src := .mem mode)⟩

/-- Settles O33: the encodings by their rows, the effects by the shape of a reading instruction. -/
theorem compares : Obligations.Compares := by
  refine ⟨accForms_cmp, ⟨encodes2 rfl, encodes2 rfl, encodes3 rfl⟩, ⟨encodes2 rfl, encodes2 rfl, encodes3 rfl⟩,
    ?cmp, ?cpx, ?cpy, ?refused⟩
  case cmp | cpx | cpy =>
    intro s s1 src m h
    obtain ⟨w, rfl⟩ := operand_sound h
    exact readInstr_next h rfl rfl
  case refused => exact fun s src e => ⟨readInstr_fault, readInstr_fault, readInstr_fault⟩

/-! ## Read-modify-write -/

/-- Settles O34: the encodings by their rows, the effects and the stops by the shape of a read-modify-write. -/
theorem incDecMemory : Obligations.IncDecMemory := by
  refine ⟨rmwForms_inc, rmwForms_dec, ?inc, ?dec, ?refused⟩
  case inc | dec =>
    rintro s s1 s2 m old v hr rfl hw
    exact rmwInstr_next hr hw rfl rfl
  case refused =>
    refine fun s s1 m old e => ⟨?_, ?_⟩
    all_goals
      rintro (hr | ⟨hr, hw⟩)
      · exact rmwInstr_fault_read hr
      · exact rmwInstr_fault_write hr hw

/-- An instruction of the shape of a shift, with its result and the bit shifted out, obeys the rule of a shift (R215-R219). -/
theorem shiftRule_of_shape {mk : ShiftOperand → Instr} {f : Byte → Bool → Byte × Bool} {shift : Byte → Bool → Byte}
    {out : Nat} (hexec : ∀ opd s, exec (mk opd) s = answer (shiftInstr (mk opd) opd f s)) (hlen : instrLength (mk .acc) = 1)
    (hcycles : ∀ opd, baseCycles (mk opd) = shiftCycles opd) (hf : ∀ v c, f v c = (shift v c, v.getLsbD out)) :
    ShiftRule mk shift out := by
  have htime : ∀ (s : State) m, s.dataTime (mk (.mem m)) = s.clock + rmwCycles m := fun s m => by
    rw [State.dataTime, hcycles, shiftCycles]
  refine ⟨?acc, ?mem, fun s s1 m v e => ⟨?read, ?write⟩⟩
  case acc =>
    rintro s r rfl
    rw [hexec, shiftInstr, impliedInstr_next hlen (hcycles .acc) rfl rfl, hf]
    rfl
  case mem =>
    rintro s s1 s2 m v r hr rfl hw
    rw [← htime] at hr hw
    rw [hexec, shiftInstr, rmwInstr_next hr (by rwa [hf]) rfl rfl, hf]
    rfl
  case read =>
    intro hr
    rw [← htime] at hr
    rw [hexec, shiftInstr, rmwInstr_fault_read hr]
  case write =>
    intro hr hw
    rw [← htime] at hr hw
    rw [hexec, shiftInstr, rmwInstr_fault_write hr (by rwa [hf])]

/-- Settles O35: the encodings by their rows, the rules by the shape of a shift. -/
theorem shiftsAndRotates : Obligations.ShiftsAndRotates := by
  refine ⟨⟨encodes1 rfl, rmwForms_asl⟩, ⟨encodes1 rfl, rmwForms_lsr⟩, ⟨encodes1 rfl, rmwForms_rol⟩,
    ⟨encodes1 rfl, rmwForms_ror⟩, ?asl, ?lsr, ?rol, ?ror⟩
  all_goals exact shiftRule_of_shape (fun _ _ => rfl) rfl (fun _ => rfl) fun _ _ => rfl

end Sys2Proof.Machine
end

section
/-! What can stop an instruction, and decimal mode: an access stops for the sound chip only, so that ADC and SBC alone can stop for D,
and no access asks for D (spec/42_arith_logic.md R221, spec/45_apu_synthesis.md R308, R322). -/

namespace Sys2Proof.Machine

/-! ## What can stop an access -/

/-- The stops of an access to the sound chip (R308, R322, R328). -/
def Fault.ofSound (e : Fault) : Prop := e = .apuTimeOrder ∨ e = .bufferHorizon

/-- An operation stops for the sound chip only. -/
def StopsForSound {α : Type} (r : Res α) : Prop := ∀ e, r = .error e → e.ofSound

theorem StopsForSound.ok {α : Type} (a : α) : StopsForSound (.ok a : Res α) := nofun

theorem StopsForSound.bind {α β : Type} {r : Res α} {f : α → Res β} (hr : StopsForSound r)
    (hf : ∀ a, StopsForSound (f a)) : StopsForSound (r >>= f) := by
  intro e h
  cases r with
  | error =>
    cases h
    exact hr e rfl
  | ok a => exact hf a e h

section Sound

variable (env : SoundEnv) (t : Int)

theorem addDelta_stops (b : Side) (d : Rat) (w : Sound) : StopsForSound (addDelta env b t d w) :=
  fun _ h => .inr (addDelta_error h)

theorem emitSide_stops (i : Nat) (b : Side) (v : Voice) (w : Sound) : StopsForSound (emitSide env i t b v w) := by
  unfold emitSide
  simp only
  split
  · exact .ok _
  · exact (addDelta_stops env t b _ w).bind fun _ => .ok _

theorem emit_stops (i : Nat) (v : Voice) (w : Sound) : StopsForSound (emit env i t v w) :=
  (emitSide_stops env t i .left v w).bind fun r => emitSide_stops env t i .right r.1 r.2

theorem runVoice_stops (i fuel : Nat) (v : Voice) (w : Sound) : StopsForSound (runVoice env i t fuel v w) := by
  induction fuel generalizing v w with
  | zero => exact .ok _
  | succ fuel ih =>
    unfold runVoice
    split
    · exact .ok _
    · split
      · exact (emit_stops env _ i _ w).bind fun _ => ih _ _
      · exact .ok _

theorem runVoices_stops (i : Nat) (vs : List Voice) (w : Sound) : StopsForSound (runVoices env t i vs w) := by
  induction vs generalizing i w with
  | nil => exact .ok _
  | cons v vs ih => exact (runVoice_stops env t i _ v w).bind fun r => (ih (i + 1) r.2).bind fun _ => .ok _

theorem runTo_stops (w : Sound) : StopsForSound (runTo env t w) :=
  (runVoices_stops env t 0 w.voices w).bind fun _ => .ok _

theorem emitVoices_stops (i : Nat) (vs : List Voice) (w : Sound) : StopsForSound (emitVoices env t i vs w) := by
  induction vs generalizing i w with
  | nil => exact .ok _
  | cons v vs ih => exact (emit_stops env t i v w).bind fun r => (ih (i + 1) r.2).bind fun _ => .ok _

theorem emitAll_stops (w : Sound) : StopsForSound (emitAll env t w) :=
  (emitVoices_stops env t 0 w.voices w).bind fun _ => .ok _

theorem apuWrite_stops (reg : Nat) (v : Byte) (w : Sound) : StopsForSound (apuWrite env t reg v w) := by
  unfold apuWrite
  split
  · rintro e ⟨⟩
    exact .inl rfl
  · exact (runTo_stops env t w).bind fun _ => emitAll_stops env t _

theorem apuRead_stops (openBus : Byte) (reg : Nat) (w : Sound) : StopsForSound (apuRead env openBus t reg w) := by
  unfold apuRead
  split
  · rintro e ⟨⟩
    exact .inl rfl
  · split
    · exact .ok _
    · exact (runTo_stops env t w).bind fun _ => (emitAll_stops env t _).bind fun _ => .ok _

end Sound

section Accesses

variable (s : State) (t : Int)

theorem memRead_stops (a : Addr) : StopsForSound (memRead s a t) := by
  by_cases ha : a = apuStatusAddr
  · rw [ha, memRead_status]
    exact (apuRead_stops s.soundEnv t s.params.openBus 0x15 s.sound).bind fun _ => .ok _
  · rw [memRead_quiet s t ha]
    exact .ok _

theorem operand_stops (src : Source) : StopsForSound (operand s src t) := by
  cases src with
  | imm v => exact .ok _
  | mem m => exact memRead_stops s t _

theorem ioWrite_stops (a : Addr) (v : Byte) : StopsForSound (ioWrite s a v t) := by
  unfold ioWrite
  split
  · exact (apuWrite_stops s.soundEnv t _ v s.sound).bind fun _ => .ok _
  · split <;> exact .ok _

theorem memWrite_stops (a : Addr) (v : Byte) : StopsForSound (memWrite s a v t) := by
  unfold memWrite
  split
  · exact .ok _
  · exact .ok _
  · exact ioWrite_stops s t a v
  · exact ioWrite_stops s t a v

theorem memReadPair_stops (aLo aHi : Addr) : StopsForSound (memReadPair s aLo aHi t) :=
  (memRead_stops s t aLo).bind fun r => (memRead_stops r.2 t aHi).bind fun _ => .ok _

end Accesses

/-! ## What can stop an instruction -/

section Shapes

variable (i : Instr) (s : State)

theorem readInstr_stops (src : Source) (f : Byte → State → State) : StopsForSound (readInstr i src f s) :=
  (operand_stops s _ src).bind fun _ => .ok _

theorem storeInstr_stops (dst : MemMode) (v : Byte) : StopsForSound (storeInstr i dst v s) :=
  (memWrite_stops s _ _ v).bind fun _ => .ok _

theorem rmwInstr_stops (m : RmwMode) (f : Byte → Byte) (g : Byte → State → State) : StopsForSound (rmwInstr i m f g s) :=
  (memRead_stops s _ _).bind fun r => (memWrite_stops r.2 _ _ _).bind fun _ => .ok _

theorem shiftInstr_stops (opd : ShiftOperand) (f : Byte → Bool → Byte × Bool) : StopsForSound (shiftInstr i opd f s) := by
  cases opd with
  | acc => exact .ok _
  | mem m =>
    rw [shiftInstr]
    exact rmwInstr_stops i s m _ _

theorem branchInstr_stops (cond : Bool) (rel : Byte) : StopsForSound (branchInstr i cond rel s) := by
  unfold branchInstr
  split <;> exact .ok _

theorem execJmpInd_fault {s : State} {ptr : Addr} {e : Fault} (h : execJmpInd ptr s = .fault e) : e.ofSound :=
  (memReadPair_stops s _ ptr _).bind (fun _ => .ok _) e (answer_eq_fault.1 h)

end Shapes

/-- ADC and SBC stop for the sound chip, or for D where decimal arithmetic is refused (R221). -/
theorem addInstr_fault {i : Instr} {src : Source} {sum : Byte → Byte → Bool → AluOut} {s : State} {e : Fault}
    (h : addInstr i src sum s = .error e) :
    e.ofSound ∨ e = .decimalUnmodelled ∧ s.params.decimal = .refused ∧ s.d = true := by
  by_cases hd : s.params.decimal = .refused ∧ s.d = true
  · rw [addInstr_refused hd] at h
    cases h
    exact .inr ⟨rfl, hd⟩
  · rw [addInstr_binary hd] at h
    exact .inl (readInstr_stops i s src _ e h)

/-- An instruction stops for the sound chip, by an access to its operand, or it is ADC or SBC and stops for D; those on registers
and those that use the stack never stop. -/
theorem exec_fault {i : Instr} {s : State} {e : Fault} (h : exec i s = .fault e) :
    e.ofSound ∨
      (∃ src, i = .adc src ∨ i = .sbc src) ∧ e = .decimalUnmodelled ∧ s.params.decimal = .refused ∧ s.d = true := by
  cases i with
  | adc src => exact (addInstr_fault (answer_eq_fault.1 h)).imp_right (.intro ⟨src, .inl rfl⟩)
  | sbc src => exact (addInstr_fault (answer_eq_fault.1 h)).imp_right (.intro ⟨src, .inr rfl⟩)
  | lda src | ldx src | ldy src | and src | ora src | eor src | cmp src | cpx src | cpy src =>
    exact .inl (readInstr_stops _ s src _ e (answer_eq_fault.1 h))
  | bit m => exact .inl (readInstr_stops _ s (.mem m) _ e (answer_eq_fault.1 h))
  | sta dst | stx dst | sty dst => exact .inl (storeInstr_stops _ s dst _ e (answer_eq_fault.1 h))
  | inc m | dec m => exact .inl (rmwInstr_stops _ s m _ _ e (answer_eq_fault.1 h))
  | asl opd | lsr opd | rol opd | ror opd => exact .inl (shiftInstr_stops _ s opd _ e (answer_eq_fault.1 h))
  | bpl rel | bmi rel | bvc rel | bvs rel | bcc rel | bcs rel | bne rel | beq rel =>
    exact .inl (branchInstr_stops _ s _ rel e (answer_eq_fault.1 h))
  | jmpInd ptr => exact .inl (execJmpInd_fault h)
  | tax | tay | txa | tya | tsx | txs | inx | iny | dex | dey | clc | sec | cli | sei | clv | cld | sed | nop
  | jmpAbs target | illegal op => nomatch h
  | pha | php | pla | plp | jsr target | rts | rti =>
    simp only [exec, execPha, execPhp, execPla, execPlp, execJsr, execRts, execRti, push_ok, pull_ok, pushWord_ok, pullWord_ok,
      returnFromInterrupt_ok, ok_bind, pure_eq_ok, answer_ok, reduceCtorEq] at h
  | brk =>
    simp only [exec, execBrk, enterInterrupt_ok _ _ _ _ (show 0x8000 ≤ irqVector.toNat by decide)
      (show irqVector.toNat < 0xFFFF by decide), ok_bind, pure_eq_ok, answer_ok, reduceCtorEq] at h

/-! ## The decimal flag -/

/-- A read answers the same whatever D is, and leaves D as it was. -/
theorem memRead_withD {s s1 : State} {a : Addr} {t : Int} {v : Byte} (h : memRead s a t = .ok (v, s1)) (b : Bool) :
    memRead { s with d := b } a t = .ok (v, { s1 with d := b }) := by
  obtain ⟨ha, rfl, rfl⟩ | ⟨rfl, w, hr, rfl⟩ := memRead_cases h
  · exact memRead_quiet _ t ha
  · have hr' : apuRead (State.soundEnv { s with d := b }) s.params.openBus t 0x15 s.sound = .ok (v, w) := hr
    rw [memRead_status, hr', ok_bind, pure_eq_ok]

theorem operand_withD {s s1 : State} {src : Source} {t : Int} {m : Byte} (h : operand s src t = .ok (m, s1)) (b : Bool) :
    operand { s with d := b } src t = .ok (m, { s1 with d := b }) := by
  cases src with
  | imm v =>
    cases h
    rfl
  | mem mode => exact memRead_withD h b

/-- ADC and SBC where decimal arithmetic is ignored: D makes no difference and stands (R221). -/
theorem addInstr_ignored {i : Instr} {src : Source} {sum : Byte → Byte → Bool → AluOut} {s s' : State}
    (hi : s.params.decimal = .ignored) (h : answer (addInstr i src sum s) = .next s') (b : Bool) :
    answer (addInstr i src sum { s with d := b }) = .next { s' with d := b } := by
  have hd : ¬(s.params.decimal = .refused ∧ s.d = true) := by simp [hi]
  have hd' : ¬(s.params.decimal = .refused ∧ b = true) := by simp [hi]
  rw [answer_eq_next, addInstr_binary hd] at h
  obtain ⟨m, s1, h1, rfl⟩ := readInstr_cases h
  rw [addInstr_binary hd', readInstr_ok (operand_withD h1 b), answer_ok]
  rfl

/-- Settles O31: under `refused` by the test ADC and SBC begin with, under `ignored` because no access asks for D, and for the other
instructions by what can stop them. -/
theorem decimalMode : Obligations.DecimalMode := by
  refine ⟨fun s src hr hd => ?refused, fun s s' src b hi => ?ignored, fun i s h => ?alone⟩
  case refused =>
    simp only [exec, execAdc, execSbc, addInstr_refused ⟨hr, hd⟩, answer_error, and_self]
  case ignored => exact ⟨fun h => addInstr_ignored hi h b, fun h => addInstr_ignored hi h b⟩
  case alone =>
    obtain hs | ⟨hi, -, hd⟩ := exec_fault h
    · exact absurd hs (by simp [Fault.ofSound])
    · exact ⟨hi, hd⟩

end Sys2Proof.Machine
end

section
/-! Jumps, subroutines, BRK and RTI, branches and flag instructions, exactly, and the two round trips over the stack: what a call or
a BRK pushes is what the return pulls (spec/43_control_flags.md R240-R262, spec/60_exceptions.md R402). -/

namespace Sys2Proof.Machine

/-! ## Jumps -/

section Jumps

variable {s s1 s2 : State} {aLo aHi ptr : Addr} {lo hi : Byte} {t : Int} {f : Fault}

theorem memReadPair_ok (hlo : memRead s aLo t = .ok (lo, s1)) (hhi : memRead s1 aHi t = .ok (hi, s2)) :
    memReadPair s aLo aHi t = .ok (word lo hi, s2) := by
  simp only [memReadPair, hlo, hhi, ok_bind, pure_eq_ok]

theorem memReadPair_error
    (h : memRead s aLo t = .error f ∨ memRead s aLo t = .ok (lo, s1) ∧ memRead s1 aHi t = .error f) :
    memReadPair s aLo aHi t = .error f := by
  obtain hlo | ⟨hlo, hhi⟩ := h
  · simp only [memReadPair, hlo, error_bind]
  · simp only [memReadPair, hlo, hhi, ok_bind, error_bind]

/-- An indirect jump whose pointer can be read goes where it points; no read moves the clock (R241). -/
theorem exec_jmpInd (hlo : memRead s ptr (s.clock + 5) = .ok (lo, s1))
    (hhi : memRead s1 (jmpIndHigh ptr) (s.clock + 5) = .ok (hi, s2)) :
    exec (.jmpInd ptr) s = .next { s2 with pc := word lo hi, clock := s.clock + 5 } := by
  have hclock : s2.clock = s.clock := by rw [memRead_frame hhi, memRead_frame hlo]
  have hpair : memReadPair s ptr (jmpIndHigh ptr) (s.dataTime (.jmpInd ptr)) = .ok (word lo hi, s2) :=
    memReadPair_ok hlo hhi
  rw [exec, execJmpInd, hpair, ← hclock]
  rfl

/-- An indirect jump whose pointer cannot be read stops. -/
theorem exec_jmpInd_fault
    (h : memRead s ptr (s.clock + 5) = .error f ∨
      memRead s ptr (s.clock + 5) = .ok (lo, s1) ∧ memRead s1 (jmpIndHigh ptr) (s.clock + 5) = .error f) :
    exec (.jmpInd ptr) s = .fault f := by
  have hpair : memReadPair s ptr (jmpIndHigh ptr) (s.dataTime (.jmpInd ptr)) = .error f := memReadPair_error h
  rw [exec, execJmpInd, hpair, error_bind, answer_error]

end Jumps

/-- Settles O36: the encodings by their rows, the indirect jump by the two reads of its pointer. -/
theorem jumps : Obligations.Jumps :=
  ⟨encodes3 rfl, encodes3 rfl, fun _ _ => rfl, fun _ _ _ _ _ _ => exec_jmpInd, fun _ _ _ _ _ => exec_jmpInd_fault⟩

/-! ## Calls and returns -/

theorem add_one_add_one (x : Byte) : x + 1 + 1 = x + 2 := BitVec.add_assoc x 1 1

theorem sub_one_sub_one (x : Byte) : x - 1 - 1 = x - 2 := by bv_omega

theorem add_one_add_one_add_one (x : Byte) : x + 1 + 1 + 1 = x + 3 := by bv_omega

theorem sub_one_sub_one_sub_one (x : Byte) : x - 1 - 1 - 1 = x - 3 := by bv_omega

/-- JSR, exactly (R242). -/
theorem exec_jsr (s : State) (target : Addr) :
    exec (.jsr target) s =
      .next (State.jump
        { s with
          ram := (s.ram.write (stackOffset s.sp) (hiByte (s.pc + 2))).write (stackOffset (s.sp - 1)) (loByte (s.pc + 2))
          sp := s.sp - 1 - 1 } target (baseCycles (.jsr target))) := by
  simp only [exec, execJsr, pushWord_ok, ok_bind, pure_eq_ok, answer_ok]

/-- Settles O37: the encodings by their rows, the effects by what JSR and RTS leave. -/
theorem subroutines : Obligations.Subroutines := by
  refine ⟨encodes3 rfl, encodes1 rfl, fun s target => ?jsr, ?rts⟩
  case jsr =>
    rw [exec_jsr, sub_one_sub_one]
    rfl
  case rts =>
    rintro s lo hi rfl rfl
    rw [exec_rts, add_one_add_one]
    rfl

/-! ## BRK and RTI -/

/-- BRK, exactly: an entry through the IRQ vector with PC + 2 and B set (R245, R402). -/
theorem exec_brk (s : State) :
    exec .brk s =
      .next ((afterEntry s (s.pc + 2) true irqVector).jump (afterEntry s (s.pc + 2) true irqVector).pc (baseCycles .brk)) := by
  simp only [exec, execBrk, enterInterrupt_ok _ _ _ _ (show 0x8000 ≤ irqVector.toNat by decide)
    (show irqVector.toNat < 0xFFFF by decide), ok_bind, pure_eq_ok, answer_ok]

/-- RTI, exactly: the status byte, then PC with no increment (R244). -/
theorem exec_rti (s : State) :
    exec .rti s =
      .next (State.jump { s.unpackP (s.ram.read (stackOffset (s.sp + 1))) with sp := s.sp + 1 + 1 + 1 }
        (word (s.ram.read (stackOffset (s.sp + 1 + 1))) (s.ram.read (stackOffset (s.sp + 1 + 1 + 1)))) (baseCycles .rti)) := by
  simp only [exec, execRti, returnFromInterrupt_ok, ok_bind, pure_eq_ok, answer_ok]
  rfl

/-- The table's row for BRK: one byte, so that it fits at 0xFFFE and wraps at 0xFFFF. -/
def brkRow : Row := ⟨0x00, "BRK", .imp, 1, 7, .never, fun _ _ => .brk⟩

theorem brkRow_mem : brkRow ∈ opcodeRows := (opcodeRow_eq_some_iff.1 (rfl : opcodeRow 0x00 = some brkRow)).1

/-- A BRK that fits below 0x10000 is executed: its padding byte is not fetched (R245). -/
theorem cpuStep_brk {s s1 : State} (h : memRead s s.pc s.clock = .ok (0x00, s1)) (hfit : s.pc.toNat + 1 < 0x10000) :
    cpuStep s = andThen (exec .brk s1) fun s' => .next (.ok, s') :=
  cpuStep_of_instr (i := .brk) (fetch_row h brkRow_mem rfl hfit rfl rfl)

/-- Settles O38: the encodings by their rows, the effects by what BRK and RTI leave, the two ends of memory by what the fetch finds
there. -/
theorem breakAndReturn : Obligations.BreakAndReturn := by
  refine ⟨encodes1 rfl, encodes1 rfl, fun s => ?brk, ?rti, fun s s1 h => ⟨fun hpc => ?fits, fun hpc => ?wraps⟩⟩
  case brk =>
    rw [exec_brk, afterEntry, sub_one_sub_one_sub_one, sub_one_sub_one]
    rfl
  case rti =>
    rintro s p lo hi rfl rfl rfl
    rw [exec_rti, add_one_add_one_add_one, add_one_add_one]
    rfl
  case fits => exact cpuStep_brk h (by rw [hpc]; decide)
  case wraps =>
    rw [wrapNoOp.1 s s1 0x00 brkRow h brkRow_mem rfl (by rw [hpc]; decide), hpc]
    rfl

/-! ## The round trips -/

theorem stackOffset_pred_pred_ne (sp : Byte) : stackOffset sp ≠ stackOffset (sp - 1 - 1) := by
  unfold stackOffset
  bv_omega

/-- A word pushed at S is the word found there. -/
theorem word_read_pushed (m : Memory) (sp : Byte) (a : Addr) :
    word (((m.write (stackOffset sp) (hiByte a)).write (stackOffset (sp - 1)) (loByte a)).read (stackOffset (sp - 1)))
      (((m.write (stackOffset sp) (hiByte a)).write (stackOffset (sp - 1)) (loByte a)).read (stackOffset sp)) = a := by
  rw [Memory.read_write_same, Memory.read_write_other _ _ (stackOffset_pred_ne sp), Memory.read_write_same]
  exact hiByte_append_loByte a

/-- A JSR's return address is found by the RTS: the address of its last byte, plus one. -/
theorem rts_after_jsr {s s1 s2 : State} {target : Addr} (h : exec (.jsr target) s = .next s1) (hram : s2.ram = s1.ram)
    (hsp : s2.sp = s1.sp) : ∃ s3, exec .rts s2 = .next s3 ∧ s3.pc = s.pc + 3 ∧ s3.sp = s.sp := by
  rw [exec_jsr] at h
  cases h
  have hlo : s2.sp + 1 = s.sp - 1 := by rw [hsp, State.jump_sp, BitVec.sub_add_cancel]
  have hhi : s2.sp + 1 + 1 = s.sp := by rw [hlo, BitVec.sub_add_cancel]
  refine ⟨_, exec_rts s2, ?_, hhi⟩
  rw [State.jump_pc, hhi, hlo, hram, State.jump_ram, word_read_pushed]
  exact BitVec.add_assoc s.pc 2 1

/-- Where `PackP` puts the six flags (R28). -/
theorem bitOf_packP (s : State) (b : Bool) :
    bitOf (s.packP b) 7 = s.n ∧ bitOf (s.packP b) 6 = s.v ∧ bitOf (s.packP b) 3 = s.d ∧ bitOf (s.packP b) 2 = s.i ∧
      bitOf (s.packP b) 1 = s.z ∧ bitOf (s.packP b) 0 = s.c := by
  unfold State.packP
  generalize s.n = n, s.v = v, s.d = d, s.i = i, s.z = z, s.c = c
  revert n v b d i z c
  decide

/-- Unpacking a pushed status byte gives the six flags of the state that pushed it (R28, R29). -/
theorem unpackP_packP (s s' : State) (b : Bool) :
    s'.unpackP (s.packP b) = { s' with n := s.n, v := s.v, d := s.d, i := s.i, z := s.z, c := s.c } := by
  obtain ⟨hn, hv, hd, hi, hz, hc⟩ := bitOf_packP s b
  rw [State.unpackP, hn, hv, hd, hi, hz, hc]

/-- What an entry pushed is found by RTI: PC, S and the six flags come back. -/
theorem rti_after_entry {s s2 : State} {ret vector : Addr} {b : Bool} (hram : s2.ram = (afterEntry s ret b vector).ram)
    (hsp : s2.sp = (afterEntry s ret b vector).sp) :
    exec .rti s2 =
      .next (State.jump { s2 with sp := s.sp, n := s.n, v := s.v, d := s.d, i := s.i, z := s.z, c := s.c } ret
        (baseCycles .rti)) := by
  have hp : s2.sp + 1 = s.sp - 1 - 1 := by rw [hsp, afterEntry, BitVec.sub_add_cancel]
  have hlo : s2.sp + 1 + 1 = s.sp - 1 := by rw [hp, BitVec.sub_add_cancel]
  have hhi : s2.sp + 1 + 1 + 1 = s.sp := by rw [hlo, BitVec.sub_add_cancel]
  have hstatus : s2.ram.read (stackOffset (s.sp - 1 - 1)) = s.packP b := by
    rw [hram, afterEntry, Memory.read_write_same]
  have hret : word (s2.ram.read (stackOffset (s.sp - 1))) (s2.ram.read (stackOffset s.sp)) = ret := by
    rw [hram, afterEntry, Memory.read_write_other _ _ (stackOffset_pred_ne (s.sp - 1)),
      Memory.read_write_other _ _ (stackOffset_pred_pred_ne s.sp), word_read_pushed]
  rw [exec_rti, hhi, hlo, hp, hstatus, hret, unpackP_packP]

/-- Settles O39: what JSR and BRK push is what RTS and RTI pull. -/
theorem roundTrips : Obligations.RoundTrips := by
  refine ⟨fun s s1 s2 target => rts_after_jsr, fun s s1 s2 h hram hsp => ?_⟩
  rw [exec_brk] at h
  cases h
  exact ⟨_, rti_after_entry (vector := irqVector) hram hsp, rfl, rfl, rfl, rfl, rfl, rfl, rfl, rfl⟩

/-! ## Branches and flag instructions -/

/-- A branch, exactly (R246). -/
theorem branchInstr_next {i : Instr} (hlen : instrLength i = 2) (hcycles : baseCycles i = 2) (s : State) (taken : Bool)
    (rel : Byte) : answer (branchInstr i taken rel s) = .next (branchTo s taken rel) := by
  cases taken with
  | false =>
    rw [branchInstr, State.retireInstr, hlen, hcycles]
    simp [branchTo, branchExtra, State.retire]
  | true =>
    rw [branchInstr, hlen, hcycles]
    simp [branchTo, branchExtra, State.jump, crossed]
    omega

/-- Settles O40: the encodings by their rows, the effects by the shape of a branch. -/
theorem branches : Obligations.Branches := by
  refine ⟨⟨encodes2 rfl, encodes2 rfl, encodes2 rfl, encodes2 rfl, encodes2 rfl, encodes2 rfl, encodes2 rfl, encodes2 rfl⟩,
    fun s rel => ⟨?bpl, ?bmi, ?bvc, ?bvs, ?bcc, ?bcs, ?bne, ?beq⟩⟩
  all_goals exact branchInstr_next rfl rfl s _ rel

/-- Settles O41: the encodings by their rows, the effects by the shape of an instruction on registers only. -/
theorem flagInstructions : Obligations.FlagInstructions := by
  refine ⟨⟨encodes1 rfl, encodes1 rfl, encodes1 rfl, encodes1 rfl, encodes1 rfl, encodes1 rfl, encodes1 rfl, encodes1 rfl⟩,
    fun s => ⟨?clc, ?sec, ?cli, ?sei, ?clv, ?cld, ?sed, ?nop⟩⟩
  all_goals
    simp only [exec, execClc, execSec, execCli, execSei, execClv, execCld, execSed, execNop]
    exact impliedInstr_next rfl rfl rfl rfl

end Sys2Proof.Machine
end

section
/-! The oscillators and the delta discipline, exactly: the turns of `RunTo`, the entries a delta lands in, and what `Emit`
writes (spec/45_apu_synthesis.md R304, R305, R321, R322, R332, R333). -/

namespace Sys2Proof.Machine

/-! ## RunTo -/

theorem map_eq_bind {α β : Type} (r : Res α) (f : α → β) : r.map f = r >>= fun a => pure (f a) := by cases r <;> rfl

section CatchUp

variable {env : SoundEnv} {i : Nat} {t : Int} {v : Voice} {w : Sound}

/-- A transition moves the due time on, so the turns a voice can still need are fewer after it (R302, R305). -/
theorem runFuel_after_delay (due t : Int) (delay : Option ℕ+) :
    runFuel (delay.map fun (d : ℕ+) => due + ((d : Nat) : Int)) t ≤ (t - due).toNat := by
  cases delay with
  | none => exact Nat.zero_le _
  | some d =>
    have hd := d.pos
    simp only [runFuel, Option.map_some]
    omega

/-- One turn of a due voice's loop, and the rest of the loop with the turns that it can need (R305). -/
theorem catchUp_due {due : Int} (hd : v.due = some due) (hle : due ≤ t) :
    catchUp env i t v w =
      emit env i due { v with osc := (env.chip.advance i v.osc).1 } w >>= fun r =>
        catchUp env i t
          { r.1 with due := (env.chip.advance i v.osc).2.map fun (delay : ℕ+) => due + ((delay : Nat) : Int) } r.2 := by
  have hfuel : runFuel v.due t = (t - due).toNat + 1 := by
    simp only [hd, runFuel]
    omega
  rw [catchUp, hfuel, runVoice]
  simp only [hd, if_pos hle]
  refine congrArg _ (funext fun r => ?_)
  exact runVoice_enough (runFuel_after_delay due t _) le_rfl

end CatchUp

/-- Settles O46: the loops turn by turn, and what they leave by what running the voices can do. -/
theorem runToCatchesUp : Obligations.RunToCatchesUp := by
  refine ⟨fun env t w => ?runTo, fun _ _ _ _ => rfl, fun env t i v vs w => ?cons,
    fun env i t due v w hd hle => catchUp_due hd hle, fun env i t v w h => runVoice_of_not_due _ w h, fun env t w w' h => ?leaves⟩
  case runTo =>
    rw [map_eq_bind]
    rfl
  case cons =>
    simp only [map_eq_bind]
    rfl
  case leaves =>
    obtain ⟨w1, h1, e⟩ := runTo_cases h
    obtain ⟨⟨⟨-, horigin, havail, -, hinteg⟩, -⟩, hL, hR, hdue⟩ := runVoices_adds h1
    rw [e]
    exact ⟨rfl, hdue, horigin, havail, hinteg .left, hinteg .right, hL, hR⟩

/-! ## Deltas -/

/-- What a delta at sample position `pos` adds to entry n of a delta array (R321, R322). -/
def deltaAt (ker : Kernel) (pos d : Rat) (n : Nat) : Rat :=
  if ⌊pos⌋ ≤ n ∧ (n : Int) < ⌊pos⌋ + kernelWidth ker then
    d * kernelTap ker (pos - (⌊pos⌋ : Rat)) ((n : Int) - ⌊pos⌋).toNat
  else 0

@[simp] theorem deltaAt_zero (ker : Kernel) (pos : Rat) (n : Nat) : deltaAt ker pos 0 n = 0 := by simp [deltaAt]

theorem deltaAt_add (ker : Kernel) (pos d d' : Rat) (n : Nat) :
    deltaAt ker pos d n + deltaAt ker pos d' n = deltaAt ker pos (d + d') n := by
  unfold deltaAt
  split
  · ring
  · exact add_zero 0

/-- Spreading a delta from an entry of the array on adds it there. -/
theorem spreadDelta_deltaAt (ker : Kernel) {pos : Rat} (hpos : 0 ≤ ⌊pos⌋) (d : Rat) (acc : List (Nat × Rat)) (n : Nat) :
    sparseRead 0 (spreadDelta ker (pos - (⌊pos⌋ : Rat)) d ⌊pos⌋.toNat (kernelWidth ker) acc) n =
      sparseRead 0 acc n + deltaAt ker pos d n := by
  have hwindow : (⌊pos⌋.toNat ≤ n ∧ n < ⌊pos⌋.toNat + kernelWidth ker) ↔
      (⌊pos⌋ ≤ n ∧ (n : Int) < ⌊pos⌋ + kernelWidth ker) := by omega
  have hindex : n - ⌊pos⌋.toNat = ((n : Int) - ⌊pos⌋).toNat := by omega
  rw [spreadDelta_read, deltaAt, hindex]
  simp only [hwindow]

/-- A delta inside the unconfirmed window is taken (R322). -/
theorem addDelta_ok {env : SoundEnv} {b : Side} {t : Int} {d : Rat} {w : Sound}
    (h : ¬(⌊samplePos env w t⌋ < (w.avail : Int) ∨
      (env.capacity : Int) + kernelWidth env.kernel < ⌊samplePos env w t⌋ + kernelWidth env.kernel)) :
    ∃ w', addDelta env b t d w = .ok w' := ⟨_, if_neg h⟩

/-- A delta that is taken adds to its own buffer's array, and to no other (R322). -/
theorem addDelta_read {env : SoundEnv} {b : Side} {t : Int} {d : Rat} {w w' : Sound} (h : addDelta env b t d w = .ok w')
    (b' : Side) (n : Nat) :
    sparseRead 0 (w'.buffer b').acc n =
      sparseRead 0 (w.buffer b').acc n + deltaAt env.kernel (samplePos env w t) (if b' = b then d else 0) n := by
  obtain ⟨hk, rfl⟩ := addDelta_cases h
  by_cases hb : b' = b
  · subst hb
    rw [Sound.buffer_setBuffer_same, if_pos rfl]
    exact spreadDelta_deltaAt env.kernel (by omega) d _ n
  · rw [Sound.buffer_setBuffer_other _ _ hb, if_neg hb, deltaAt_zero, add_zero]

/-- Settles O49 (`addDelta` is the operation): the two sides of the window by the test it makes, and the kernel's sum by its
construction. -/
theorem addDeltaObligation : Obligations.AddDelta := by
  refine ⟨?_, kernelTap_sum⟩
  rintro env b t d w k phi width rfl rfl rfl
  refine ⟨fun h => if_pos h, fun h => ?_⟩
  obtain ⟨w', hw'⟩ := addDelta_ok (b := b) (d := d) h
  refine ⟨w', hw', ?_, fun n => ?_⟩
  · obtain ⟨-, rfl⟩ := addDelta_cases hw'
    rw [Sound.buffer_setBuffer_same]
  · have hread := addDelta_read hw' b n
    rw [if_pos rfl] at hread
    exact hread

/-! ## Emit -/

section Emit

variable {env : SoundEnv} {i : Nat} {t : Int} {b : Side} {v v' : Voice} {w w' : Sound}

/-- The voice with its last level in each buffer at its target (R304, R333). -/
def Voice.emitted (env : SoundEnv) (i : Nat) (v : Voice) : Voice :=
  { v with lastL := targetLevel env i v .left, lastR := targetLevel env i v .right }

theorem emitSide_of_unchanged (h : targetLevel env i v b = v.last b) : emitSide env i t b v w = .ok (v, w) := if_pos h

/-- What `Emit` leaves of the voice: its last levels at their targets (R304). -/
theorem emit_voice (h : emit env i t v w = .ok (v', w')) : v' = v.emitted env i := by
  obtain ⟨v1, w1, h1, h2⟩ := emit_cases h
  rw [emitSide_level h2, emitSide_level h1]
  rfl

theorem Voice.last_emitted (env : SoundEnv) (i : Nat) (v : Voice) (b : Side) :
    (v.emitted env i).last b = targetLevel env i v b := by
  cases b <;> rfl

end Emit

/-- Settles O50: no side has a change to write where the routed levels stand, and otherwise each side goes to its target. -/
theorem emitOnlyChanges : Obligations.EmitOnlyChanges := by
  refine ⟨fun env i t v w h => ?_, fun env i t v v' w w' h => ?_⟩
  · have unchanged (b : Side) : targetLevel env i v b = v.last b := by
      unfold targetLevel
      split
      · exact (h b (by assumption)).symm
      · rfl
    rw [emit, emitSide_of_unchanged (unchanged .left)]
    exact emitSide_of_unchanged (unchanged .right)
  · rw [emit_voice h]
    exact ⟨rfl, rfl, rfl, rfl, fun b => Voice.last_emitted env i v b⟩

end Sys2Proof.Machine
end

section
/-! Reading out the buffers: the samples, what is left of a buffer, and that two reads are one
(spec/45_apu_synthesis.md R326, R327, R335). -/

namespace Sys2Proof.Machine

/-! ## One buffer -/

/-- The first n samples of a buffer, each made of the level after its own entry (R326). -/
def SampleBuffer.samples (gain : Rat) (n : Nat) (buf : SampleBuffer) : List Int :=
  (List.range n).map fun j => pcmSample gain (levelAfter buf (j + 1))

/-- What is left of a buffer after its first n entries (R326). -/
def SampleBuffer.after (n : Nat) (buf : SampleBuffer) : SampleBuffer :=
  { acc := shiftDown n buf.acc, integ := levelAfter buf n }

theorem readOut_eq (gain : Rat) (n : Nat) (buf : SampleBuffer) : readOut gain n buf = (buf.samples gain n, buf.after n) := by
  simp only [readOut, integrate_eq, zero_add]
  rfl

theorem SampleBuffer.length_samples (gain : Rat) (n : Nat) (buf : SampleBuffer) : (buf.samples gain n).length = n := by
  simp [SampleBuffer.samples]

/-- Entries read later count on from the level the entries before them left (R327). -/
theorem levelAfter_after (n m : Nat) (buf : SampleBuffer) : levelAfter (buf.after n) m = levelAfter buf (n + m) := by
  have hread : sparseRead 0 (shiftDown n buf.acc) = fun j => sparseRead 0 buf.acc (n + j) :=
    funext fun j => by rw [sparseRead_shiftDown, Nat.add_comm]
  simp only [SampleBuffer.after, levelAfter, hread, List.range_add, List.map_append, List.sum_append, List.map_map,
    Function.comp_def, add_assoc]

theorem SampleBuffer.samples_add (gain : Rat) (n m : Nat) (buf : SampleBuffer) :
    buf.samples gain (n + m) = buf.samples gain n ++ (buf.after n).samples gain m := by
  simp only [SampleBuffer.samples, levelAfter_after, List.range_add, List.map_append, List.map_map, Function.comp_def,
    add_assoc]

theorem shiftDown_shiftDown (n m : Nat) (acc : List (Nat × Rat)) : shiftDown m (shiftDown n acc) = shiftDown (n + m) acc := by
  simp only [shiftDown, List.filter_map, List.map_map, List.filter_filter, Function.comp_def, Nat.sub_sub]
  congr 2
  funext c
  rw [← Bool.decide_and]
  exact decide_eq_decide.2 (by omega)

theorem SampleBuffer.after_after (n m : Nat) (buf : SampleBuffer) : (buf.after n).after m = buf.after (n + m) := by
  rw [SampleBuffer.after, levelAfter_after, SampleBuffer.after, shiftDown_shiftDown]
  rfl

/-- A sample is a 16-bit signed number (R326). -/
theorem pcmSample_bounds (gain level : Rat) : -32768 ≤ pcmSample gain level ∧ pcmSample gain level ≤ 32767 := by
  unfold pcmSample
  omega

/-! ## Interleaving -/

theorem length_interleave {ls rs : List Int} (h : ls.length = rs.length) :
    (interleave ls rs).length = 2 * ls.length := by
  induction ls generalizing rs with
  | nil => simp [interleave]
  | cons l ls ih =>
    cases rs with
    | nil => simp at h
    | cons r rs =>
      have hlen := ih (Nat.succ.inj h)
      simp only [interleave, List.length_cons, hlen]
      omega

theorem mem_of_mem_interleave {ls rs : List Int} {x : Int} (h : x ∈ interleave ls rs) : x ∈ ls ∨ x ∈ rs := by
  induction ls generalizing rs with
  | nil => simp [interleave] at h
  | cons l ls ih =>
    cases rs with
    | nil => simp [interleave] at h
    | cons r rs =>
      simp only [interleave, List.mem_cons] at h ⊢
      obtain rfl | rfl | h := h
      · exact .inl (.inl rfl)
      · exact .inr (.inl rfl)
      · exact (ih h).imp .inr .inr

theorem interleave_append {ls rs : List Int} (h : ls.length = rs.length) (ls' rs' : List Int) :
    interleave (ls ++ ls') (rs ++ rs') = interleave ls rs ++ interleave ls' rs' := by
  induction ls generalizing rs with
  | nil =>
    obtain rfl : rs = [] := List.length_eq_zero_iff.1 h.symm
    simp [interleave]
  | cons l ls ih =>
    cases rs with
    | nil => simp at h
    | cons r rs => simp only [interleave, List.cons_append, ih (Nat.succ.inj h)]

/-! ## Both buffers -/

/-- What reading n samples answers (R326, R335). -/
def Sound.pcm (gain : Rat) (n : Nat) (w : Sound) : List Int := interleave (w.left.samples gain n) (w.right.samples gain n)

/-- What reading n samples leaves (R326). -/
def Sound.afterRead (n : Nat) (w : Sound) : Sound :=
  { w with left := w.left.after n, right := w.right.after n, origin := w.origin - n, avail := w.avail - n }

theorem Sound.buffer_afterRead (n : Nat) (w : Sound) (b : Side) : (w.afterRead n).buffer b = (w.buffer b).after n := by
  cases b <;> rfl

theorem readSamples_refused (gain : Rat) {n : Nat} {w : Sound} (h : w.avail < n) :
    readSamples gain n w = .error .readPastConfirmed := if_pos h

theorem readSamples_ok (gain : Rat) {n : Nat} {w : Sound} (h : n ≤ w.avail) :
    readSamples gain n w = .ok (w.pcm gain n, w.afterRead n) := by
  simp only [readSamples, if_neg (not_lt.2 h), readOut_eq]
  rfl

theorem readSamples_cases {gain : Rat} {n : Nat} {w w' : Sound} {pcm : List Int} (h : readSamples gain n w = .ok (pcm, w')) :
    n ≤ w.avail ∧ pcm = w.pcm gain n ∧ w' = w.afterRead n := by
  by_cases hn : n ≤ w.avail
  · rw [readSamples_ok gain hn] at h
    cases h
    exact ⟨hn, rfl, rfl⟩
  · rw [readSamples_refused gain (not_le.1 hn)] at h
    cases h

theorem Sound.length_pcm (gain : Rat) (n : Nat) (w : Sound) : (w.pcm gain n).length = 2 * n := by
  rw [Sound.pcm, length_interleave] <;> simp only [SampleBuffer.length_samples]

theorem Sound.pcm_bounds {gain : Rat} {n : Nat} {w : Sound} {x : Int} (h : x ∈ w.pcm gain n) : -32768 ≤ x ∧ x ≤ 32767 := by
  obtain h | h := mem_of_mem_interleave h
  all_goals
    obtain ⟨j, -, rfl⟩ := List.mem_map.1 h
    exact pcmSample_bounds gain _

/-- The read after n samples goes on where they ended (R327). -/
theorem Sound.pcm_add (gain : Rat) (n m : Nat) (w : Sound) :
    w.pcm gain (n + m) = w.pcm gain n ++ (w.afterRead n).pcm gain m := by
  simp only [Sound.pcm, Sound.afterRead, SampleBuffer.samples_add]
  exact interleave_append (by simp only [SampleBuffer.length_samples]) _ _

theorem Sound.afterRead_afterRead (n m : Nat) (w : Sound) : (w.afterRead n).afterRead m = w.afterRead (n + m) := by
  simp only [Sound.afterRead, SampleBuffer.after_after, Nat.sub_sub, sub_sub, Nat.cast_add]

/-- Settles O51 (`readOut` is the operation on one buffer): what a read answers and leaves, each by its own definition, and two
reads by the laws of addition of both. -/
theorem readOutObligation : Obligations.ReadOut := by
  refine ⟨fun gain n w => readSamples_refused gain, fun gain n w hn => ?one, fun gain n1 n2 w w1 w2 p1 p2 h1 h2 => ?two⟩
  case one =>
    refine ⟨_, _, readSamples_ok gain hn, w.length_pcm gain n, fun x => Sound.pcm_bounds, fun k hk => interleave_get n _ _ hk,
      fun b => ?_, rfl, rfl, rfl, rfl⟩
    rw [Sound.buffer_afterRead]
    exact ⟨rfl, sparseRead_shiftDown n _⟩
  case two =>
    obtain ⟨hn1, rfl, rfl⟩ := readSamples_cases h1
    obtain ⟨hn2, rfl, rfl⟩ := readSamples_cases h2
    have hle : n2 ≤ w.avail - n1 := hn2
    rw [readSamples_ok gain (by omega), Sound.pcm_add, Sound.afterRead_afterRead]

end Sys2Proof.Machine
end

section
/-! The calls of the APU, exactly: what emitting every voice at one clock leaves of the voices and adds to the buffers, what a
write, a read, a frame end and `SetOutputs` do, and the spec's example of the reference tone (spec/45_apu_synthesis.md R304,
R306, R307, R309, R322, R328, R334, R340-R343). -/

namespace Sys2Proof.Machine

/-! ## What a clock's deltas add up to -/

/-- An operation that adds to buffer b, in the entries of clock t, the delta `d b`, and keeps the rest (R322). -/
def AddsAt (env : SoundEnv) (t : Int) (w w' : Sound) (d : Side → Rat) : Prop :=
  SameFrame w w' ∧ ∀ b n,
    sparseRead 0 (w'.buffer b).acc n = sparseRead 0 (w.buffer b).acc n + deltaAt env.kernel (samplePos env w t) (d b) n

section AddsAt

variable {env : SoundEnv} {t : Int} {w w' w'' : Sound} {d d' : Side → Rat}

theorem AddsAt.refl (env : SoundEnv) (t : Int) (w : Sound) : AddsAt env t w w fun _ => 0 :=
  ⟨SameFrame.refl w, fun b n => by rw [deltaAt_zero, add_zero]⟩

/-- The place of a clock depends on the origin alone, which stands (R321). -/
theorem AddsAt.trans (h : AddsAt env t w w' d) (h' : AddsAt env t w' w'' d') : AddsAt env t w w'' fun b => d b + d' b := by
  obtain ⟨hframe, hread⟩ := h
  obtain ⟨hframe', hread'⟩ := h'
  have hpos : samplePos env w' t = samplePos env w t := by rw [samplePos, hframe.2.1, samplePos]
  refine ⟨hframe.trans hframe', fun b n => ?_⟩
  rw [hread', hread, hpos, add_assoc, deltaAt_add]

theorem AddsAt.congr (h : AddsAt env t w w' d) (hd : ∀ b, d b = d' b) : AddsAt env t w w' d' := (funext hd : d = d') ▸ h

theorem emitSide_addsAt {i : Nat} {b : Side} {v v' : Voice} (h : emitSide env i t b v w = .ok (v', w')) :
    AddsAt env t w w' fun b' => v'.last b' - v.last b' := by
  obtain ⟨-, rfl, rfl⟩ | ⟨-, rfl, ha⟩ := emitSide_cases h
  · exact (AddsAt.refl env t w').congr fun b' => (sub_self _).symm
  · refine AddsAt.congr ⟨addDelta_sameFrame ha, addDelta_read ha⟩ fun b' => ?_
    by_cases hb : b' = b
    · rw [hb, if_pos rfl, Voice.last_setLast_same]
    · rw [if_neg hb, Voice.last_setLast_other _ _ hb, sub_self]

theorem emit_addsAt {i : Nat} {v v' : Voice} (h : emit env i t v w = .ok (v', w')) :
    AddsAt env t w w' fun b => v'.last b - v.last b := by
  obtain ⟨v1, w1, h1, h2⟩ := emit_cases h
  exact ((emitSide_addsAt h1).trans (emitSide_addsAt h2)).congr fun b => by ring

theorem emitVoices_cons_cases {i : Nat} {v : Voice} {vs vs' : List Voice} (h : emitVoices env t i (v :: vs) w = .ok (vs', w')) :
    ∃ v1 w1 vs1, emit env i t v w = .ok (v1, w1) ∧ emitVoices env t (i + 1) vs w1 = .ok (vs1, w') ∧ vs' = v1 :: vs1 := by
  simp only [emitVoices, bind_eq_ok, Prod.exists, pure_eq_ok, Except.ok.injEq, Prod.mk.injEq] at h
  obtain ⟨v1, w1, h1, vs1, w2, h2, rfl, rfl⟩ := h
  exact ⟨v1, w1, vs1, h1, h2, rfl⟩

/-- Emitting every voice takes each to its target, and adds the sum of the changes of level (R304). -/
theorem emitVoices_exact {i : Nat} {vs vs' : List Voice} (h : emitVoices env t i vs w = .ok (vs', w')) :
    vs' = (vs.mapIdx fun k v => v.emitted env (k + i)) ∧ AddsAt env t w w' fun b => lastSum vs' b - lastSum vs b := by
  induction vs generalizing i w vs' with
  | nil =>
    cases h
    exact ⟨rfl, (AddsAt.refl env t _).congr fun b => (sub_self _).symm⟩
  | cons v vs ih =>
    obtain ⟨v1, w1, vs1, h1, h2, rfl⟩ := emitVoices_cons_cases h
    obtain ⟨hvoices, hadds⟩ := ih h2
    refine ⟨?_, ((emit_addsAt h1).trans hadds).congr fun b => ?_⟩
    · simp only [emit_voice h1, hvoices, List.mapIdx_cons, Nat.zero_add, Nat.add_assoc, Nat.add_comm 1]
    · rw [lastSum_cons, lastSum_cons]
      ring

/-- What emitting every voice leaves: the voices, and the buffers of the sound it came to (R306, R307). -/
theorem emitAll_cases (h : emitAll env t w = .ok w') :
    ∃ w1, emitVoices env t 0 w.voices w = .ok (w'.voices, w1) ∧ w' = { w1 with voices := w'.voices } := by
  simp only [emitAll, bind_eq_ok, Prod.exists, pure_eq_ok, Except.ok.injEq] at h
  obtain ⟨vs, w1, h1, rfl⟩ := h
  exact ⟨w1, h1, rfl⟩

end AddsAt

/-! ## The calls -/

section Calls

variable {env : SoundEnv} {c : Int} {reg : Nat} {w w1 : Sound}

theorem setOutputs_eq (mask : Nat) (w : Sound) :
    setOutputs mask w =
      { w with voices := w.voices.mapIdx fun i v => { v with outL := !mask.testBit i, outR := !mask.testBit i } } := by
  rw [setOutputs, routeVoices_eq_mapIdx]
  rfl

/-- A write to the chip, once the oscillators stand at its clock (R306). -/
theorem apuWrite_eq (v : Byte) (hc : w.apuTime ≤ c) (h : runTo env c w = .ok w1) :
    apuWrite env c reg v w =
      emitAll env c { w1 with
        voices := setTimed (fun i => env.chip.write i (w1.voices.map Voice.timed) reg v c) 0 w1.voices } := by
  rw [apuWrite, if_neg (not_lt.2 hc), h, ok_bind]

/-- A read of a register that the chip defines, once the oscillators stand at its clock (R307). -/
theorem apuRead_eq (openBus : Byte) (hc : w.apuTime ≤ c) (hreg : env.chip.defines reg = true) (h : runTo env c w = .ok w1) :
    apuRead env openBus c reg w =
      (emitAll env c { w1 with
        voices := setTimed (fun i => env.chip.readEffect i (w1.voices.map Voice.timed) reg c) 0 w1.voices }).map fun w' =>
        (env.chip.readValue (w1.voices.map Voice.timed) reg c, w') := by
  rw [apuRead, if_neg (not_lt.2 hc), if_neg (by simp [hreg]), h, ok_bind, map_eq_bind]

/-- A read of a register that the chip does not define (R307, log entry 16). -/
theorem apuRead_undefined (openBus : Byte) (hc : w.apuTime ≤ c) (hreg : env.chip.defines reg = false) :
    apuRead env openBus c reg w = .ok (openBus, w) := by
  rw [apuRead, if_neg (not_lt.2 hc), if_pos hreg]

/-- A frame end, once the oscillators have been run: the rebase of the times, and the samples it confirms (R309, R328). -/
theorem apuEndFrame_eq {length : Int} (h : runTo env (max length w.apuTime) w = .ok w1) :
    apuEndFrame env length w =
      if (env.capacity : Int) < ⌊w1.origin + (length : Rat) * env.ratio⌋ then .error .bufferHorizon
      else .ok { w1 with
        apuTime := w1.apuTime - length
        voices := w1.voices.map (rebaseVoice length)
        origin := w1.origin + (length : Rat) * env.ratio
        avail := ⌊w1.origin + (length : Rat) * env.ratio⌋.toNat } := by
  have hcap : ⌊w1.origin + (length : Rat) * env.ratio⌋.toNat > env.capacity ↔
      (env.capacity : Int) < ⌊w1.origin + (length : Rat) * env.ratio⌋ := by omega
  rw [apuEndFrame, h, ok_bind, bufferEndFrame]
  simp only [hcap]

end Calls

/-- Settles O60: each call by its equation, and the emission of every voice by the sum of what the voices add at one clock. -/
theorem apuCalls : Obligations.ApuCalls := by
  refine ⟨setOutputs_eq, fun env c reg v w w1 hc h => ?write, fun env openBus c reg w w1 hc hreg h => ?read,
    fun env openBus c reg w hc hreg => apuRead_undefined openBus hc hreg, fun env length w f h => ?refused,
    fun env length w w1 origin h ho => ?endFrame, fun env t w w' k phi h hk hphi => ?emit⟩
  case write =>
    rw [apuWrite_eq v hc h, setTimed_eq_mapIdx]
    rfl
  case read =>
    rw [apuRead_eq openBus hc hreg h, setTimed_eq_mapIdx]
    rfl
  case refused => rw [apuEndFrame, h, error_bind]
  case endFrame =>
    subst ho
    exact apuEndFrame_eq h
  case emit =>
    subst hk hphi
    obtain ⟨w1, h1, e⟩ := emitAll_cases h
    obtain ⟨hvoices, ⟨htime, horigin, havail, -, hinteg⟩, hread⟩ := emitVoices_exact h1
    have hbuffer (b : Side) : w'.buffer b = w1.buffer b := by
      rw [e]
      cases b <;> rfl
    refine ⟨by rw [e]; exact htime, by rw [e]; exact horigin, by rw [e]; exact havail, hvoices, fun b => ?_⟩
    rw [hbuffer]
    exact ⟨hinteg b, hread b⟩

/-! ## The reference tone -/

/-- Settles O52, by running the model on the spec's example. -/
theorem refToneExample : Obligations.RefToneExample := by
  rintro env rfl
  decide +kernel

end Sys2Proof.Machine
end

section
/-! What a step does to the APU and the synthesis buffer: one inversion of the step into the six things that can happen to them,
and that each keeps the level invariant, the place of the confirmed samples and the canonical form of the delta arrays
(spec/45_apu_synthesis.md R309, R310, R322, R324, R326, R328, R334). -/

namespace Sys2Proof.Machine

/-! ## The turns of the block, by what they do to the sound -/

/-- What a step can do to the APU and the buffers, and to the clock that they are measured by. -/
inductive SoundTurn (s s' : State) : Prop where
  /-- Nothing, and the clock stands or moves on. -/
  | quiet (hw : s'.sound = s.sound) (hc : s.clock ≤ s'.clock)
  /-- A frame begins, and the mute mask takes effect (R334, R355). -/
  | routed (mask : Nat) (hw : s'.sound = setOutputs mask s.sound) (hc : s'.clock = s.clock)
  /-- A turn of the run loop (R131, R354, R355). -/
  | boundary {endClock : Option Int} {r : Option RunResult} {s1 : State} (hb : boundary endClock s = .next (r, s1))
      (hw : s'.sound = s1.sound) (hc : s'.clock = s1.clock)
  /-- A frame ends, its length having passed (R309, R355, R358). -/
  | frameEnd {length : ℕ+} (hle : ((length : Nat) : Int) ≤ s.clock)
      (hw : apuEndFrame s.soundEnv ((length : Nat) : Int) s.sound = .ok s'.sound)
      (hc : s'.clock = s.clock - ((length : Nat) : Int))
  /-- Samples are read out (R326, R368). -/
  | read {need : Nat} {pcm : List Int} (hw : readSamples s.params.gain need s.sound = .ok (pcm, s'.sound))
      (hc : s'.clock = s.clock)
  /-- `start_track` (R352, R453, R454). -/
  | reset (hw : s'.sound = setOutputs 0 (freshSound (chipOf s.params.chip))) (hc : s'.clock = 0)

section Inversion

variable {s s' : State}

theorem leaveFrame_soundTurn {length : ℕ+} {need : Option Nat} (hle : ((length : Nat) : Int) ≤ s.clock)
    (h : leaveFrame s length need = .ok s') : SoundTurn s s' := by
  obtain ⟨hcpu, -, hw, -⟩ := leaveFrame_cases h
  exact .frameEnd hle hw (congrArg CpuSide.clock hcpu)

theorem playEntry_sound (h : playEntry s = .ok s') : s'.sound = s.sound := by
  unfold playEntry at h
  split at h
  · cases h
  · simp only [pushSentinel_ok, ok_bind, pure_eq_ok, Except.ok.injEq] at h
    subst h
    rfl

theorem initTurn_soundTurn (h : initTurn s = .next s') : SoundTurn s s' := by
  obtain ⟨r, s1, hb, ⟨-, rfl⟩ | ⟨-, rfl⟩ | ⟨-, -, rfl⟩⟩ := initTurn_cases h
  all_goals exact .boundary hb rfl rfl

theorem frameTurn_soundTurn {length : ℕ+} {need : Option Nat} (h : frameTurn s length need = .next s') : SoundTurn s s' := by
  obtain ⟨-, ⟨hle, hl⟩ | ⟨-, -, hp⟩ | ⟨hc, hn, rfl⟩⟩ | ⟨-, r, s1, hb, ⟨rfl, hl⟩ | ⟨-, rfl⟩ | ⟨-, -, rfl⟩⟩ := frameTurn_cases h
  · exact leaveFrame_soundTurn hle hl
  · exact .quiet (playEntry_sound hp) (congrArg CpuSide.clock (playEntry_cpuSide hp)).ge
  · exact .quiet rfl (le_min hn.le hc.le)
  · rw [boundary_reached hb] at hl
    exact leaveFrame_soundTurn (boundary_reached_clock hb) hl
  · exact .boundary hb rfl rfl
  · exact .boundary hb rfl rfl

theorem playTurn_soundTurn {need : Nat} (h : playTurn s need = .ok s') : SoundTurn s s' := by
  unfold playTurn at h
  split at h
  · cases h
    exact .routed s.mute rfl rfl
  · simp only [bind_eq_ok, pure_eq_ok, Except.ok.injEq, Prod.exists] at h
    obtain ⟨pcm, w, hr, rfl⟩ := h
    exact .read hr rfl

theorem startTrack_soundTurn {n : Nat} {rest : List HostCall} (h : startTrack { s with calls := rest } n = .ok s') :
    SoundTurn s s' := by
  unfold startTrack at h
  split at h
  · cases h
    exact .quiet rfl le_rfl
  · split at h
    · cases h
      exact .quiet rfl le_rfl
    · rw [startTrackSteps_ok] at h
      cases h
      exact .reset rfl rfl

theorem hostCall_soundTurn {call : HostCall} {rest : List HostCall} (h : hostCall { s with calls := rest } call = .ok s') :
    SoundTurn s s' := by
  cases call with
  | startTrack n => exact startTrack_soundTurn h
  | setSampleRate rate =>
    cases h
    unfold setSampleRate
    split <;> exact .quiet rfl le_rfl
  | endFrame length =>
    cases h
    unfold endFrame
    split
    · exact .quiet rfl le_rfl
    · exact .routed s.mute rfl rfl
  | play count =>
    cases h
    unfold play
    split
    · exact .quiet rfl le_rfl
    · split <;> exact .quiet rfl le_rfl
  | muteVoice i on =>
    cases h
    unfold muteVoice
    split <;> exact .quiet rfl le_rfl
  | setTempo t | warning =>
    cases h
    exact .quiet rfl le_rfl

/-- Every step does one of the six. -/
theorem step_soundTurn (h : step s = .next s') : SoundTurn s s' := by
  obtain ⟨-, -, rfl⟩ | ⟨-, call, rest, -, hh⟩ | ⟨-, hi⟩ | ⟨length, need, -, hf⟩ | ⟨need, -, hp⟩ := step_cases h
  · exact .quiet rfl le_rfl
  · exact hostCall_soundTurn hh
  · exact initTurn_soundTurn hi
  · exact frameTurn_soundTurn hf
  · exact playTurn_soundTurn hp

end Inversion

/-! ## The three invariants, operation by operation -/

/-- The canonical form, the level invariant and the place of the confirmed samples, together. -/
def SoundOk (w : Sound) : Prop := BuffersOk w ∧ LevelOk w ∧ AvailOk w

theorem Keeps.soundOk {w w' : Sound} (hk : Keeps w w') (h : SoundOk w) : SoundOk w' := by
  obtain ⟨horigin, havail, hkept⟩ := hk
  obtain ⟨hb, hl, ha⟩ := h
  obtain ⟨hb', hl'⟩ := hkept hb
  refine ⟨hb', hl' hl, ?_⟩
  rw [AvailOk, horigin, havail]
  exact ha

theorem Keeps.refl (w : Sound) : Keeps w w := ⟨rfl, rfl, fun hb => ⟨hb, id⟩⟩

theorem Keeps.of_eq {w w' : Sound} (h : w' = w) : Keeps w w' := h ▸ Keeps.refl w'

/-! ### Routing and reset -/

theorem lastSum_routeVoices (mask i : Nat) (vs : List Voice) (b : Side) : lastSum (routeVoices mask i vs) b = lastSum vs b := by
  induction vs generalizing i with
  | nil => rfl
  | cons v vs ih =>
    rw [routeVoices, lastSum_cons, lastSum_cons, ih]
    cases b <;> rfl

/-- The routing is no level (R333, R334). -/
theorem setOutputs_soundOk (mask : Nat) {w : Sound} (h : SoundOk w) : SoundOk (setOutputs mask w) := by
  obtain ⟨hb, hl, ha⟩ := h
  refine ⟨hb, fun b => ?_, ha⟩
  have hsum : lastSum (setOutputs mask w).voices b = lastSum w.voices b := lastSum_routeVoices mask 0 w.voices b
  rw [hsum]
  exact hl b

theorem freshVoice_last (c : ApuChip) (i : Nat) (b : Side) : (freshVoice c i).last b = 0 := by cases b <;> rfl

theorem lastSum_freshVoices (c : ApuChip) (is : List Nat) (b : Side) : lastSum (is.map (freshVoice c)) b = 0 := by
  induction is with
  | nil => rfl
  | cons i is ih =>
    rw [List.map_cons, lastSum_cons, ih, freshVoice_last, add_zero]

theorem freshSound_soundOk (c : ApuChip) : SoundOk (freshSound c) := by
  refine ⟨fun b => by cases b <;> rfl, fun b => ?_, le_refl 0, rfl⟩
  have hsum : lastSum (freshSound c).voices b = 0 := lastSum_freshVoices c (List.range c.voices) b
  have hempty : (freshSound c).buffer b = freshBuffer := by cases b <;> rfl
  rw [hsum, hempty]
  exact add_zero 0

/-! ### The end of a frame -/

theorem lastSum_rebase (length : Int) (vs : List Voice) (b : Side) :
    lastSum (vs.map (rebaseVoice length)) b = lastSum vs b := by
  induction vs with
  | nil => rfl
  | cons v vs ih =>
    rw [List.map_cons, lastSum_cons, lastSum_cons, ih]
    cases b <;> rfl

theorem State.ratio_nonneg (s : State) : 0 ≤ s.soundEnv.ratio := by
  change 0 ≤ ((s.sampleRate : Nat) : Rat) / clocksPerSecond s.params
  unfold clocksPerSecond
  positivity

/-- A frame end moves the origin on, and confirms what lies before it (R309, R328). -/
theorem apuEndFrame_soundOk {env : SoundEnv} {length : Int} {w w' : Sound} (hratio : 0 ≤ env.ratio) (hlength : 0 ≤ length)
    (h : SoundOk w) (he : apuEndFrame env length w = .ok w') : SoundOk w' := by
  obtain ⟨w1, hrun, -, rfl⟩ := apuEndFrame_cases he
  obtain ⟨hb, hl, horigin, -⟩ := (runTo_keeps hrun).1.soundOk h
  have hmoved : 0 ≤ w1.origin + (length : Rat) * env.ratio :=
    add_nonneg horigin (mul_nonneg (by exact_mod_cast hlength) hratio)
  refine ⟨hb, fun b => ?_, hmoved, Int.toNat_of_nonneg (Int.floor_nonneg.2 hmoved)⟩
  exact (hl b).trans (lastSum_rebase length w1.voices b).symm

/-! ### Reading out -/

theorem shiftDown_wf (n : Nat) {acc : List (Nat × Rat)} (h : sparseWf 0 acc = true) : sparseWf 0 (shiftDown n acc) = true := by
  rw [sparseWf_iff] at h ⊢
  obtain ⟨hsorted, hblank⟩ := h
  constructor
  · refine List.pairwise_map.2 ((hsorted.filter _).imp_of_mem fun {c d} hc hd hlt => ?_)
    simp only [List.mem_filter, decide_eq_true_eq] at hc hd
    omega
  · intro c hc
    obtain ⟨d, hd, rfl⟩ := List.mem_map.1 hc
    exact hblank d (List.mem_filter.1 hd).1

/-- The sum of a delta array's first n entries. -/
def entrySum (acc : List (Nat × Rat)) (n : Nat) : Rat := ((List.range n).map (sparseRead 0 acc)).sum

theorem levelAfter_eq (buf : SampleBuffer) (n : Nat) : levelAfter buf n = buf.integ + entrySum buf.acc n := rfl

theorem entrySum_nil (n : Nat) : entrySum [] n = 0 := by
  have hread : sparseRead (0 : Rat) [] = fun _ => 0 := rfl
  simp [entrySum, hread]

/-- An entry at the head of a canonical array counts among the first n exactly if it is one of them. -/
theorem entrySum_cons {k : Nat} {v : Rat} {acc : List (Nat × Rat)} (h : ∀ c ∈ acc, k < c.1) (n : Nat) :
    entrySum ((k, v) :: acc) n = (if k < n then v else 0) + entrySum acc n := by
  induction n with
  | zero => simp [entrySum]
  | succ n ih =>
    have step (m : List (Nat × Rat)) : entrySum m (n + 1) = entrySum m n + sparseRead 0 m n := by
      simp [entrySum, List.range_succ]
    have hblank : sparseRead 0 acc k = 0 := sparseRead_eq_blank fun c hc => (h c hc).ne'
    rw [step, step, ih, sparseRead_cons]
    obtain hlt | rfl | hgt := lt_trichotomy k n
    · rw [if_pos hlt, if_neg hlt.ne, if_pos (hlt.trans n.lt_succ_self)]
      ring
    · rw [if_neg (lt_irrefl k), if_pos rfl, if_pos k.lt_succ_self, hblank]
      ring
    · rw [if_neg hgt.not_gt, if_neg hgt.ne', if_neg (by omega : ¬k < n + 1)]
      ring

/-- What is read out of a delta array and what is left of it add up to what it held. -/
theorem entrySum_add_accSum_shiftDown (n : Nat) {acc : List (Nat × Rat)} (h : acc.Pairwise fun c d => c.1 < d.1) :
    entrySum acc n + accSum (shiftDown n acc) = accSum acc := by
  induction acc with
  | nil => rw [entrySum_nil, zero_add, shiftDown, List.filter_nil, List.map_nil]
  | cons c acc ih =>
    obtain ⟨k, v⟩ := c
    obtain ⟨hk, hacc⟩ := List.pairwise_cons.1 h
    have hrest := ih hacc
    rw [entrySum_cons hk, accSum_cons, ← hrest]
    by_cases hkn : k < n
    · have hshift : shiftDown n ((k, v) :: acc) = shiftDown n acc := by
        simp only [shiftDown, List.filter_cons_of_neg, decide_eq_true_eq, not_le.2 hkn, not_false_eq_true]
      rw [if_pos hkn, hshift]
      ring
    · have hshift : shiftDown n ((k, v) :: acc) = (k - n, v) :: shiftDown n acc := by
        simp only [shiftDown, List.filter_cons_of_pos, decide_eq_true_eq, not_lt.1 hkn, List.map_cons]
      rw [if_neg hkn, hshift, accSum_cons]
      ring

/-- Reading confirmed samples moves deltas from the array into the integrator, and the origin by whole samples (R326). -/
theorem afterRead_soundOk {n : Nat} {w : Sound} (hn : n ≤ w.avail) (h : SoundOk w) : SoundOk (w.afterRead n) := by
  obtain ⟨hb, hl, horigin, havail⟩ := h
  have hle : (n : Rat) ≤ w.origin := by
    have hfloor : (n : Int) ≤ ⌊w.origin⌋ := by omega
    exact_mod_cast Int.le_floor.1 hfloor
  refine ⟨fun b => ?_, fun b => ?_, sub_nonneg.2 hle, ?_⟩
  · rw [Sound.buffer_afterRead]
    exact shiftDown_wf n (hb b)
  · have hsum := entrySum_add_accSum_shiftDown n ((sparseWf_iff 0 _).1 (hb b)).1
    have hlevel := hl b
    rw [Sound.buffer_afterRead]
    change levelAfter (w.buffer b) n + accSum (shiftDown n (w.buffer b).acc) = lastSum w.voices b
    rw [levelAfter_eq, add_assoc, hsum, hlevel]
  · change ((w.avail - n : Nat) : Int) = ⌊w.origin - (n : Rat)⌋
    rw [Int.floor_sub_natCast, ← havail, Nat.cast_sub hn]

/-! ### The CPU -/

section Cpu

variable {s s' : State}

/-- What a read does to the sound: it keeps the buffers' invariants, and takes the APU no further than its own time (R74,
R307). -/
theorem memRead_keeps {a : Addr} {t : Int} {v : Byte} (h : memRead s a t = .ok (v, s')) :
    Keeps s.sound s'.sound ∧ (s.sound.apuTime ≤ t → s'.sound.apuTime ≤ t) := by
  obtain ⟨-, -, rfl⟩ | ⟨-, w, hr, rfl⟩ := memRead_cases h
  · exact ⟨Keeps.refl _, id⟩
  · obtain ⟨hk, rfl | ⟨-, htime⟩⟩ := apuRead_keeps hr
    · exact ⟨hk, id⟩
    · exact ⟨hk, fun _ => htime.le⟩

/-- What a write does to the sound (R73, R306). -/
theorem memWrite_keeps {a : Addr} {t : Int} {v : Byte} (h : memWrite s a v t = .ok s') :
    Keeps s.sound s'.sound ∧ (s.sound.apuTime ≤ t → s'.sound.apuTime ≤ t) := by
  obtain ⟨-, rfl⟩ | ⟨-, -, rfl⟩ | ⟨-, w, hw, rfl⟩ | ⟨-, rfl⟩ | ⟨-, -, -, -, rfl⟩ := memWrite_cases h
  · exact ⟨Keeps.refl _, id⟩
  · exact ⟨Keeps.refl _, id⟩
  · obtain ⟨hk, -, htime⟩ := apuWrite_keeps hw
    exact ⟨hk, fun _ => htime.le⟩
  · rw [writeBank_eq]
    exact ⟨Keeps.refl _, id⟩
  · exact ⟨Keeps.refl _, id⟩

/-- The APU is none of the registers an instruction updates, and its accesses keep the buffers' invariants. -/
theorem ExecPath.keeps_sound {i : Instr} (p : ExecPath i s s') : Keeps s.sound s'.sound := by
  induction p with
  | start => exact Keeps.refl _
  | read _ _ h ih => exact ih.trans (memRead_keeps h).1
  | write _ _ h ih => exact ih.trans (memWrite_keeps h).1
  | @update s1 s2 _ h _ ih =>
    have hsound : (s2.unwritten i).sound = (s1.unwritten i).sound := congrArg State.sound h
    exact ih.trans (Keeps.of_eq hsound)
  | noop _ => exact Keeps.refl _

theorem fetchOperand_keeps {k len : Nat} {pc : Addr} {t : Int} {b : Byte} (h : fetchOperand s k len pc t = .ok (b, s')) :
    Keeps s.sound s'.sound ∧ (s.sound.apuTime ≤ t → s'.sound.apuTime ≤ t) := by
  unfold fetchOperand at h
  split at h
  · exact memRead_keeps h
  · cases h
    exact ⟨Keeps.refl _, id⟩

/-- A fetch keeps what its reads keep, all of them at the instruction's start (R132, R141). -/
theorem fetch_keeps {f : Fetched} (h : fetch s = .ok (f, s')) :
    Keeps s.sound s'.sound ∧ (s.sound.apuTime ≤ s.clock → s'.sound.apuTime ≤ s.clock) := by
  simp only [fetch, bind_eq_ok, Prod.exists] at h
  obtain ⟨op, s1, h1, h⟩ := h
  obtain ⟨k1, t1⟩ := memRead_keeps h1
  split at h
  · cases h
    exact ⟨k1, t1⟩
  · split at h
    · cases h
      exact ⟨k1, t1⟩
    · simp only [bind_eq_ok, Prod.exists] at h
      obtain ⟨b1, s2, h2, b2, s3, h3, h⟩ := h
      cases h
      obtain ⟨k2, t2⟩ := fetchOperand_keeps h2
      obtain ⟨k3, t3⟩ := fetchOperand_keeps h3
      exact ⟨k1.trans (k2.trans k3), t3 ∘ t2 ∘ t1⟩

theorem cpuStep_keeps {r : StepResult} (h : cpuStep s = .next (r, s')) : Keeps s.sound s'.sound := by
  obtain ⟨w, ⟨hf, -, rfl⟩ | ⟨i, hf, hi, -⟩⟩ := cpuStep_cases h
  · exact (fetch_keeps hf).1
  · exact (fetch_keeps hf).1.trans (exec_path hi).keeps_sound

theorem takeInterrupt_sound (h : takeInterrupt s = .ok s') : s'.sound = s.sound := by
  rw [takeInterrupt_ok] at h
  cases h
  rfl

theorem boundary_keeps {endClock : Option Int} {r : Option RunResult} (h : boundary endClock s = .next (r, s')) :
    Keeps s.sound s'.sound := by
  obtain ⟨-, ⟨-, -, rfl⟩ | ⟨-, -, -, rfl⟩ | ⟨-, -, -, -, hi⟩ | ⟨-, -, -, sr, hs, -⟩⟩ := boundary_cases h
  · exact Keeps.refl _
  · exact Keeps.refl _
  · exact .of_eq (takeInterrupt_sound hi)
  · exact cpuStep_keeps hs

end Cpu

/-- Settles O48: each of the six turns keeps the three invariants, the CPU's accesses among them. -/
theorem soundInvariantKept : Obligations.SoundInvariantKept := by
  intro s s' hb hl ha h
  have hok : SoundOk s.sound := ⟨hb, hl, ha⟩
  change SoundOk s'.sound
  cases step_soundTurn h with
  | quiet hw _ =>
    rw [hw]
    exact hok
  | routed mask hw _ =>
    rw [hw]
    exact setOutputs_soundOk mask hok
  | boundary hb hw _ =>
    rw [hw]
    exact (boundary_keeps hb).soundOk hok
  | frameEnd _ hw _ => exact apuEndFrame_soundOk s.ratio_nonneg (Int.natCast_nonneg _) hok hw
  | read hw _ =>
    obtain ⟨hn, -, hw⟩ := readSamples_cases hw
    rw [hw]
    exact afterRead_soundOk hn hok
  | reset hw _ =>
    rw [hw]
    exact setOutputs_soundOk 0 (freshSound_soundOk _)

end Sys2Proof.Machine
end

section
/-! The APU's clock and the CPU's: no access, no instruction and no turn of the block takes the APU past the CPU's clock, so that
none asks it for a time that has passed (spec/45_apu_synthesis.md R308, spec/40_interpreter.md R141). -/

namespace Sys2Proof.Machine

/-! ## Stops that are not for the order of times -/

/-- An operation that does not stop for a clock before apu_time (R308). -/
def NotLate {α : Type} (r : Res α) : Prop := r ≠ .error .apuTimeOrder

theorem NotLate.ok {α : Type} (a : α) : NotLate (.ok a : Res α) := nofun

theorem NotLate.bind {α β : Type} {r : Res α} {f : α → Res β} (hr : NotLate r) (hf : ∀ a, r = .ok a → NotLate (f a)) :
    NotLate (r >>= f) := by
  cases r with
  | error e => exact fun h => hr (congrArg Except.error (Except.error.inj h))
  | ok a => exact hf a rfl

section Sound

variable (env : SoundEnv) (t : Int)

/-- A delta is refused for its place alone (R322). -/
theorem addDelta_notLate (b : Side) (d : Rat) (w : Sound) : NotLate (addDelta env b t d w) :=
  fun h => nomatch addDelta_error h

theorem emitSide_notLate (i : Nat) (b : Side) (v : Voice) (w : Sound) : NotLate (emitSide env i t b v w) := by
  unfold emitSide
  simp only
  split
  · exact .ok _
  · exact (addDelta_notLate env t b _ w).bind fun _ _ => .ok _

theorem emit_notLate (i : Nat) (v : Voice) (w : Sound) : NotLate (emit env i t v w) :=
  (emitSide_notLate env t i .left v w).bind fun r _ => emitSide_notLate env t i .right r.1 r.2

theorem runVoice_notLate (i fuel : Nat) (v : Voice) (w : Sound) : NotLate (runVoice env i t fuel v w) := by
  induction fuel generalizing v w with
  | zero => exact .ok _
  | succ fuel ih =>
    unfold runVoice
    split
    · exact .ok _
    · split
      · exact (emit_notLate env _ i _ w).bind fun _ _ => ih _ _
      · exact .ok _

theorem runVoices_notLate (i : Nat) (vs : List Voice) (w : Sound) : NotLate (runVoices env t i vs w) := by
  induction vs generalizing i w with
  | nil => exact .ok _
  | cons v vs ih => exact (runVoice_notLate env t i _ v w).bind fun r _ => (ih (i + 1) r.2).bind fun _ _ => .ok _

theorem runTo_notLate (w : Sound) : NotLate (runTo env t w) :=
  (runVoices_notLate env t 0 w.voices w).bind fun _ _ => .ok _

theorem emitVoices_notLate (i : Nat) (vs : List Voice) (w : Sound) : NotLate (emitVoices env t i vs w) := by
  induction vs generalizing i w with
  | nil => exact .ok _
  | cons v vs ih => exact (emit_notLate env t i v w).bind fun r _ => (ih (i + 1) r.2).bind fun _ _ => .ok _

theorem emitAll_notLate (w : Sound) : NotLate (emitAll env t w) :=
  (emitVoices_notLate env t 0 w.voices w).bind fun _ _ => .ok _

theorem apuWrite_late {w : Sound} {c : Int} (h : c < w.apuTime) (reg : Nat) (v : Byte) :
    apuWrite env c reg v w = .error .apuTimeOrder := if_pos h

theorem apuRead_late {w : Sound} {c : Int} (h : c < w.apuTime) (openBus : Byte) (reg : Nat) :
    apuRead env openBus c reg w = .error .apuTimeOrder := if_pos h

theorem apuWrite_notLate {w : Sound} (h : w.apuTime ≤ t) (reg : Nat) (v : Byte) : NotLate (apuWrite env t reg v w) := by
  rw [apuWrite, if_neg (not_lt.2 h)]
  exact (runTo_notLate env t w).bind fun _ _ => emitAll_notLate env t _

theorem apuRead_notLate {w : Sound} (h : w.apuTime ≤ t) (openBus : Byte) (reg : Nat) :
    NotLate (apuRead env openBus t reg w) := by
  rw [apuRead, if_neg (not_lt.2 h)]
  split
  · exact .ok _
  · exact (runTo_notLate env t w).bind fun _ _ => (emitAll_notLate env t _).bind fun _ _ => .ok _

/-- A frame end is given no time of its own: it runs the oscillators to apu_time at least (R309). -/
theorem apuEndFrame_notLate (length : Int) (w : Sound) : NotLate (apuEndFrame env length w) := by
  refine (runTo_notLate env _ w).bind fun w1 _ => ?_
  unfold bufferEndFrame
  simp only
  split <;> exact nofun

end Sound

/-! ## Accesses -/

section Accesses

variable {s s' : State} {t : Int}

theorem memRead_notLate (h : s.sound.apuTime ≤ t) (a : Addr) : NotLate (memRead s a t) := by
  by_cases ha : a = apuStatusAddr
  · rw [ha, memRead_status]
    exact (apuRead_notLate s.soundEnv t h s.params.openBus 0x15).bind fun _ _ => .ok _
  · rw [memRead_quiet s t ha]
    exact .ok _

theorem memWrite_notLate (h : s.sound.apuTime ≤ t) (a : Addr) (v : Byte) : NotLate (memWrite s a v t) := by
  cases ha : isApuWrite a with
  | true =>
    rw [memWrite_apu s v t ha, map_eq_bind]
    exact (apuWrite_notLate s.soundEnv t h _ v).bind fun _ _ => .ok _
  | false =>
    obtain ⟨s1, h1⟩ := memWrite_quiet s v t ha
    rw [h1]
    exact .ok _

theorem operand_notLate (h : s.sound.apuTime ≤ t) (src : Source) : NotLate (operand s src t) := by
  cases src with
  | imm v => exact .ok _
  | mem m => exact memRead_notLate h _

theorem operand_apuTime {src : Source} {m : Byte} (h : s.sound.apuTime ≤ t) (ho : operand s src t = .ok (m, s')) :
    s'.sound.apuTime ≤ t := by
  cases src with
  | imm v =>
    cases ho
    exact h
  | mem mode => exact (memRead_keeps ho).2 h

theorem fetchOperand_notLate (h : s.sound.apuTime ≤ t) (k len : Nat) (pc : Addr) : NotLate (fetchOperand s k len pc t) := by
  unfold fetchOperand
  split
  · exact memRead_notLate h _
  · exact .ok _

/-- A fetch reads at the clock, which the APU has not passed (R132). -/
theorem fetch_notLate (h : ApuBehindCpu s) : NotLate (fetch s) := by
  refine (memRead_notLate h s.pc).bind fun r1 h1 => ?_
  have t1 := (memRead_keeps h1).2 h
  simp only
  split
  · exact .ok _
  · split
    · exact .ok _
    · refine (fetchOperand_notLate t1 _ _ _).bind fun r2 h2 => ?_
      have t2 := (fetchOperand_keeps h2).2 t1
      exact (fetchOperand_notLate t2 _ _ _).bind fun _ _ => .ok _

end Accesses

/-! ## Instructions -/

/-- An answer that is no `ApuTimeOrder` and, if it is a state, leaves the APU behind the CPU's clock. -/
def InOrder (o : Answer State) : Prop := (∀ s', o = .next s' → ApuBehindCpu s') ∧ o ≠ .fault .apuTimeOrder

theorem InOrder.of_next {s : State} (h : ApuBehindCpu s) : InOrder (.next s) := by
  refine ⟨fun s' hs => ?_, nofun⟩
  cases hs
  exact h

theorem InOrder.of_fault {e : Fault} (h : e ≠ .apuTimeOrder) : InOrder (.fault e) :=
  ⟨fun _ hs => (nomatch hs), fun hf => h (Host.Outcome.fault.inj hf)⟩

theorem InOrder.of_answer {r : Res State} (hr : NotLate r) (h : ∀ s', r = .ok s' → ApuBehindCpu s') : InOrder (answer r) :=
  ⟨fun s' hs => h s' (answer_eq_next.1 hs), fun hf => hr (answer_eq_fault.1 hf)⟩

/-- The same APU is behind a later clock. -/
theorem ApuBehindCpu.later {s s' : State} (h : ApuBehindCpu s) (hw : s'.sound = s.sound) (hc : s.clock ≤ s'.clock) :
    ApuBehindCpu s' := by
  rw [ApuBehindCpu, hw]
  exact h.trans hc

/-- Data accesses are made after the instruction's start (R141). -/
theorem ApuBehindCpu.dataTime {s : State} (h : ApuBehindCpu s) (i : Instr) : s.sound.apuTime ≤ s.dataTime i :=
  h.trans (le_clock_add s _)

/-- An instruction retires no earlier than its data accesses (R135, R141). -/
theorem ApuBehindCpu.of_retireInstr {s s1 : State} {i : Instr} (hw : s1.sound.apuTime ≤ s.dataTime i)
    (hc : s1.clock = s.clock) (extra : Nat) : ApuBehindCpu (s1.retireInstr i extra) := by
  rw [ApuBehindCpu, State.retireInstr_sound, State.retireInstr_clock, hc]
  rw [State.dataTime] at hw
  omega

section Shapes

variable {i : Instr} {s : State}

theorem readInstr_inOrder (hs : ApuBehindCpu s) (src : Source) {f : Byte → State → State}
    (hw : ∀ m s1, (f m s1).sound = s1.sound) (hc : ∀ m s1, (f m s1).clock = s1.clock) :
    InOrder (answer (readInstr i src f s)) := by
  refine .of_answer ((operand_notLate (hs.dataTime i) src).bind fun _ _ => .ok _) fun s' h => ?_
  obtain ⟨m, s1, h1, rfl⟩ := readInstr_cases h
  refine .of_retireInstr (s := s) ?_ ?_ _
  · rw [hw]
    exact operand_apuTime (hs.dataTime i) h1
  · rw [hc, operand_frame h1]

theorem addInstr_inOrder (hs : ApuBehindCpu s) (src : Source) (sum : Byte → Byte → Bool → AluOut) :
    InOrder (answer (addInstr i src sum s)) := by
  by_cases hd : s.params.decimal = .refused ∧ s.d = true
  · rw [addInstr_refused hd, answer_error]
    exact .of_fault (by decide)
  · rw [addInstr_binary hd]
    exact readInstr_inOrder hs src (fun _ _ => rfl) fun _ _ => rfl

theorem storeInstr_inOrder (hs : ApuBehindCpu s) (dst : MemMode) (v : Byte) : InOrder (answer (storeInstr i dst v s)) := by
  refine .of_answer ((memWrite_notLate (hs.dataTime i) _ v).bind fun _ _ => .ok _) fun s' h => ?_
  obtain ⟨s1, h1, rfl⟩ := storeInstr_cases h
  exact .of_retireInstr ((memWrite_keeps h1).2 (hs.dataTime i)) (by rw [memWrite_frame h1]) _

theorem rmwInstr_inOrder (hs : ApuBehindCpu s) (m : RmwMode) {f : Byte → Byte} {g : Byte → State → State}
    (hw : ∀ old s1, (g old s1).sound = s1.sound) (hc : ∀ old s1, (g old s1).clock = s1.clock) :
    InOrder (answer (rmwInstr i m f g s)) := by
  refine .of_answer ?_ fun s' h => ?_
  · refine (memRead_notLate (hs.dataTime i) _).bind fun r h1 => ?_
    exact (memWrite_notLate ((memRead_keeps h1).2 (hs.dataTime i)) _ _).bind fun _ _ => .ok _
  · obtain ⟨old, s1, s2, h1, h2, rfl⟩ := rmwInstr_cases h
    refine .of_retireInstr (s := s) ?_ ?_ _
    · rw [hw]
      exact (memWrite_keeps h2).2 ((memRead_keeps h1).2 (hs.dataTime i))
    · rw [hc, memWrite_frame h2, memRead_frame h1]

theorem shiftInstr_inOrder (hs : ApuBehindCpu s) (opd : ShiftOperand) (f : Byte → Bool → Byte × Bool) :
    InOrder (answer (shiftInstr i opd f s)) := by
  cases opd with
  | acc => exact .of_next (hs.later rfl (le_clock_add s _))
  | mem m =>
    rw [shiftInstr]
    exact rmwInstr_inOrder hs m (fun _ _ => rfl) fun _ _ => rfl

theorem branchInstr_inOrder (hs : ApuBehindCpu s) (cond : Bool) (rel : Byte) :
    InOrder (answer (branchInstr i cond rel s)) := by
  cases cond <;> exact .of_next (hs.later rfl (le_clock_add s _))

theorem execJmpInd_inOrder (hs : ApuBehindCpu s) (ptr : Addr) : InOrder (execJmpInd ptr s) := by
  have ht := hs.dataTime (.jmpInd ptr)
  refine .of_answer ?_ fun s' h => ?_
  · refine NotLate.bind ?_ fun _ _ => .ok _
    refine (memRead_notLate ht ptr).bind fun r h1 => ?_
    exact (memRead_notLate ((memRead_keeps h1).2 ht) _).bind fun _ _ => .ok _
  · simp only [memReadPair, bind_eq_ok, Prod.exists, pure_eq_ok, Except.ok.injEq, Prod.mk.injEq] at h
    obtain ⟨pc, s1, ⟨lo, s2, h1, hi, s3, h2, -, rfl⟩, rfl⟩ := h
    have htime : s3.sound.apuTime ≤ s.clock + baseCycles (.jmpInd ptr) := (memRead_keeps h2).2 ((memRead_keeps h1).2 ht)
    rw [ApuBehindCpu, State.jump_sound, State.jump_clock, memRead_frame h2, memRead_frame h1]
    exact htime

end Shapes

/-- Every instruction makes its accesses between its start and its end: by the shape it shares with others, or, on registers and
the stack alone, by its exact result. -/
theorem exec_inOrder {s : State} (hs : ApuBehindCpu s) (i : Instr) : InOrder (exec i s) := by
  cases i with
  | lda src | ldx src | ldy src | and src | ora src | eor src | cmp src | cpx src | cpy src =>
    exact readInstr_inOrder hs src (fun _ _ => rfl) fun _ _ => rfl
  | bit m => exact readInstr_inOrder hs (.mem m) (fun _ _ => rfl) fun _ _ => rfl
  | adc src | sbc src => exact addInstr_inOrder hs src _
  | sta dst | stx dst | sty dst => exact storeInstr_inOrder hs dst _
  | inc m | dec m => exact rmwInstr_inOrder hs m (fun _ _ => rfl) fun _ _ => rfl
  | asl opd | lsr opd | rol opd | ror opd => exact shiftInstr_inOrder hs opd _
  | bpl rel | bmi rel | bvc rel | bvs rel | bcc rel | bcs rel | bne rel | beq rel => exact branchInstr_inOrder hs _ rel
  | jmpInd ptr => exact execJmpInd_inOrder hs ptr
  | tax | tay | txa | tya | tsx | txs | inx | iny | dex | dey | clc | sec | cli | sei | clv | cld | sed | nop
  | jmpAbs target | illegal op => exact .of_next (hs.later rfl (le_clock_add s _))
  | pha | php | pla | plp | jsr target | rts | rti | brk =>
    simp only [exec_pha, exec_php, exec_pla, exec_plp, exec_jsr, exec_rts, exec_rti, exec_brk]
    exact .of_next (hs.later rfl (le_clock_add s _))

/-! ## The CPU step and the run loop -/

section Run

variable {s s' : State}

theorem cpuStep_behind {r : StepResult} (hs : ApuBehindCpu s) (h : cpuStep s = .next (r, s')) : ApuBehindCpu s' := by
  obtain ⟨w, ⟨hf, -, rfl⟩ | ⟨i, hf, hi, -⟩⟩ := cpuStep_cases h
  · exact ApuBehindCpu.later (s := { s with sound := w }) ((fetch_keeps hf).2 hs) rfl (le_clock_add s _)
  · exact (exec_inOrder (s := { s with sound := w }) ((fetch_keeps hf).2 hs) i).1 s' hi

theorem cpuStep_ne_late (hs : ApuBehindCpu s) : cpuStep s ≠ .fault .apuTimeOrder := by
  intro h
  cases hf : fetch s with
  | error e =>
    simp only [cpuStep, hf, Host.Outcome.fault.injEq] at h
    exact fetch_notLate hs (h ▸ hf)
  | ok r =>
    obtain ⟨f, s1⟩ := r
    have hs1 : ApuBehindCpu s1 := by
      have ht := (fetch_keeps hf).2 hs
      rw [ApuBehindCpu, fetch_frame hf]
      exact ht
    cases f with
    | wrapped =>
      rw [cpuStep_of_wrapped hf] at h
      cases h
    | instr i =>
      rw [cpuStep_of_instr hf, andThen_eq_fault] at h
      obtain h | ⟨_, _, h⟩ := h
      · exact (exec_inOrder hs1 i).2 h
      · cases h

theorem boundary_behind {endClock : Option Int} {r : Option RunResult} (hs : ApuBehindCpu s)
    (h : boundary endClock s = .next (r, s')) : ApuBehindCpu s' := by
  obtain ⟨-, ⟨-, -, rfl⟩ | ⟨-, -, -, rfl⟩ | ⟨-, -, -, -, hi⟩ | ⟨-, -, -, sr, hc, -⟩⟩ := boundary_cases h
  · exact hs
  · exact hs
  · exact hs.later (takeInterrupt_sound hi) (boundary_clock_le h)
  · exact cpuStep_behind hs hc

/-- A turn of the run loop stops before the first start_track, or where its CPU step stops (R46, R131). -/
theorem boundary_fault_cases {endClock : Option Int} {e : Fault} (h : boundary endClock s = .fault e) :
    e = .unstarted ∨ cpuStep s = .fault e := by
  unfold boundary at h
  split at h
  · exact .inl (Host.Outcome.fault.inj h).symm
  · split at h
    · cases h
    · split at h
      · cases h
      · split at h
        · rw [takeInterrupt_ok] at h
          cases h
        · rw [andThen_eq_fault] at h
          obtain h | ⟨_, _, h⟩ := h
          · exact .inr h
          · cases h

/-! ## The Coordinator -/

/-- No host call stops: a call that is not taken is answered with an error (R365, R366). -/
theorem hostCall_ok (s : State) (call : HostCall) : ∃ s', hostCall s call = .ok s' := by
  cases call with
  | startTrack n =>
    simp only [hostCall, startTrack, startTrackSteps_ok, ok_bind, pure_eq_ok]
    split
    · exact ⟨_, rfl⟩
    · split <;> exact ⟨_, rfl⟩
  | setSampleRate _ | endFrame _ | play _ | setTempo _ | muteVoice _ _ | warning => exact ⟨_, rfl⟩

theorem initTurn_fault {e : Fault} (h : initTurn s = .fault e) : boundary s.params.initLimit s = .fault e := by
  rw [initTurn, andThen_eq_fault] at h
  obtain h | ⟨⟨r, s1⟩, -, h⟩ := h
  · exact h
  · rcases r with _ | r
    · cases h
    · cases r <;> cases h

theorem frameTurn_fault_cases {length : ℕ+} {need : Option Nat} {e : Fault} (h : frameTurn s length need = .fault e) :
    boundary (some ((length : Nat) : Int)) s = .fault e ∨ leaveFrame s length need = .error e ∨ playEntry s = .error e := by
  unfold frameTurn at h
  split at h
  · split at h
    · exact .inr (.inl (answer_eq_fault.1 h))
    · split at h
      · exact .inr (.inr (answer_eq_fault.1 h))
      · cases h
  · rw [andThen_eq_fault] at h
    obtain h | ⟨⟨r, s1⟩, hb, h⟩ := h
    · exact .inl h
    · rcases r with _ | r
      · cases h
      · cases r with
        | reached =>
          rw [← boundary_reached hb]
          exact .inr (.inl (answer_eq_fault.1 h))
        | idle | illegal | wrap | interrupt => cases h

/-- Where a step can stop: in a turn of the run loop, at the end of a frame, at a play entry, or reading the samples out. -/
theorem step_fault_cases {e : Fault} (h : step s = .fault e) :
    (∃ endClock, boundary endClock s = .fault e) ∨ (∃ length need, leaveFrame s length need = .error e) ∨
      playEntry s = .error e ∨ ∃ need, s.activity = .playLoop need ∧ playTurn s need = .error e := by
  unfold step blockStep at h
  split at h
  · unfold waitTurn at h
    split at h
    · cases h
    · rename_i call rest _
      obtain ⟨s1, h1⟩ := hostCall_ok { s with calls := rest } call
      rw [h1] at h
      cases h
  · exact .inl ⟨_, initTurn_fault h⟩
  · rename_i length need _
    obtain hb | hl | hp := frameTurn_fault_cases h
    · exact .inl ⟨_, hb⟩
    · exact .inr (.inl ⟨length, need, hl⟩)
    · exact .inr (.inr (.inl hp))
  · rename_i need ha
    exact .inr (.inr (.inr ⟨need, ha, answer_eq_fault.1 h⟩))

theorem leaveFrame_notLate (length : ℕ+) (need : Option Nat) : NotLate (leaveFrame s length need) := by
  refine NotLate.bind ?_ fun s1 _ => ?_
  · exact (apuEndFrame_notLate _ _ _).bind fun _ _ => .ok _
  · cases need <;> exact .ok _

theorem playEntry_notLate : NotLate (playEntry s) := by
  unfold playEntry
  split
  · exact nofun
  · simp only [pushSentinel_ok, ok_bind]
    exact .ok _

theorem playTurn_notLate (need : Nat) : NotLate (playTurn s need) := by
  unfold playTurn
  split
  · exact .ok _
  · refine NotLate.bind ?_ fun _ _ => .ok _
    unfold readSamples
    split <;> exact nofun

/-- A frame's end lowers both times by its length, and runs the APU to the CPU's clock at most, the frame having passed
(R309, R358). -/
theorem apuEndFrame_apuTime {env : SoundEnv} {length clock : Int} {w w' : Sound} (hw : w.apuTime ≤ clock)
    (hle : length ≤ clock) (h : apuEndFrame env length w = .ok w') : w'.apuTime ≤ clock - length := by
  obtain ⟨w1, hrun, -, rfl⟩ := apuEndFrame_cases h
  have htime : w1.apuTime = max length w.apuTime := (runTo_keeps hrun).2
  have hmax : max length w.apuTime ≤ clock := max_le hle hw
  change w1.apuTime - length ≤ clock - length
  omega

theorem step_behind (hs : ApuBehindCpu s) (h : step s = .next s') : ApuBehindCpu s' := by
  cases step_soundTurn h with
  | quiet hw hc => exact hs.later hw hc
  | routed mask hw hc =>
    rw [ApuBehindCpu, hw, hc]
    exact hs
  | boundary hb hw hc => exact (boundary_behind hs hb).later hw hc.ge
  | frameEnd hle hw hc =>
    rw [ApuBehindCpu, hc]
    exact apuEndFrame_apuTime hs hle hw
  | read hw hc =>
    obtain ⟨-, -, hw⟩ := readSamples_cases hw
    rw [ApuBehindCpu, hw, hc]
    exact hs
  | reset hw hc =>
    rw [ApuBehindCpu, hw, hc]
    exact le_refl 0

end Run

/-- Settles O47: the order of the times by what a step does to both, the missing fault by where a step can stop. -/
theorem apuBehindCpuKept : Obligations.ApuBehindCpuKept := by
  refine ⟨fun s s' hs h => step_behind hs h, fun s hs h => ?_,
    fun env c reg v openBus w hc => ⟨apuWrite_late env hc reg v, apuRead_late env hc openBus reg⟩⟩
  obtain ⟨endClock, hb⟩ | ⟨length, need, hl⟩ | hp | ⟨need, -, hp⟩ := step_fault_cases h
  · obtain he | hc := boundary_fault_cases hb
    · cases he
    · exact cpuStep_ne_late hs hc
  · exact leaveFrame_notLate length need hl
  · exact playEntry_notLate hp
  · exact playTurn_notLate need hp

end Sys2Proof.Machine
end

section
/-! The first six steps of `start_track`, as the state they leave (spec/46_coordinator.md R352, R353, R367). -/

namespace Sys2Proof.Machine

/-- Fresh voices are routed to both buffers, which is what an empty mute mask asks for (R334, R453). -/
theorem routeVoices_freshVoices (c : ApuChip) (i : Nat) (is : List Nat) :
    routeVoices 0 i (is.map (freshVoice c)) = is.map (freshVoice c) := by
  induction is generalizing i with
  | nil => rfl
  | cons k is ih =>
    rw [List.map_cons, routeVoices, ih, Nat.zero_testBit]
    rfl

theorem setOutputs_freshSound (c : ApuChip) : setOutputs 0 (freshSound c) = freshSound c := by
  rw [setOutputs, freshSound, routeVoices_freshVoices]

/-- What the first six steps of `start_track(n)` leave. -/
def State.trackStart (s : State) (n : Nat) : State :=
  { s with
    a := BitVec.ofNat 8 n, x := 0x00, y := 0x00, sp := 0xFD, pc := s.header.initAddr
    n := false, v := false, d := false, z := false, c := false, i := true
    clock := 0, corrupt := false, warning := none, nmiPending := false
    ram := ((loadedRam s.header.ramData).write 0x1FF 0x5F).write 0x1FE 0xF5, sram := [], bank := s.header.bankInit
    sound := freshSound (chipOf s.params.chip)
    track := n, mute := 0, playPeriod := period s.header.basePlayPeriod s.tempo, nextPlay := 0
    inRoutine := some .init, mode := .trackStarted }

theorem startTrackSteps_eq (s : State) (n : Nat) : startTrackSteps s n = .ok (s.trackStart n) := by
  rw [startTrackSteps_ok, enterInit]
  congr 2
  exact setOutputs_freshSound _

/-- The steps read only what they keep: the header, the parameters and the tempo. -/
theorem State.trackStart_trackStart (s : State) (n : Nat) : (s.trackStart n).trackStart n = s.trackStart n := rfl

/-- Settles O54: the state the steps leave, and that they leave it again. -/
theorem startTrackResets : Obligations.StartTrackResets := by
  refine ⟨fun s n => startTrackSteps_eq s n, fun s t n h => ?_⟩
  rw [startTrackSteps_eq] at h ⊢
  cases h
  rw [State.trackStart_trackStart]

end Sys2Proof.Machine
end

section
/-! The Coordinator's turns, each case said once as an equation: a play entry, the idle advance, a routine's return, the end of a
frame and of `RunInit`, and the loop of `play` (spec/46_coordinator.md R354-R359, R368). -/

namespace Sys2Proof.Machine

/-! ## The turn that a step is -/

section Step

variable {s : State}

theorem step_of_initRun (ha : s.activity = .initRun) : step s = initTurn s := by simp only [step, blockStep, ha]

theorem step_of_frame {length : ℕ+} {need : Option Nat} (ha : s.activity = .frame length need) :
    step s = frameTurn s length need := by simp only [step, blockStep, ha]

theorem step_of_playLoop {need : Nat} (ha : s.activity = .playLoop need) : step s = answer (playTurn s need) := by
  simp only [step, blockStep, ha]

theorem step_of_call {call : HostCall} {rest : List HostCall} {s' : State} (ha : s.activity = .waiting)
    (hc : s.calls = call :: rest) (h : hostCall { s with calls := rest } call = .ok s') : step s = .next s' := by
  rw [← answer_eq_next] at h
  simpa only [step, blockStep, waitTurn, ha, hc] using h

theorem step_of_no_call (ha : s.activity = .waiting) (hc : s.calls = []) : step s = .next s := by
  simp only [step, blockStep, waitTurn, ha, hc]

end Step

/-! ## The operations of a frame -/

section Frame

variable {s : State} {length : ℕ+} {need : Option Nat}

/-- A play entry, exactly: the next one a period on, from the clock with a warning if this one is late by a period, and the
routine called with the sentinel as its return address (R357, R359). -/
theorem playEntry_ok (hm : s.mode ≠ .idle) :
    playEntry s =
      .ok { s with
        nextPlay := if s.nextPlay + s.playPeriod ≤ s.clock then s.clock + s.playPeriod else s.nextPlay + s.playPeriod
        warning := if s.nextPlay + s.playPeriod ≤ s.clock then some .playOverrun else s.warning
        ram := (s.ram.write (stackOffset s.sp) 0x5F).write (stackOffset (s.sp - 1)) 0xF5
        sp := s.sp - 2, pc := s.header.playAddr, inRoutine := some .play } := by
  have hsp : s.sp - 1 - 1 = s.sp - 2 := by bv_omega
  simp only [playEntry, if_neg hm, pushSentinel_ok, ok_bind, pure_eq_ok, decide_eq_true_eq, hsp]

/-- The end of a frame, exactly: the rebase, and the answer or the way back into `play` (R355, R358). -/
theorem leaveFrame_ok {w : Sound} (hw : apuEndFrame s.soundEnv ((length : Nat) : Int) s.sound = .ok w) :
    leaveFrame s length need =
      .ok { s with
        clock := s.clock - ((length : Nat) : Int), nextPlay := s.nextPlay - ((length : Nat) : Int), sound := w
        mode := .frameBoundary
        activity := need.elim .waiting .playLoop
        answers := if need = none then s.answers ++ [.ok] else s.answers } := by
  simp only [leaveFrame, rebase, hw, ok_bind, pure_eq_ok]
  cases need <;> rfl

theorem reachedEnd_frame (length : ℕ+) (s : State) :
    reachedEnd s (some ((length : Nat) : Int)) = true ↔ ((length : Nat) : Int) ≤ s.clock := decide_eq_true_iff

/-- Once the clock has come to the frame's length, the frame ends, unless the routine in progress has just returned. -/
theorem frameTurn_of_passed (hc : ((length : Nat) : Int) ≤ s.clock) (hm : s.mode ≠ .idle)
    (hr : s.inRoutine = none ∨ s.pc ≠ idleAddr) : frameTurn s length need = answer (leaveFrame s length need) := by
  by_cases hin : s.inRoutine = none
  · rw [frameTurn, if_pos hin, if_pos hc]
  · have hb := boundary_of_reached hm (hr.resolve_left hin) ((reachedEnd_frame length s).2 hc)
    rw [frameTurn, if_neg hin, hb]
    rfl

theorem frameTurn_of_due (hin : s.inRoutine = none) (hc : s.clock < ((length : Nat) : Int)) (hn : s.nextPlay ≤ s.clock) :
    frameTurn s length need = answer (playEntry s) := by
  rw [frameTurn, if_pos hin, if_neg (not_le.2 hc), if_pos hn]

theorem frameTurn_of_not_due (hin : s.inRoutine = none) (hc : s.clock < ((length : Nat) : Int)) (hn : s.clock < s.nextPlay) :
    frameTurn s length need = .next (idleAdvance s length) := by
  rw [frameTurn, if_pos hin, if_neg (not_le.2 hc), if_neg (not_le.2 hn)]

theorem frameTurn_of_returned (hin : s.inRoutine ≠ none) (hm : s.mode ≠ .idle) (hp : s.pc = idleAddr) :
    frameTurn s length need = .next (routineReturned s) := by
  rw [frameTurn, if_neg hin, boundary_of_idle hm hp]
  rfl

end Frame

/-! ## The end of `RunInit` -/

section Init

variable {s : State}

theorem initTurn_of_returned (hm : s.mode ≠ .idle) (hp : s.pc = idleAddr) :
    initTurn s = .next ({ s with inRoutine := none, nextPlay := s.clock }.finish .ok) := by
  rw [initTurn, boundary_of_idle hm hp]
  rfl

theorem initTurn_of_timeout {limit : Int} (hm : s.mode ≠ .idle) (hp : s.pc ≠ idleAddr)
    (hlimit : s.params.initLimit = some limit) (hc : limit ≤ s.clock) :
    initTurn s = .next ({ s with warning := some .initTimeout }.finish .ok) := by
  have hend : reachedEnd s s.params.initLimit = true := by
    rw [hlimit]
    exact decide_eq_true hc
  rw [initTurn, boundary_of_reached hm hp hend]
  rfl

end Init

/-! ## The loop of `play` -/

section Play

variable {s : State} {need : Nat}

theorem playTurn_of_short (h : s.sound.avail < need) :
    playTurn s need = .ok (beginFrame s (frameLength s (frameTarget s need)) (some need)) := by
  rw [playTurn, if_pos h, pure_eq_ok]

theorem playTurn_of_confirmed (h : need ≤ s.sound.avail) :
    playTurn s need =
      .ok ({ s with sound := s.sound.afterRead need }.finish (.samples (s.sound.pcm s.params.gain need))) := by
  rw [playTurn, if_neg (not_lt.2 h), readSamples_ok _ h, ok_bind]
  rfl

/-- The loop reads only once enough is confirmed (R368). -/
theorem playTurn_ok (s : State) (need : Nat) : ∃ s', playTurn s need = .ok s' := by
  obtain h | h := lt_or_ge s.sound.avail need
  · exact ⟨_, playTurn_of_short h⟩
  · exact ⟨_, playTurn_of_confirmed h⟩

end Play

/-- Settles O56: each turn by its equation. -/
theorem frameLoop : Obligations.FrameLoop := by
  refine ⟨fun s length need ha hin hc hm => ⟨fun hn => ?due, fun hn => ?notDue⟩,
    fun s length need w ha hc hm hr hw => ?passed, fun s length need ha hin hm hp => ?returned,
    fun s ha hm hp => ?initReturned, fun s limit ha hm hp hlimit hc => ?timeout⟩
  case due =>
    rw [step_of_frame ha, frameTurn_of_due hin hc hn, playEntry_ok hm]
    rfl
  case notDue =>
    rw [step_of_frame ha, frameTurn_of_not_due hin hc hn]
    rfl
  case passed =>
    rw [step_of_frame ha, frameTurn_of_passed hc hm hr, leaveFrame_ok hw]
    rfl
  case returned =>
    rw [step_of_frame ha, frameTurn_of_returned hin hm hp]
    rfl
  case initReturned =>
    rw [step_of_initRun ha, initTurn_of_returned hm hp]
    rfl
  case timeout =>
    rw [step_of_initRun ha, initTurn_of_timeout hm hp hlimit hc]
    rfl

end Sys2Proof.Machine
end

section
/-! The tempo and the play period: no turn of the CPU or of a frame touches either, `start_track` sets the period by the tempo, and
`set_tempo` sets both (spec/46_coordinator.md R350, R352, R361, R362). -/

namespace Sys2Proof.Machine

/-! ## What touches the tempo -/

/-- The tempo and the play period. -/
def State.pace (s : State) : Rat × Nat := (s.tempo, s.playPeriod)

section Turns

variable {s s' : State}

theorem State.beyondCpu_pace (s : State) : s.beyondCpu.pace = s.pace := rfl

theorem boundary_pace {endClock : Option Int} {r : Option RunResult} (h : boundary endClock s = .next (r, s')) :
    s'.pace = s.pace := by
  obtain ⟨-, ⟨-, -, rfl⟩ | ⟨-, -, -, rfl⟩ | ⟨-, -, -, -, hi⟩ | ⟨-, -, -, sr, hs, -⟩⟩ := boundary_cases h
  · rfl
  · rfl
  · rw [← s'.beyondCpu_pace, takeInterrupt_beyondCpu hi]
    rfl
  · rw [← s'.beyondCpu_pace, cpuStep_beyondCpu hs, s.beyondCpu_pace]

theorem initTurn_pace (h : initTurn s = .next s') : s'.pace = s.pace := by
  obtain ⟨r, s1, hb, ⟨-, rfl⟩ | ⟨-, rfl⟩ | ⟨-, -, rfl⟩⟩ := initTurn_cases h
  all_goals
    have hkept := boundary_pace hb
    exact hkept

theorem leaveFrame_pace {length : ℕ+} {need : Option Nat} (h : leaveFrame s length need = .ok s') : s'.pace = s.pace := by
  obtain ⟨-, -, hw, -⟩ := leaveFrame_cases h
  rw [leaveFrame_ok hw] at h
  exact (congrArg State.pace (Except.ok.inj h)).symm

theorem playEntry_pace (h : playEntry s = .ok s') : s'.pace = s.pace := by
  by_cases hm : s.mode = .idle
  · rw [playEntry, if_pos hm] at h
    cases h
  · rw [playEntry_ok hm] at h
    cases h
    rfl

theorem frameTurn_pace {length : ℕ+} {need : Option Nat} (h : frameTurn s length need = .next s') : s'.pace = s.pace := by
  obtain ⟨-, ⟨-, hl⟩ | ⟨-, -, hp⟩ | ⟨-, -, rfl⟩⟩ | ⟨-, r, s1, hb, hr⟩ := frameTurn_cases h
  · exact leaveFrame_pace hl
  · exact playEntry_pace hp
  · rfl
  · have hkept := boundary_pace hb
    obtain ⟨-, hl⟩ | ⟨-, rfl⟩ | ⟨-, -, rfl⟩ := hr
    · exact (leaveFrame_pace hl).trans hkept
    · exact hkept
    · exact hkept

theorem playTurn_pace {need : Nat} (h : playTurn s need = .ok s') : s'.pace = s.pace := by
  obtain hn | hn := lt_or_ge s.sound.avail need
  · rw [playTurn_of_short hn] at h
    cases h
    rfl
  · rw [playTurn_of_confirmed hn] at h
    cases h
    rfl

/-- `start_track` keeps the tempo and, where it is taken, sets the period anew by it (R352, R361). -/
theorem startTrack_pace {n : Nat} (h : startTrack s n = .ok s') :
    s'.pace = s.pace ∨ s'.pace = (s.tempo, period s.header.basePlayPeriod s.tempo) := by
  unfold startTrack at h
  split at h
  · cases h
    exact .inl rfl
  · split at h
    · cases h
      exact .inl rfl
    · rw [startTrackSteps_eq] at h
      cases h
      exact .inr rfl

/-- Of the host's calls, `start_track` and `set_tempo` alone set the pace, the period each time by the tempo. -/
theorem hostCall_pace {call : HostCall} (h : hostCall s call = .ok s') :
    s'.pace = s.pace ∨ s'.pace = (s.tempo, period s.header.basePlayPeriod s.tempo) ∨ ∃ t, s'.pace = (setTempo s t).pace := by
  cases call with
  | startTrack n => exact (startTrack_pace h).imp_right .inl
  | setTempo t =>
    cases h
    exact .inr (.inr ⟨t, rfl⟩)
  | setSampleRate rate =>
    cases h
    unfold setSampleRate
    split <;> exact .inl rfl
  | endFrame length =>
    cases h
    unfold endFrame
    split <;> exact .inl rfl
  | play count =>
    cases h
    unfold play
    split
    · exact .inl rfl
    · split <;> exact .inl rfl
  | muteVoice i on =>
    cases h
    unfold muteVoice
    split <;> exact .inl rfl
  | warning =>
    cases h
    exact .inl rfl

end Turns

/-! ## The range of the tempo -/

section Range

variable {s s' : State}

/-- The period is one clock or more at every tempo (R361). -/
theorem one_le_period (base : Nat) (tempo : Rat) : 1 ≤ period base tempo := le_max_left 1 _

/-- A clamped tempo is in range (R362). -/
theorem clampTempo_bounds (t : Rat) : 1 / 50 ≤ clampTempo t ∧ clampTempo t ≤ 4 :=
  ⟨le_max_left _ _, max_le (by norm_num) (min_le_left 4 t)⟩

/-- The range is a statement about the pace alone. -/
theorem tempoOk_of_pace {tempo : Rat} {playPeriod : Nat} (h : s.pace = (tempo, playPeriod)) (hlo : 1 / 50 ≤ tempo)
    (hhi : tempo ≤ 4) (hp : 1 ≤ playPeriod) : TempoOk s := by
  obtain ⟨rfl, rfl⟩ := Prod.mk.inj h
  exact ⟨hlo, hhi, hp⟩

theorem TempoOk.of_same_pace (ht : TempoOk s) (h : s'.pace = s.pace) : TempoOk s' := by
  obtain ⟨hlo, hhi, hp⟩ := ht
  exact tempoOk_of_pace h hlo hhi hp

theorem setTempo_tempoOk (s : State) (t : Rat) : TempoOk (setTempo s t) := by
  obtain ⟨hlo, hhi⟩ := clampTempo_bounds t
  exact ⟨hlo, hhi, one_le_period _ _⟩

theorem hostCall_tempoOk {call : HostCall} (ht : TempoOk s) (h : hostCall s call = .ok s') : TempoOk s' := by
  obtain hk | hp | ⟨t, hk⟩ := hostCall_pace h
  · exact ht.of_same_pace hk
  · obtain ⟨hlo, hhi, -⟩ := ht
    exact tempoOk_of_pace hp hlo hhi (one_le_period _ _)
  · exact (setTempo_tempoOk s t).of_same_pace hk

theorem step_tempoOk (ht : TempoOk s) (h : step s = .next s') : TempoOk s' := by
  obtain ⟨-, -, rfl⟩ | ⟨-, call, rest, -, hh⟩ | ⟨-, hi⟩ | ⟨length, need, -, hf⟩ | ⟨need, -, hp⟩ := step_cases h
  · exact ht
  · exact hostCall_tempoOk (s := { s with calls := rest }) ht hh
  · exact ht.of_same_pace (initTurn_pace hi)
  · exact ht.of_same_pace (frameTurn_pace hf)
  · exact ht.of_same_pace (playTurn_pace hp)

end Range

/-- Settles O57: the range by what each turn does to the pace; the formula is `set_tempo`'s own, which leaves the rest alone. -/
theorem tempoOkKept : Obligations.TempoOkKept :=
  ⟨fun _ _ ht h => step_tempoOk ht h, fun _ _ => rfl⟩

end Sys2Proof.Machine
end

section
/-! What each host call does, accepted or refused (spec/46_coordinator.md R352, R355, R362, R364-R366, R368). -/

namespace Sys2Proof.Machine

/-- Where no call is in progress, answering a call changes the list of answers alone. -/
theorem finish_of_waiting {s : State} (ha : s.activity = .waiting) (a : HostAnswer) :
    s.finish a = { s with answers := s.answers ++ [a] } := by
  rw [State.finish, ← ha]

/-! ## The calls -/

section Calls

variable {s : State}

theorem setSampleRate_twice {rate : ℕ+} (ha : s.activity = .waiting) (hr : s.rateSet = true) :
    setSampleRate s rate = { s with answers := s.answers ++ [.error (.misuse .sampleRateTwice)] } := by
  rw [setSampleRate, if_pos hr, finish_of_waiting ha]

theorem setSampleRate_taken {rate : ℕ+} (ha : s.activity = .waiting) (hr : ¬s.rateSet = true) :
    setSampleRate s rate = { s with rateSet := true, sampleRate := rate, answers := s.answers ++ [.ok] } := by
  rw [setSampleRate, if_neg hr, finish_of_waiting (s := { s with sampleRate := rate, rateSet := true }) ha]

theorem startTrack_without_rate {n : Nat} (ha : s.activity = .waiting) (hr : s.rateSet = false) :
    startTrack s n = .ok { s with answers := s.answers ++ [.error (.misuse .sampleRateUnset)] } := by
  rw [startTrack, if_pos hr, finish_of_waiting ha]

theorem startTrack_bad_track {n : Nat} (ha : s.activity = .waiting) (hr : s.rateSet = true)
    (hn : s.header.trackCount ≤ n ∨ 255 < n) :
    startTrack s n = .ok { s with answers := s.answers ++ [.error .badTrack] } := by
  rw [startTrack, if_neg (by simp [hr]), if_pos hn, finish_of_waiting ha]

theorem startTrack_taken {n : Nat} (hr : s.rateSet = true) (hn : n < s.header.trackCount) (hb : n ≤ 255) :
    startTrack s n = .ok { s.trackStart n with activity := .initRun } := by
  rw [startTrack, if_neg (by simp [hr]), if_neg (by omega), startTrackSteps_eq]
  rfl

theorem endFrame_before_start {length : ℕ+} (ha : s.activity = .waiting) (hm : s.mode = .idle) :
    endFrame s length = { s with answers := s.answers ++ [.error (.misuse .playBeforeStart)] } := by
  rw [endFrame, if_pos hm, finish_of_waiting ha]

theorem endFrame_taken {length : ℕ+} (hm : s.mode ≠ .idle) :
    endFrame s length =
      { s with mode := .running, sound := setOutputs s.mute s.sound, activity := .frame length none } := by
  rw [endFrame, if_neg hm, beginFrame]

theorem play_odd {count : Int} (ha : s.activity = .waiting) (hc : count < 0 ∨ count % 2 ≠ 0) :
    play s count = { s with answers := s.answers ++ [.error (.misuse .oddCount)] } := by
  rw [play, if_pos hc, finish_of_waiting ha]

theorem play_before_start {count : Int} (ha : s.activity = .waiting) (h0 : 0 ≤ count) (h2 : count % 2 = 0)
    (hm : s.mode = .idle) : play s count = { s with answers := s.answers ++ [.error (.misuse .playBeforeStart)] } := by
  rw [play, if_neg (by omega), if_pos hm, finish_of_waiting ha]

theorem play_taken {count : Int} (h0 : 0 ≤ count) (h2 : count % 2 = 0) (hm : s.mode ≠ .idle) :
    play s count = { s with activity := .playLoop (count / 2).toNat } := by
  rw [play, if_neg (by omega), if_neg hm]

theorem muteVoice_bad {i : Nat} {on : Bool} (ha : s.activity = .waiting) (hi : (chipOf s.params.chip).voices ≤ i) :
    muteVoice s i on = { s with answers := s.answers ++ [.error .badVoice] } := by
  rw [muteVoice, if_neg (not_lt.2 hi), finish_of_waiting ha]

theorem muteVoice_taken {i : Nat} {on : Bool} (ha : s.activity = .waiting) (hi : i < (chipOf s.params.chip).voices) :
    muteVoice s i on = { s with mute := setMaskBit s.mute i on, answers := s.answers ++ [.ok] } := by
  rw [muteVoice, if_pos hi, finish_of_waiting (s := { s with mute := setMaskBit s.mute i on }) ha]

end Calls

/-- Setting a bit of the mask sets that bit and no other: where it must change, it is flipped (R366). -/
theorem testBit_setMaskBit (mask i : Nat) (on : Bool) (j : Nat) :
    (setMaskBit mask i on).testBit j = if j = i then on else mask.testBit j := by
  unfold setMaskBit
  by_cases hbit : mask.testBit i = on
  · rw [if_pos hbit]
    by_cases hj : j = i
    · rw [if_pos hj, hj, hbit]
    · rw [if_neg hj]
  · rw [if_neg hbit, Nat.testBit_xor, Nat.testBit_two_pow]
    by_cases hj : j = i
    · subst hj
      simp [Bool.eq_not_of_ne hbit]
    · simp [hj, Ne.symm hj]

/-- Settles O58: a step with a call pending is the call, and each call by its equation. -/
theorem hostAnswers : Obligations.HostAnswers := by
  intro s rest ha
  refine ⟨fun rate hc => ?rate, fun n hc hr => ?rateUnset, fun n hc hr hn => ?badTrack, fun length hc hm => ?endFrameIdle,
    fun count hc h0 h2 hm => ?playIdle, fun count hc hodd => ?oddCount, fun i on hc hi => ?badVoice, fun i on hc hi => ?mute,
    fun hc => ?warning, fun n hc hr hn hb => ?startTrack, fun length hc hm => ?endFrame, fun count hc h0 h2 hm => ?play,
    fun t hc => ?tempo, fun hc => step_of_no_call ha hc⟩
  case rate =>
    split_ifs with hr
    · exact step_of_call ha hc (congrArg Except.ok (setSampleRate_twice ha hr))
    · exact step_of_call ha hc (congrArg Except.ok (setSampleRate_taken ha hr))
  case rateUnset => exact step_of_call ha hc (startTrack_without_rate ha hr)
  case badTrack => exact step_of_call ha hc (startTrack_bad_track ha hr hn)
  case endFrameIdle => exact step_of_call ha hc (congrArg Except.ok (endFrame_before_start ha hm))
  case playIdle => exact step_of_call ha hc (congrArg Except.ok (play_before_start ha h0 h2 hm))
  case oddCount => exact step_of_call ha hc (congrArg Except.ok (play_odd ha hodd))
  case badVoice => exact step_of_call ha hc (congrArg Except.ok (muteVoice_bad ha hi))
  case mute =>
    exact ⟨setMaskBit s.mute i on, step_of_call ha hc (congrArg Except.ok (muteVoice_taken ha hi)),
      testBit_setMaskBit s.mute i on⟩
  case warning => exact step_of_call ha hc (congrArg Except.ok (finish_of_waiting (s := { s with calls := rest }) ha _))
  case startTrack => exact ⟨_, startTrackSteps_eq _ n, step_of_call ha hc (startTrack_taken hr hn hb)⟩
  case endFrame => exact step_of_call ha hc (congrArg Except.ok (endFrame_taken hm))
  case play => exact step_of_call ha hc (congrArg Except.ok (play_taken h0 h2 hm))
  case tempo => exact step_of_call ha hc (congrArg Except.ok (finish_of_waiting (s := setTempo { s with calls := rest } t) ha .ok))

end Sys2Proof.Machine
end

section
/-! The loop of `play`: the least frame that confirms a target, the samples it answers, and that no step reads beyond what is
confirmed (spec/46_coordinator.md R368, spec/45_apu_synthesis.md R326). -/

namespace Sys2Proof.Machine

/-! ## The least frame -/

theorem State.ratio_pos (s : State) : 0 < s.ratio := by
  have hrate : 0 < ((s.sampleRate : Nat) : Rat) := Nat.cast_pos.2 s.sampleRate.pos
  have hclocks : 0 < clocksPerSecond s.params :=
    div_pos (Nat.cast_pos.2 s.params.clockRate.1.pos) (Nat.cast_pos.2 s.params.clockRate.2.pos)
  exact div_pos hrate hclocks

/-- The least positive number at or above an integer bound. -/
theorem toPNat'_le_iff (k : Int) (length : ℕ+) : k.toNat.toPNat' ≤ length ↔ k ≤ ((length : Nat) : Int) := by
  have hpos := length.pos
  rw [← PNat.coe_le_coe, Nat.toPNat'_coe]
  split <;> omega

/-- A frame confirms a target exactly if it is no shorter than the frame's length for it (R328, R368). -/
theorem frameLength_le_iff (s : State) (target : Nat) (length : ℕ+) :
    frameLength s target ≤ length ↔ (target : Int) ≤ ⌊s.sound.origin + ((length : Nat) : Rat) * s.ratio⌋ := by
  rw [frameLength, toPNat'_le_iff, Int.ceil_le, div_le_iff₀ s.ratio_pos, sub_le_iff_le_add', Int.le_floor]
  norm_cast

/-! ## Reads beyond what is confirmed -/

/-- A stop of the sound chip is no read beyond what is confirmed. -/
theorem StopsForSound.ne_readPastConfirmed {α : Type} {r : Res α} (h : StopsForSound r) : r ≠ .error .readPastConfirmed := by
  intro hr
  obtain he | he := h _ hr <;> cases he

section Stops

variable {s : State}

theorem fetchOperand_stops (s : State) (k len : Nat) (pc : Addr) (t : Int) : StopsForSound (fetchOperand s k len pc t) := by
  unfold fetchOperand
  split
  · exact memRead_stops s t _
  · exact .ok _

theorem fetch_stops (s : State) : StopsForSound (fetch s) := by
  refine (memRead_stops s _ s.pc).bind fun r1 => ?_
  simp only
  split
  · exact .ok _
  · split
    · exact .ok _
    · exact (fetchOperand_stops r1.2 _ _ _ _).bind fun r2 => (fetchOperand_stops r2.2 _ _ _ _).bind fun _ => .ok _

/-- A CPU step stops where its fetch does, or where the instruction it finds does. -/
theorem cpuStep_fault_cases {e : Fault} (h : cpuStep s = .fault e) :
    fetch s = .error e ∨ ∃ i s1, exec i s1 = .fault e := by
  cases hf : fetch s with
  | error f =>
    simp only [cpuStep, hf, Host.Outcome.fault.injEq] at h
    exact .inl (congrArg _ h)
  | ok r =>
    obtain ⟨found, s1⟩ := r
    cases found with
    | wrapped =>
      rw [cpuStep_of_wrapped hf] at h
      cases h
    | instr i =>
      rw [cpuStep_of_instr hf, andThen_eq_fault] at h
      obtain h | ⟨_, _, h⟩ := h
      · exact .inr ⟨i, s1, h⟩
      · cases h

/-- The CPU reads no samples. -/
theorem cpuStep_ne_readPastConfirmed (s : State) : cpuStep s ≠ .fault .readPastConfirmed := by
  intro h
  obtain hf | ⟨i, s1, hi⟩ := cpuStep_fault_cases h
  · exact (fetch_stops s).ne_readPastConfirmed hf
  · obtain (he | he) | ⟨-, he, -⟩ := exec_fault hi <;> cases he

theorem apuEndFrame_stops (env : SoundEnv) (length : Int) (w : Sound) : StopsForSound (apuEndFrame env length w) := by
  refine (runTo_stops env _ w).bind fun w1 => ?_
  unfold bufferEndFrame
  simp only
  split
  · rintro e ⟨⟩
    exact .inr rfl
  · exact .ok _

theorem leaveFrame_stops (s : State) (length : ℕ+) (need : Option Nat) : StopsForSound (leaveFrame s length need) := by
  refine StopsForSound.bind ?_ fun s1 => ?_
  · exact (apuEndFrame_stops _ _ _).bind fun _ => .ok _
  · cases need <;> exact .ok _

theorem playEntry_ne_readPastConfirmed (s : State) : playEntry s ≠ .error .readPastConfirmed := by
  by_cases hm : s.mode = .idle
  · rw [playEntry, if_pos hm]
    exact nofun
  · rw [playEntry_ok hm]
    exact nofun

theorem step_ne_readPastConfirmed (s : State) : step s ≠ .fault .readPastConfirmed := by
  intro h
  obtain ⟨endClock, hb⟩ | ⟨length, need, hl⟩ | hp | ⟨need, -, hp⟩ := step_fault_cases h
  · obtain he | hc := boundary_fault_cases hb
    · cases he
    · exact cpuStep_ne_readPastConfirmed s hc
  · exact (leaveFrame_stops s length need).ne_readPastConfirmed hl
  · exact playEntry_ne_readPastConfirmed s hp
  · obtain ⟨s', hs⟩ := playTurn_ok s need
    rw [hs] at hp
    cases hp

end Stops

/-- Settles O59: the two turns of the loop by their equations, the least frame as a bound on the frame's end, and the missing
fault by where a step can stop. -/
theorem playLoop : Obligations.PlayLoop := by
  refine ⟨fun s need ha h => ?short, fun s target length => (frameLength_le_iff s target length).symm,
    fun s need ha h => ?confirmed, step_ne_readPastConfirmed⟩
  case short =>
    rw [step_of_playLoop ha, playTurn_of_short h]
    rfl
  case confirmed =>
    refine ⟨_, _, readSamples_ok s.params.gain h, s.sound.length_pcm s.params.gain need, ?_⟩
    rw [step_of_playLoop ha, playTurn_of_confirmed h]
    rfl

end Sys2Proof.Machine
end

section
/-! Taking an interrupt at a boundary, exactly (spec/60_exceptions.md R403-R406). -/

namespace Sys2Proof.Machine

/-- What the vector of an interrupt shows: NMI goes before IRQ (R406). -/
theorem word_peek_vector (s : State) (nmi : Bool) :
    word (s.peek (if nmi then nmiVector else irqVector)) (s.peek ((if nmi then nmiVector else irqVector) + 1)) =
      if nmi = true then s.peek 0xFFFB ++ s.peek 0xFFFA else s.peek 0xFFFF ++ s.peek 0xFFFE := by
  cases nmi <;> rfl

/-- Settles O12: the turn takes the interrupt by its checks, and the entry leaves the pushed bytes, the vector and seven clocks. -/
theorem interruptEntry : Obligations.InterruptEntry := by
  intro s endClock hmode hpc hend hpending
  rw [boundary_of_interrupt hmode hpc hend hpending, takeInterrupt_ok, afterEntry, word_peek_vector, sub_one_sub_one_sub_one,
    sub_one_sub_one]
  rfl

end Sys2Proof.Machine
end
